-- ==== Sys2Proof/Word.lean ====
section
/-! DEFINITION. The word types of the block: an 8-bit wire byte and the 32-bit register width (R9, R11). -/

namespace Sys2Proof

/-- A wire byte, a register byte or a buffer byte (R9: "Wire bytes are 8 bits"). -/
abbrev Byte := BitVec 8

/-- The 32-bit value of the status and constant registers, and of a header word (R9, R71). -/
abbrev Word32 := BitVec 32

end Sys2Proof
end

