-- ==== Sys2Proof/Config.lean ====
section
/-! DEFINITION. What the spec leaves to an implementation: the parameters of R7, the draws of R8, the
bodiless constants that stand for them in the machine, and the spec's two reference instances (R10). -/

namespace Sys2Proof

/-- The implementation parameters of R7. A parameter that R7 bounds from below is held as its
excess over the bound, so that every value of this structure meets R7's constraints and every
choice R7 allows is a value of this structure (log 1). -/
structure Params where
  /-- CMD_CAPACITY − 6 (R7: CMD_CAPACITY ≥ 6). -/
  cmdExtra : Nat
  /-- RSP_CAPACITY − 1 (R7: RSP_CAPACITY ≥ 1). -/
  rspExtra : Nat
  /-- BURST_DEFAULT (R7). -/
  burstDefault : Byte
  /-- INTF_CAPS (R7). -/
  intfCaps : Word32
  /-- DID_VID (R7). -/
  didVid : Word32
  /-- RID (R7). -/
  rid : Byte
  /-- READY_MARKER (R7). -/
  readyMarker : Byte
  /-- FILL_BYTE (R7). -/
  fillByte : Byte
  /-- FIFO_DEPTH − 1 (R7: FIFO_DEPTH ≥ 1). -/
  fifoExtra : Nat
  /-- DONE_POLL_LIMIT − 1 (R7: DONE_POLL_LIMIT ≥ 1). -/
  doneExtra : Nat
  /-- TX_POLL_LIMIT − DONE_POLL_LIMIT (R7: DONE_POLL_LIMIT ≤ TX_POLL_LIMIT). -/
  txExtra : Nat
  /-- The first byte of RESPOND(c) (R7: the result has length at least 1). -/
  respondHead : List Byte → Byte
  /-- The bytes of RESPOND(c) after the first, before the cut at RSP_CAPACITY (R7). -/
  respondTail : List Byte → List Byte
deriving Inhabited

/-- CMD_CAPACITY (R7). -/
def Params.cmdCapacity (P : Params) : Nat := P.cmdExtra + 6

/-- RSP_CAPACITY (R7). -/
def Params.rspCapacity (P : Params) : Nat := P.rspExtra + 1

/-- FIFO_DEPTH (R7). -/
def Params.fifoDepth (P : Params) : Nat := P.fifoExtra + 1

/-- DONE_POLL_LIMIT (R7). -/
def Params.donePollLimit (P : Params) : Nat := P.doneExtra + 1

/-- TX_POLL_LIMIT (R7). -/
def Params.txPollLimit (P : Params) : Nat := P.txExtra + P.donePollLimit

/-- RESPOND, the responder of R3 and R151: a total function of the command bytes alone, of length
1 to RSP_CAPACITY. -/
def Params.respond (P : Params) (cmd : List Byte) : List Byte :=
  P.respondHead cmd :: (P.respondTail cmd).take P.rspExtra

/-- The draws of R8: values the model leaves free, each indexed by the count of the draws of its
kind made so far. -/
structure Draws where
  /-- MISO_IDLE (R8, R99): the byte received while no device is selected. -/
  misoIdle : Nat → Byte
  /-- The shifter schedule (R8, R188): how many steps the shifter tries before a sequencer step. -/
  shifterSteps : Nat → Nat
deriving Inhabited

namespace Config

/-- CMD_CAPACITY − 6, open (D29). -/
opaque cmdExtra : Nat
/-- RSP_CAPACITY − 1, open (D29). -/
opaque rspExtra : Nat
/-- BURST_DEFAULT, open (D30). -/
opaque burstDefault : Byte
/-- INTF_CAPS, open (D14). -/
opaque intfCaps : Word32
/-- DID_VID, open (D14). -/
opaque didVid : Word32
/-- RID, open (D14). -/
opaque rid : Byte
/-- READY_MARKER, open (D7). -/
opaque readyMarker : Byte
/-- FILL_BYTE, open (D6). -/
opaque fillByte : Byte
/-- FIFO_DEPTH − 1, open (D31). -/
opaque fifoExtra : Nat
/-- DONE_POLL_LIMIT − 1, open (D32). -/
opaque doneExtra : Nat
/-- TX_POLL_LIMIT − DONE_POLL_LIMIT, open (D32). -/
opaque txExtra : Nat
/-- The first byte of the responder's answer, open (D28). -/
opaque respondHead : List Byte → Byte
/-- The later bytes of the responder's answer, open (D28). -/
opaque respondTail : List Byte → List Byte
/-- FREE VALUE: MISO_IDLE at each draw, open (R8, D11; log 2). -/
opaque misoIdle : Nat → Byte
/-- FREE VALUE: the shifter's steps at each draw, open (R8, D31; log 3). -/
opaque shifterSteps : Nat → Nat

/-- The parameters of the machine of this model (R7): all open. -/
def hw : Params where
  cmdExtra := cmdExtra
  rspExtra := rspExtra
  burstDefault := burstDefault
  intfCaps := intfCaps
  didVid := didVid
  rid := rid
  readyMarker := readyMarker
  fillByte := fillByte
  fifoExtra := fifoExtra
  doneExtra := doneExtra
  txExtra := txExtra
  respondHead := respondHead
  respondTail := respondTail

/-- The draws of the machine of this model (R8): all free. -/
def draws : Draws where
  misoIdle := misoIdle
  shifterSteps := shifterSteps

end Config

/-- RC1, the reference configuration of the spec's test vectors (R10): a test instance only, not the
hardware's values. -/
def Params.rc1 : Params where
  cmdExtra := 4090
  rspExtra := 4095
  burstDefault := 0x40
  intfCaps := 0x44332211
  didVid := 0x88776655
  rid := 0x99
  readyMarker := 0x01
  fillByte := 0x00
  fifoExtra := 3
  doneExtra := 99
  txExtra := 900
  respondHead := fun _ => 0x80
  respondTail := fun _ => [0x01, 0x00, 0x00, 0x00, 0x0A, 0x00, 0x00, 0x00, 0x00]

/-- RC2, that is RC1 with CMD_CAPACITY = 8 (R10). -/
def Params.rc2 : Params := { Params.rc1 with cmdExtra := 2 }

/-- The eager schedule of the spec's test vectors (95_test_vectors.md, Conventions): the shifter runs
every enabled step, of which there are at most FIFO_DEPTH between two sequencer steps. -/
def Draws.eager (P : Params) (idle : Byte) : Draws where
  misoIdle := fun _ => idle
  shifterSteps := fun _ => P.fifoDepth

/-- The schedule of V-ENG-2 and V-ENG-3 (95_test_vectors.md §6): the shifter never steps. -/
def Draws.stopped (idle : Byte) : Draws where
  misoIdle := fun _ => idle
  shifterSteps := fun _ => 0

end Sys2Proof
end

