-- ==== Sys2Proof/Syntax.lean ====
section
/-! DEFINITION. The encoded operations of the block: one constructor of `Instr` per row of
spec/opcode_table.json, and the raw requests they are decoded from (R70). -/

namespace Sys2Proof

/-- The direction of a transaction (R72). -/
inductive Dir where
  | read
  | write
deriving DecidableEq, Repr

/-- The operations of spec/opcode_table.json, in the table's order.

Operands are the fields of the row's format. Bits the block ignores are operands too (`rsv`,
`marker`, the ignored bits of a status or access value), so that no bit of a word is lost. `k` is the
byte index within a 4-byte register (the low two address bits); `addr` is a whole access address, a
natural number because R80 allows a sum above 0xFFFF; `v` is the data byte of a write. -/
inductive Instr where
  /-- HDR_WRITE (R71, R101). -/
  | hdrWrite (rsv : BitVec 1) (lenm1 : BitVec 6) (marker : Byte) (addr : BitVec 16)
  /-- HDR_READ (R71, R101). -/
  | hdrRead (rsv : BitVec 1) (lenm1 : BitVec 6) (marker : Byte) (addr : BitVec 16)
  /-- RD_ACCESS (R119). -/
  | rdAccess
  /-- RD_INTEN (R130). -/
  | rdInten (k : BitVec 2)
  /-- RD_CAPS (R125). -/
  | rdCaps (k : BitVec 2)
  /-- RD_STS (R121). -/
  | rdSts (k : BitVec 2)
  /-- RD_FIFO (R128, R154). -/
  | rdFifo (addr : Nat)
  /-- RD_DIDVID (R126). -/
  | rdDidvid (k : BitVec 2)
  /-- RD_RID (R127). -/
  | rdRid
  /-- WR_ACCESS (R124). -/
  | wrAccess (v : Byte)
  /-- WR_INTEN (R130). -/
  | wrInten (k : BitVec 2) (v : Byte)
  /-- WR_CAPS (R125). -/
  | wrCaps (k : BitVec 2) (v : Byte)
  /-- WR_STS0 (R122). -/
  | wrSts0 (v : Byte)
  /-- WR_STS_HI (R123). -/
  | wrStsHi (k : BitVec 2) (v : Byte)
  /-- WR_FIFO (R129, R143). -/
  | wrFifo (addr : Nat) (v : Byte)
  /-- WR_DIDVID (R126). -/
  | wrDidvid (k : BitVec 2) (v : Byte)
  /-- WR_RID (R127). -/
  | wrRid (v : Byte)
  /-- RD_UNKNOWN (R131). -/
  | rdUnknown (addr : Nat)
  /-- WR_UNKNOWN (R132). -/
  | wrUnknown (addr : Nat) (v : Byte)
  /-- STS_ABORT (R152); `b7` and `lo` are the ignored bits 7 and 4:0 (R83). -/
  | stsAbort (b7 : BitVec 1) (lo : BitVec 5)
  /-- STS_GO (R150). -/
  | stsGo (b7 : BitVec 1) (lo : BitVec 5)
  /-- STS_ABORT_GO (R153). -/
  | stsAbortGo (b7 : BitVec 1) (lo : BitVec 5)
  /-- STS_NOP (R122). -/
  | stsNop (b7 : BitVec 1) (lo : BitVec 5)
  /-- ACC_REQUEST_USE (R124); `hi` and `b0` are the ignored bits 7:2 and 0 (R84). -/
  | accRequestUse (hi : BitVec 6) (b0 : BitVec 1)
  /-- ACC_NOP (R124). -/
  | accNop (hi : BitVec 6) (b0 : BitVec 1)
  /-- XFER_BE (R85, R176): begin_flag = 1, end_flag = 1. -/
  | xferBE (bitLength : Nat) (out inBuf : List Byte)
  /-- XFER_B (R85, R176): begin_flag = 1, end_flag = 0. -/
  | xferB (bitLength : Nat) (out inBuf : List Byte)
  /-- XFER_C (R85, R176): begin_flag = 0, end_flag = 0. -/
  | xferC (bitLength : Nat) (out inBuf : List Byte)
  /-- XFER_E (R85, R176): begin_flag = 0, end_flag = 1. -/
  | xferE (bitLength : Nat) (out inBuf : List Byte)
  /-- WIRE_BEGIN (R97). -/
  | wireBegin
  /-- WIRE_END (R98). -/
  | wireEnd
  /-- WIRE_BYTE_UNSEL (R99): a BYTE event with D.sel = 0. -/
  | wireByteUnsel (mosi : Byte)
  /-- WIRE_BYTE_HDR (R100): a BYTE event with D.sel = 1 and D.hdr_cnt < 4. -/
  | wireByteHdr (mosi : Byte)
  /-- WIRE_BYTE_DATA_RD (R103): a BYTE event in the data phase of a read. -/
  | wireByteDataRd (mosi : Byte)
  /-- WIRE_BYTE_DATA_WR (R104): a BYTE event in the data phase of a write. -/
  | wireByteDataWr (mosi : Byte)
  /-- WIRE_BYTE_PAST (R105): a BYTE event past the declared length. -/
  | wireBytePast (mosi : Byte)
  /-- INIT (R142). -/
  | init
deriving DecidableEq, Repr

/-- Which of the five BYTE rows the device's state selects (R86: "The device state decides which rule
a BYTE takes"; the `when` fields of spec/opcode_table.json). -/
inductive ByteCase where
  /-- D.sel = 0. -/
  | unsel
  /-- D.sel = 1 and D.hdr_cnt < 4. -/
  | hdr
  /-- D.sel = 1, D.hdr_cnt = 4, D.offset < D.len, D.dir = read. -/
  | dataRd
  /-- D.sel = 1, D.hdr_cnt = 4, D.offset < D.len, D.dir = write. -/
  | dataWr
  /-- D.sel = 1, D.hdr_cnt = 4, D.offset ≥ D.len. -/
  | past
deriving DecidableEq, Repr

/-- An operation as it stands before decoding: the word of its format, of the format's own width
(R70), and the operands that the table gives no bits. -/
inductive Request where
  /-- HDR, 32 bits (R71). -/
  | hdr (word : BitVec 32)
  /-- ACC, 17 bits (R80); `value` is the data byte, ignored by a read (R103). -/
  | acc (word : BitVec 17) (value : Byte)
  /-- STSW, 8 bits (R83). -/
  | stsw (word : BitVec 8)
  /-- ACCW, 8 bits (R84). -/
  | accw (word : BitVec 8)
  /-- XFER, the 2-bit word of the two flags and the call's other arguments (R85). -/
  | xfer (word : BitVec 2) (bitLength : Nat) (out inBuf : List Byte)
  /-- WIRE and HOST, 10 bits (R86). -/
  | wire (word : BitVec 10)
deriving DecidableEq, Repr

/-- Why a request is no operation: an event word of R86 that carries a MOSI byte where R86 says
"mosi = 0 except for BYTE", so that it matches no row of the table. -/
inductive DecodeError where
  /-- Kind 0 (CS_BEGIN) with a MOSI byte. -/
  | beginWithMosi
  /-- Kind 2 (CS_END) with a MOSI byte. -/
  | endWithMosi
  /-- Kind 3 (INIT) with a MOSI byte. -/
  | initWithMosi
deriving DecidableEq, Repr

end Sys2Proof
end

