-- ==== Sys2Proof/WellFormed.lean ====
section
/-! DEFINITION. Which terms of `Instr` have a word: the address of a range row lies in the row's range,
and a call's record is one the host may give (R171). -/

namespace Sys2Proof

/-- The addresses of the FIFO rows (addr_lo and addr_hi of RD_FIFO and WR_FIFO). -/
def fifoAddr (a : Nat) : Bool := decide (0x0024 ≤ a ∧ a ≤ 0x0EFF)

/-- The 16-bit addresses that only the rows RD_UNKNOWN and WR_UNKNOWN match (R51, R81). -/
def unknownAddr (a : Nat) : Bool :=
  decide (a < 0x10000) && decide (a ≠ 0x0000) && decide (a / 4 ≠ 0x0008 / 4) &&
    decide (a / 4 ≠ 0x0014 / 4) && decide (a / 4 ≠ 0x0018 / 4) && !fifoAddr a &&
    decide (a / 4 ≠ 0x0F00 / 4) && decide (a ≠ 0x0F04)

/-- A call record the host may give (R171): a whole number of bytes, and both buffers hold them. -/
def callWellFormed (bitLength : Nat) (out inBuf : List Byte) : Bool :=
  decide (bitLength % 8 = 0) && decide (bitLength / 8 ≤ out.length) &&
    decide (bitLength / 8 ≤ inBuf.length)

/-- The terms that stand for an encoded operation. -/
def Instr.wellFormed : Instr → Bool
  | .hdrWrite _ _ _ _ | .hdrRead _ _ _ _ => true
  | .rdAccess | .rdInten _ | .rdCaps _ | .rdSts _ | .rdDidvid _ | .rdRid => true
  | .rdFifo a => fifoAddr a
  | .rdUnknown a => unknownAddr a
  | .wrAccess _ | .wrInten _ _ | .wrCaps _ _ | .wrSts0 _ | .wrDidvid _ _ | .wrRid _ => true
  | .wrStsHi k _ => decide (k ≠ 0)
  | .wrFifo a _ => fifoAddr a
  | .wrUnknown a _ => unknownAddr a
  | .stsAbort _ _ | .stsGo _ _ | .stsAbortGo _ _ | .stsNop _ _ => true
  | .accRequestUse _ _ | .accNop _ _ => true
  | .xferBE n out inBuf | .xferB n out inBuf => callWellFormed n out inBuf
  | .xferC n out inBuf | .xferE n out inBuf => callWellFormed n out inBuf
  | .wireBegin | .wireEnd => true
  | .wireByteUnsel _ | .wireByteHdr _ | .wireByteDataRd _ | .wireByteDataWr _ => true
  | .wireBytePast _ => true
  | .init => true

end Sys2Proof
end

