-- ==== Sys2Proof/Decode.lean ====
section
/-! DEFINITION. The decoder, from a request's bits to an instruction or a rejection by name; the
encoder, written from the same formats (R71, R80, R83 to R86); and the table's fixed bits. -/

namespace Sys2Proof

/-! ### Decoding -/

/-- The low two bits of an address: the byte index within a 4-byte register (R81). -/
def low2 (a : Nat) : BitVec 2 := BitVec.ofNat 2 a

/-- HDR (R71, R72): bit 31 selects the row, the other fields are cut at R71's positions. -/
def decodeHdr (w : BitVec 32) : Instr :=
  let rsv := w.extractLsb' 30 1
  let lenm1 := w.extractLsb' 24 6
  let marker := w.extractLsb' 16 8
  let addr := w.extractLsb' 0 16
  if w.getLsbD 31 then .hdrRead rsv lenm1 marker addr else .hdrWrite rsv lenm1 marker addr

/-- The read rows of ACC in the table's order, RD_UNKNOWN last (R81). A mask that leaves the two low
bits free is a comparison of the address divided by 4. -/
def readRow (a : Nat) : Instr :=
  if a = 0x0000 then .rdAccess
  else if a / 4 = 0x0008 / 4 then .rdInten (low2 a)
  else if a / 4 = 0x0014 / 4 then .rdCaps (low2 a)
  else if a / 4 = 0x0018 / 4 then .rdSts (low2 a)
  else if fifoAddr a then .rdFifo a
  else if a / 4 = 0x0F00 / 4 then .rdDidvid (low2 a)
  else if a = 0x0F04 then .rdRid
  else .rdUnknown a

/-- The write rows of ACC in the table's order, WR_UNKNOWN last (R81). -/
def writeRow (a : Nat) (v : Byte) : Instr :=
  if a = 0x0000 then .wrAccess v
  else if a / 4 = 0x0008 / 4 then .wrInten (low2 a) v
  else if a / 4 = 0x0014 / 4 then .wrCaps (low2 a) v
  else if a = 0x0018 then .wrSts0 v
  else if 0x0019 ≤ a ∧ a ≤ 0x001B then .wrStsHi (low2 a) v
  else if fifoAddr a then .wrFifo a v
  else if a / 4 = 0x0F00 / 4 then .wrDidvid (low2 a) v
  else if a = 0x0F04 then .wrRid v
  else .wrUnknown a v

/-- The row of one data-phase access (R80), at an address that may be a sum above 0xFFFF. -/
def accessRow (dir : Dir) (a : Nat) (v : Byte) : Instr :=
  match dir with
  | .read => readRow a
  | .write => writeRow a v

/-- ACC (R80): bit 16 is the direction, 1 for a read; bits 15:0 are the address. -/
def decodeAcc (w : BitVec 17) (v : Byte) : Instr :=
  accessRow (if w.getLsbD 16 then .read else .write) (w.extractLsb' 0 16).toNat v

/-- STSW (R83): bit 6 is abort, bit 5 is go, the rest is ignored. -/
def decodeStsw (v : BitVec 8) : Instr :=
  let b7 := v.extractLsb' 7 1
  let lo := v.extractLsb' 0 5
  match v.getLsbD 6, v.getLsbD 5 with
  | true, false => .stsAbort b7 lo
  | false, true => .stsGo b7 lo
  | true, true => .stsAbortGo b7 lo
  | false, false => .stsNop b7 lo

/-- ACCW (R84): bit 1 is request-use, the rest is ignored. -/
def decodeAccw (v : BitVec 8) : Instr :=
  let hi := v.extractLsb' 2 6
  let b0 := v.extractLsb' 0 1
  if v.getLsbD 1 then .accRequestUse hi b0 else .accNop hi b0

/-- XFER (R85): the 2-bit word of begin_flag (bit 1) and end_flag (bit 0). -/
def decodeXfer (w : BitVec 2) (bitLength : Nat) (out inBuf : List Byte) : Instr :=
  match w.getLsbD 1, w.getLsbD 0 with
  | true, true => .xferBE bitLength out inBuf
  | true, false => .xferB bitLength out inBuf
  | false, false => .xferC bitLength out inBuf
  | false, true => .xferE bitLength out inBuf

/-- The BYTE row that the device's state selects (R86). -/
def decodeByte (bc : ByteCase) (mosi : Byte) : Instr :=
  match bc with
  | .unsel => .wireByteUnsel mosi
  | .hdr => .wireByteHdr mosi
  | .dataRd => .wireByteDataRd mosi
  | .dataWr => .wireByteDataWr mosi
  | .past => .wireBytePast mosi

/-- WIRE and HOST (R86): bits 9:8 are the event's kind, bits 7:0 the MOSI byte, which is 0 except
for BYTE. -/
def decodeWire (bc : ByteCase) (w : BitVec 10) : Except DecodeError Instr :=
  let mosi : Byte := w.extractLsb' 0 8
  match w.getLsbD 9, w.getLsbD 8 with
  | false, false => if mosi = 0 then .ok .wireBegin else .error .beginWithMosi
  | false, true => .ok (decodeByte bc mosi)
  | true, false => if mosi = 0 then .ok .wireEnd else .error .endWithMosi
  | true, true => if mosi = 0 then .ok .init else .error .initWithMosi

/-- The decoder: total, and a rejection has a name. `bc` is the device's state as far as R86 lets it
select the row of a BYTE word; no other word's decoding depends on it. -/
def decode (bc : ByteCase) (r : Request) : Except DecodeError Instr :=
  match r with
  | .hdr w => .ok (decodeHdr w)
  | .acc w v => .ok (decodeAcc w v)
  | .stsw w => .ok (decodeStsw w)
  | .accw w => .ok (decodeAccw w)
  | .xfer w n out inBuf => .ok (decodeXfer w n out inBuf)
  | .wire w => decodeWire bc w

/-! ### Encoding -/

/-- The header word of R71, first wire byte most significant. -/
def hdrWord (dir : Dir) (rsv : BitVec 1) (lenm1 : BitVec 6) (marker : Byte) (addr : BitVec 16) :
    BitVec 32 :=
  (match dir with | .read => 1#1 | .write => 0#1) ++ rsv ++ lenm1 ++ marker ++ addr

/-- The 17-bit access word of R80. -/
def accWord (dir : Dir) (a : Nat) : BitVec 17 :=
  (match dir with | .read => 1#1 | .write => 0#1) ++ BitVec.ofNat 16 a

/-- The status value of R83, from its ignored bits and its two requests. -/
def stswWord (b7 abort go : BitVec 1) (lo : BitVec 5) : BitVec 8 := b7 ++ abort ++ go ++ lo

/-- The access value of R84, from its ignored bits and the request-use bit. -/
def accwWord (hi : BitVec 6) (requestUse b0 : BitVec 1) : BitVec 8 := hi ++ requestUse ++ b0

/-- The event word of R86. -/
def wireWord (kind : BitVec 2) (mosi : Byte) : BitVec 10 := kind ++ mosi

/-- The encoder: the request of an instruction, from the formats' layouts. -/
def encode : Instr → Request
  | .hdrWrite rsv lenm1 marker addr => .hdr (hdrWord .write rsv lenm1 marker addr)
  | .hdrRead rsv lenm1 marker addr => .hdr (hdrWord .read rsv lenm1 marker addr)
  | .rdAccess => .acc (accWord .read 0x0000) 0
  | .rdInten k => .acc (accWord .read (0x0008 + k.toNat)) 0
  | .rdCaps k => .acc (accWord .read (0x0014 + k.toNat)) 0
  | .rdSts k => .acc (accWord .read (0x0018 + k.toNat)) 0
  | .rdFifo a => .acc (accWord .read a) 0
  | .rdDidvid k => .acc (accWord .read (0x0F00 + k.toNat)) 0
  | .rdRid => .acc (accWord .read 0x0F04) 0
  | .wrAccess v => .acc (accWord .write 0x0000) v
  | .wrInten k v => .acc (accWord .write (0x0008 + k.toNat)) v
  | .wrCaps k v => .acc (accWord .write (0x0014 + k.toNat)) v
  | .wrSts0 v => .acc (accWord .write 0x0018) v
  | .wrStsHi k v => .acc (accWord .write (0x0018 + k.toNat)) v
  | .wrFifo a v => .acc (accWord .write a) v
  | .wrDidvid k v => .acc (accWord .write (0x0F00 + k.toNat)) v
  | .wrRid v => .acc (accWord .write 0x0F04) v
  | .rdUnknown a => .acc (accWord .read a) 0
  | .wrUnknown a v => .acc (accWord .write a) v
  | .stsAbort b7 lo => .stsw (stswWord b7 1 0 lo)
  | .stsGo b7 lo => .stsw (stswWord b7 0 1 lo)
  | .stsAbortGo b7 lo => .stsw (stswWord b7 1 1 lo)
  | .stsNop b7 lo => .stsw (stswWord b7 0 0 lo)
  | .accRequestUse hi b0 => .accw (accwWord hi 1 b0)
  | .accNop hi b0 => .accw (accwWord hi 0 b0)
  | .xferBE n out inBuf => .xfer 3 n out inBuf
  | .xferB n out inBuf => .xfer 2 n out inBuf
  | .xferC n out inBuf => .xfer 0 n out inBuf
  | .xferE n out inBuf => .xfer 1 n out inBuf
  | .wireBegin => .wire (wireWord 0 0)
  | .wireEnd => .wire (wireWord 2 0)
  | .wireByteUnsel mosi => .wire (wireWord 1 mosi)
  | .wireByteHdr mosi => .wire (wireWord 1 mosi)
  | .wireByteDataRd mosi => .wire (wireWord 1 mosi)
  | .wireByteDataWr mosi => .wire (wireWord 1 mosi)
  | .wireBytePast mosi => .wire (wireWord 1 mosi)
  | .init => .wire (wireWord 3 0)

/-- The device states in which an instruction's word decodes to that instruction: one of the five for
a BYTE row, any for the others (R86). -/
def Instr.fitsCase : Instr → ByteCase → Bool
  | .wireByteUnsel _, bc => bc = .unsel
  | .wireByteHdr _, bc => bc = .hdr
  | .wireByteDataRd _, bc => bc = .dataRd
  | .wireByteDataWr _, bc => bc = .dataWr
  | .wireBytePast _, bc => bc = .past
  | _, _ => true

/-! ### The table -/

/-- A row's width and fixed bits (spec/opcode_table.json: width, match, mask). -/
structure Row where
  width : Nat
  mtch : Nat
  mask : Nat
deriving DecidableEq, Repr

/-- The row of spec/opcode_table.json that a constructor stands for. -/
def tableRow : Instr → Row
  | .hdrWrite _ _ _ _ => ⟨32, 0x00000000, 0x80000000⟩
  | .hdrRead _ _ _ _ => ⟨32, 0x80000000, 0x80000000⟩
  | .rdAccess => ⟨17, 0x10000, 0x1FFFF⟩
  | .rdInten _ => ⟨17, 0x10008, 0x1FFFC⟩
  | .rdCaps _ => ⟨17, 0x10014, 0x1FFFC⟩
  | .rdSts _ => ⟨17, 0x10018, 0x1FFFC⟩
  | .rdFifo _ => ⟨17, 0x10000, 0x10000⟩
  | .rdDidvid _ => ⟨17, 0x10F00, 0x1FFFC⟩
  | .rdRid => ⟨17, 0x10F04, 0x1FFFF⟩
  | .wrAccess _ => ⟨17, 0x00000, 0x1FFFF⟩
  | .wrInten _ _ => ⟨17, 0x00008, 0x1FFFC⟩
  | .wrCaps _ _ => ⟨17, 0x00014, 0x1FFFC⟩
  | .wrSts0 _ => ⟨17, 0x00018, 0x1FFFF⟩
  | .wrStsHi _ _ => ⟨17, 0x00000, 0x10000⟩
  | .wrFifo _ _ => ⟨17, 0x00000, 0x10000⟩
  | .wrDidvid _ _ => ⟨17, 0x00F00, 0x1FFFC⟩
  | .wrRid _ => ⟨17, 0x00F04, 0x1FFFF⟩
  | .rdUnknown _ => ⟨17, 0x10000, 0x10000⟩
  | .wrUnknown _ _ => ⟨17, 0x00000, 0x10000⟩
  | .stsAbort _ _ => ⟨8, 0x40, 0x60⟩
  | .stsGo _ _ => ⟨8, 0x20, 0x60⟩
  | .stsAbortGo _ _ => ⟨8, 0x60, 0x60⟩
  | .stsNop _ _ => ⟨8, 0x00, 0x60⟩
  | .accRequestUse _ _ => ⟨8, 0x02, 0x02⟩
  | .accNop _ _ => ⟨8, 0x00, 0x02⟩
  | .xferBE _ _ _ => ⟨2, 0b11, 0b11⟩
  | .xferB _ _ _ => ⟨2, 0b10, 0b11⟩
  | .xferC _ _ _ => ⟨2, 0b00, 0b11⟩
  | .xferE _ _ _ => ⟨2, 0b01, 0b11⟩
  | .wireBegin => ⟨10, 0x000, 0x3FF⟩
  | .wireEnd => ⟨10, 0x200, 0x3FF⟩
  | .wireByteUnsel _ => ⟨10, 0x100, 0x300⟩
  | .wireByteHdr _ => ⟨10, 0x100, 0x300⟩
  | .wireByteDataRd _ => ⟨10, 0x100, 0x300⟩
  | .wireByteDataWr _ => ⟨10, 0x100, 0x300⟩
  | .wireBytePast _ => ⟨10, 0x100, 0x300⟩
  | .init => ⟨10, 0x300, 0x3FF⟩

/-- A request's width in bits. -/
def Request.width : Request → Nat
  | .hdr _ => 32
  | .acc _ _ => 17
  | .stsw _ => 8
  | .accw _ => 8
  | .xfer _ _ _ _ => 2
  | .wire _ => 10

/-- The direction and the 16-bit address of the data-phase access that a request stands for: an ACC
word names both (R80), a STSW value is a byte written to 0x0018 (R83), an ACCW value a byte written to
0x0000 (R84). The other requests are no access. -/
def Request.access : Request → Option (Dir × BitVec 16)
  | .hdr _ => none
  | .acc w _ => some (if w.getLsbD 16 then .read else .write, w.extractLsb' 0 16)
  | .stsw _ => some (.write, 0x0018)
  | .accw _ => some (.write, 0x0000)
  | .xfer _ _ _ _ => none
  | .wire _ => none

/-- A request's word as a number. -/
def Request.bits : Request → Nat
  | .hdr w => w.toNat
  | .acc w _ => w.toNat
  | .stsw w => w.toNat
  | .accw w => w.toNat
  | .xfer w _ _ _ => w.toNat
  | .wire w => w.toNat

/-! ### A bare word of the table -/

/-- The request that a bare word of the table stands for, its other operands empty or zero. The
width tells the format, but for the three formats of at most 8 bits: there a word below 4 is read as
XFER's 2-bit word, a word with a request bit of R83 as STSW, any other as ACCW (log 8). -/
def Request.ofTableWord (nbits w : Nat) : Option Request :=
  if nbits ≤ 8 then
    if w < 4 then some (.xfer (BitVec.ofNat 2 w) 0 [] [])
    else if w &&& 0x60 ≠ 0 then some (.stsw (BitVec.ofNat 8 w))
    else some (.accw (BitVec.ofNat 8 w))
  else if nbits ≤ 16 then some (.wire (BitVec.ofNat 10 w))
  else if nbits ≤ 24 then some (.acc (BitVec.ofNat 17 w) 0)
  else if nbits ≤ 32 then some (.hdr (BitVec.ofNat 32 w))
  else none

/-- What the decoder reads from a bare word of the table, the device as reset leaves it
(deselected, so that a BYTE word is the row WIRE_BYTE_UNSEL; log 8). -/
def decodeTableWord (nbits w : Nat) : Option Instr :=
  match Request.ofTableWord nbits w with
  | none => none
  | some r =>
    match decode .unsel r with
    | .ok i => some i
    | .error _ => none

end Sys2Proof
end

