-- ==== Sys2Proof/Machine/State.lean ====
section
/-! DEFINITION. The state of the block as plain data (10_state.md), the reasons a step can stop, and the
state after reset (R42, R225, R226). -/

namespace Sys2Proof.Machine

/-- Why the machine stops with a fault. -/
inductive Fault where
  /-- Raised by `step` alone, when the host's next request is an event word that matches no row of
  the table (R86; log 14). Safe: the wire has no such event. -/
  | undecodable (e : DecodeError)
deriving DecidableEq, Repr

/-- Why an operation is given no meaning. -/
inductive Refusal where
  /-- Raised by an arm of `exec` whose instruction has no meaning yet. Safe. No arm raises it. -/
  | notModelled (mnemonic : String)
  /-- Raised by the XFER rows: bit_length is not a multiple of 8 (R171, "refuse(BadBitLength)").
  Safe: the host must not make such a call. -/
  | badBitLength (bitLength : Nat)
  /-- Raised by the XFER rows: a call is running (R185, "a model refuses an overlapping call"). Safe. -/
  | overlappingCall
  /-- Raised by the XFER rows: out or in holds fewer than n bytes (R171, D35, U16). Safe: such calls
  are outside the model. -/
  | shortBuffer
deriving DecidableEq, Repr

/-- The command state (R23). -/
inductive CmdState where
  | idle
  | ready
  | reception
  | execution
  | completion
deriving DecidableEq, Repr

/-- The four header bytes D.hdr[0..3] (R32). -/
structure HdrBytes where
  b0 : Byte
  b1 : Byte
  b2 : Byte
  b3 : Byte
deriving DecidableEq, Repr

/-- The TIS device's state (10_state.md §2). -/
@[ext] structure Device where
  /-- D.state (R23). -/
  state : CmdState
  /-- D.cmd_ready (R24). -/
  cmdReady : Bool
  /-- D.data_avail (R25). -/
  dataAvail : Bool
  /-- D.data_expect (R26). -/
  dataExpect : Bool
  /-- D.burst (R27). -/
  burst : Byte
  /-- D.access (R28). -/
  access : Byte
  /-- D.cmd (R29); D.cmd_len is its length. -/
  cmd : List Byte
  /-- D.rsp (R31); D.rsp_len is its length. -/
  rsp : List Byte
  /-- D.rsp_cursor (R31). -/
  rspCursor : Nat
  /-- D.sel (R32). -/
  sel : Bool
  /-- D.hdr[0..3] (R32). -/
  hdr : HdrBytes
  /-- D.hdr_cnt (R32). -/
  hdrCnt : Nat
  /-- D.dir (R33). -/
  dir : Dir
  /-- D.len (R33). -/
  len : Nat
  /-- D.addr (R33). -/
  addr : BitVec 16
  /-- D.offset (R33). -/
  offset : Nat
deriving DecidableEq, Repr

/-- Where a running call stands in the algorithm of R176: which sequencer step of R188 comes next. -/
inductive Phase where
  /-- Begin (R172) is due. -/
  | start
  /-- An iteration of the transmit wait (R177) is due. -/
  | transmit
  /-- An iteration of the done wait (R178) is due. -/
  | doneWait
  /-- The residual drain (R179) is due. -/
  | residual
  /-- End, where the call asks for it, and the return with Ok (R180) are due. -/
  | finish
  /-- TimeoutExit (R181) is due. -/
  | timeout
deriving DecidableEq, Repr

/-- A running call (R37): the per-call sequencer state, which exists only while a call runs, and
the call's arguments. -/
@[ext] structure Call where
  phase : Phase
  /-- end_flag (R85). -/
  endFlag : Bool
  /-- E.n (R37). -/
  n : Nat
  /-- E.i (R37). -/
  i : Nat
  /-- E.j (R37). -/
  j : Nat
  /-- E.cnt (R37, R187). -/
  cnt : Nat
  /-- The caller's out[] (R38). -/
  out : List Byte
  /-- The caller's in[], as far as the call has written it (R38, R184). -/
  inBuf : List Byte
deriving DecidableEq, Repr

/-- The engine's state (10_state.md §3). -/
@[ext] structure Engine where
  /-- E.cs (R35). -/
  cs : Bool
  /-- E.txq, oldest byte first (R36). -/
  txq : List Byte
  /-- E.rxq, oldest byte first (R36). -/
  rxq : List Byte
  /-- The running call, if one runs (R37: "has no value between calls"). -/
  call : Option Call
deriving DecidableEq, Repr

/-- The status of a call (R170, R201). -/
inductive Status where
  | ok
  | timeout
deriving DecidableEq, Repr

/-- What the last operation answered (log 12). -/
inductive Reply where
  /-- The operation answers nothing, or none has answered yet. -/
  | silent
  /-- The miso bytes of a wire operation in order (R95), or the byte of a register read (R117). -/
  | bytes (bs : List Byte)
  /-- A call's return (R170): the status, how many received bytes are valid in in[] (E.j, R181), and
  the caller's in[]. -/
  | transfer (status : Status) (received : Nat) (inBuf : List Byte)
deriving DecidableEq, Repr

/-- The machine's state: the device, the engine, and the model's own fields (INVENTORY.md, State). -/
@[ext]
structure State where
  /-- D.*, owned by the TIS device (R22). -/
  dev : Device
  /-- E.*, owned by the engine (R22). -/
  eng : Engine
  /-- The operations the host will issue, next one first (log 5). -/
  host : List Request
  /-- What the last operation answered (log 12). -/
  reply : Reply
  /-- How many MISO_IDLE draws were made (log 2). -/
  misoDraws : Nat
  /-- How many draws of the shifter schedule were made (log 3). -/
  schedDraws : Nat
deriving DecidableEq, Repr

/-! ### Named updates -/

/-- The state with another device. -/
def State.setDev (s : State) (d : Device) : State := { s with dev := d }

/-- The state with another engine. -/
def State.setEng (s : State) (e : Engine) : State := { s with eng := e }

/-- The state with other operations left to issue. -/
def State.setHost (s : State) (h : List Request) : State := { s with host := h }

/-- The state with another answer. -/
def State.setReply (s : State) (r : Reply) : State := { s with reply := r }

/-- The state after one MISO_IDLE draw. -/
def State.countMiso (s : State) : State := { s with misoDraws := s.misoDraws + 1 }

/-- The state after one draw of the shifter schedule. -/
def State.countSched (s : State) : State := { s with schedDraws := s.schedDraws + 1 }

/-! ### Reset -/

/-- The device after DeviceReset (R225). The five parser fields that R225 gives no value hold a value
of the model's own (log 4): no operation reads them before a header has been received. -/
def Device.reset : Device where
  state := .idle
  cmdReady := false
  dataAvail := false
  dataExpect := false
  burst := Config.hw.burstDefault
  access := 0x00
  cmd := []
  rsp := []
  rspCursor := 0
  sel := false
  hdr := ⟨0, 0, 0, 0⟩
  hdrCnt := 0
  dir := .write
  len := 1
  addr := 0
  offset := 0

/-- The engine after reset (R226). -/
def Engine.reset : Engine where
  cs := false
  txq := []
  rxq := []
  call := none

/-- The machine right after reset (R42, R225, R226); nothing is left to issue, nothing has answered
and nothing has been drawn (log 2, 3, 5, 12). -/
def State.reset : State where
  dev := Device.reset
  eng := Engine.reset
  host := []
  reply := .silent
  misoDraws := 0
  schedDraws := 0

end Sys2Proof.Machine
end

