-- ==== Sys2Proof/Machine/Operands.lean ====
section
/-! DEFINITION. The operand forms: byte order, header fields, the register map, the BYTE rows'
conditions (20_memory.md, 30_encoding.md, 41_register_file.md §1). -/

namespace Sys2Proof.Machine

/-- be16 (R12). -/
def be16 (a b : Byte) : BitVec 16 := a ++ b

/-- be32 (R12). -/
def be32 (a b c d : Byte) : Word32 := a ++ b ++ c ++ d

/-- Bits 8k+7:8k of a register's 32-bit value, the byte at base + k (R53). -/
def leByte (w : Word32) (k : BitVec 2) : Byte := w.extractLsb' (8 * k.toNat) 8

/-- The four wire bytes of a header word, first byte most significant (R71). -/
def headerBytes (w : Word32) : List Byte :=
  [w.extractLsb' 24 8, w.extractLsb' 16 8, w.extractLsb' 8 8, w.extractLsb' 0 8]

/-- The fields of a header that the device keeps (R101). -/
structure Header where
  dir : Dir
  len : Nat
  addr : BitVec 16
deriving DecidableEq, Repr

/-- decode(h0, h1, h2, h3) (R78): byte 1 and bit 6 of byte 0 are not used (R73, R76). -/
def decodeHeader (h0 _h1 h2 h3 : Byte) : Header where
  dir := if h0.getLsbD 7 then .read else .write
  len := (h0 &&& 0x3F).toNat + 1
  addr := be16 h2 h3

/-- D.hdr[k] <- b (R100). An index past 3 names no byte. -/
def HdrBytes.set (h : HdrBytes) (k : Nat) (b : Byte) : HdrBytes :=
  match k with
  | 0 => { h with b0 := b }
  | 1 => { h with b1 := b }
  | 2 => { h with b2 := b }
  | 3 => { h with b3 := b }
  | _ => h

/-- The regions of the register map (R115). -/
inductive Region where
  | access
  | inten
  | caps (k : BitVec 2)
  | sts (k : BitVec 2)
  | fifo
  | didvid (k : BitVec 2)
  | rid
  /-- NONE. -/
  | unmapped
deriving DecidableEq, Repr

/-- Decode(a), the first matching row of R115's table, on the whole address (R116). -/
def decodeAddr (a : Nat) : Region :=
  if a = 0x0000 then .access
  else if 0x0008 ≤ a ∧ a ≤ 0x000B then .inten
  else if 0x0014 ≤ a ∧ a ≤ 0x0017 then .caps (BitVec.ofNat 2 (a - 0x0014))
  else if 0x0018 ≤ a ∧ a ≤ 0x001B then .sts (BitVec.ofNat 2 (a - 0x0018))
  else if 0x0024 ≤ a ∧ a ≤ 0x0EFF then .fifo
  else if 0x0F00 ≤ a ∧ a ≤ 0x0F03 then .didvid (BitVec.ofNat 2 (a - 0x0F00))
  else if a = 0x0F04 then .rid
  else .unmapped

/-- The address of the next data-phase access: D.addr + D.offset, without wrap (R103, R104). -/
def Device.accessAddr (d : Device) : Nat := d.addr.toNat + d.offset

/-- The BYTE row that the device's state selects (R99, R100; the `when` fields of the table). -/
def Device.byteCase (d : Device) : ByteCase :=
  if d.sel = false then .unsel
  else if d.hdrCnt < 4 then .hdr
  else if d.offset < d.len then (match d.dir with | .read => .dataRd | .write => .dataWr)
  else .past

end Sys2Proof.Machine
end

