-- ==== Sys2Proof/Machine/Flags.lean ====
section
/-! DEFINITION. The status and access registers' bits, and the encodings of the small enumerations
(R23, R119, R120, R201). The bit positions are named constants, as D16 asks. -/

namespace Sys2Proof.Machine

/-- Status bit 7, valid (R120; GK1, log 15). -/
def stsValid : Byte := 0x80
/-- Status bit 6: command-ready when read, abort when written (R120). -/
def stsCmdReady : Byte := 0x40
/-- Status bit 5: go, a request when written (R120). -/
def stsGo : Byte := 0x20
/-- Status bit 4, data-available (R120; GK1, log 15). -/
def stsDataAvail : Byte := 0x10
/-- Status bit 3, data-expect (R120; GK1, log 15). -/
def stsDataExpect : Byte := 0x08

/-- The access bits a grant sets: valid, bit 7, and active-locality, bit 5 (R119, R124; GK2, log 16). -/
def accGranted : Byte := 0xA0
/-- Access bit 1, request-use (R84; GK2, log 16). -/
def accRequestUseBit : Byte := 0x02

/-- A flag's contribution to a status byte. -/
def flagBit (on : Bool) (bit : Byte) : Byte := if on then bit else 0

/-- Status bits 7:0 (R120): valid reads 1, go reads 0, bits 2:0 read 0. -/
def Device.statusFlags (d : Device) : Byte :=
  stsValid ||| flagBit d.cmdReady stsCmdReady ||| flagBit d.dataAvail stsDataAvail
    ||| flagBit d.dataExpect stsDataExpect

/-- pack() (R120): bits 31:16 read 0, bits 15:8 are the burst count. -/
def Device.pack (d : Device) : Word32 := (0 : BitVec 16) ++ d.burst ++ d.statusFlags

/-- Whether a value has any of the bits of a mask. -/
def hasBit (v bit : Byte) : Bool := decide (v &&& bit ≠ 0)

/-- The stored encoding of D.state (R23). -/
def CmdState.code : CmdState → BitVec 3
  | .idle => 0
  | .ready => 1
  | .reception => 2
  | .execution => 3
  | .completion => 4

/-- The status code of a call (R201). -/
def Status.code : Status → BitVec 1
  | .ok => 0
  | .timeout => 1

end Sys2Proof.Machine
end

