-- ==== Sys2Proof/Machine/Ops.lean ====
section
/-! DEFINITION. The named operations of the block, each once: the command state machine and its buffers
(42_state_machine.md), the register file (41_register_file.md), the framing parser
(40_framing_parser.md), the shift engine and its timeout exit (43_shift_engine.md), and the fetch of
the host's next request. `P` are the parameters of R7, `F` the draws of R8. -/

namespace Sys2Proof.Machine

/-! ### Command buffer and completion (R146 to R148) -/

/-- decl(cmd) (R30, R147): big-endian from bytes 2 to 5, once 6 bytes are present. -/
def declaredLength (cmd : List Byte) : Option Word32 :=
  match cmd with
  | _ :: _ :: b2 :: b3 :: b4 :: b5 :: _ => some (be32 b2 b3 b4 b5)
  | _ => none

/-- Complete() (R148). -/
def commandComplete (cmd : List Byte) : Bool :=
  match declaredLength cmd with
  | some n => decide (n.toNat ≤ cmd.length)
  | none => false

/-- CheckComplete() (R148). -/
def Device.checkComplete (d : Device) : Device :=
  if commandComplete d.cmd then { d with dataExpect := false } else d

/-- Append(b) (R146): no effect at capacity, the BufferOverflow of R207. -/
def Device.append (P : Params) (d : Device) (b : Byte) : Device :=
  if d.cmd.length = P.cmdCapacity then d
  else Device.checkComplete { d with cmd := d.cmd ++ [b] }

/-- StartReception(b) (R144). -/
def Device.startReception (P : Params) (d : Device) (b : Byte) : Device :=
  Device.append P { d with cmd := [], dataExpect := true, cmdReady := false, state := .reception } b

/-- FifoWrite(b) (R143, R145, R149). -/
def Device.fifoWrite (P : Params) (d : Device) (b : Byte) : Device :=
  match d.state with
  | .ready => d.startReception P b
  | .reception => if d.dataExpect then d.append P b else d
  | .idle => d
  | .execution => d
  | .completion => d

/-! ### Probe, execution, abort, drain (R142, R150 to R155) -/

/-- Init() (R142). -/
def Device.probe (d : Device) : Device :=
  match d.state with
  | .idle => { d with state := .ready, cmdReady := true }
  | _ => d

/-- The first half of an accepted go: D.state <- Execution (R150, R151). -/
def Device.enterExecution (d : Device) : Device := { d with state := .execution }

/-- The second half of an accepted go: the responder's answer and the move to Completion (R150). -/
def Device.finishExecution (P : Params) (d : Device) : Device :=
  { d with
    rsp := P.respond d.cmd
    rspCursor := 0
    state := .completion
    dataAvail := true
    dataExpect := false }

/-- Go() (R150): the guard of C1, Reception with a complete command. -/
def Device.go (P : Params) (d : Device) : Device :=
  if d.state = .reception ∧ commandComplete d.cmd = true then d.enterExecution.finishExecution P
  else d

/-- Abort() (R152). -/
def Device.abort (P : Params) (d : Device) : Device :=
  { d with
    cmd := []
    rsp := []
    rspCursor := 0
    state := .ready
    burst := P.burstDefault
    cmdReady := true
    dataAvail := false
    dataExpect := false }

/-- Drained() (R155). -/
def Device.drained (d : Device) : Device :=
  { d with state := .ready, dataAvail := false, cmdReady := true, rsp := [], rspCursor := 0 }

/-- The sentinel byte of an unknown read and of a FIFO read with nothing to give (R14). -/
def sentinel : Byte := 0xFF

/-- FifoRead() (R154): the device after the read, and the byte it returns. -/
def Device.fifoRead (d : Device) : Device × Byte :=
  match d.state, d.rsp[d.rspCursor]? with
  | .completion, some b =>
    if d.rspCursor + 1 = d.rsp.length then (Device.drained { d with rspCursor := d.rspCursor + 1 }, b)
    else ({ d with rspCursor := d.rspCursor + 1 }, b)
  | _, _ => (d, sentinel)

/-! ### Registers (R117 to R124) -/

/-- StsRead(k) (R121): computed from the state at the moment of the access. -/
def Device.stsRead (d : Device) (k : BitVec 2) : Byte := leByte d.pack k

/-- StsWrite0(v) (R122, R153): abort acts before go. -/
def Device.stsWrite0 (P : Params) (d : Device) (v : Byte) : Device :=
  let d1 := if hasBit v stsCmdReady then d.abort P else d
  if hasBit v stsGo then d1.go P else d1

/-- The effect of a request-use (R124). -/
def Device.grant (d : Device) : Device := { d with access := d.access ||| accGranted }

/-- AccessWrite(v) (R124). -/
def Device.accessWrite (d : Device) (v : Byte) : Device :=
  if hasBit v accRequestUseBit then d.grant else d

/-- MemRead(a, 1) (R117): the device after the read, and the byte it returns. -/
def Device.memRead (P : Params) (d : Device) (a : Nat) : Device × Byte :=
  match decodeAddr a with
  | .access => (d, d.access)
  | .sts k => (d, d.stsRead k)
  | .caps k => (d, leByte P.intfCaps k)
  | .didvid k => (d, leByte P.didVid k)
  | .rid => (d, P.rid)
  | .fifo => d.fifoRead
  | .inten => (d, sentinel)
  | .unmapped => (d, sentinel)

/-- MemWrite(a, 1, v) (R118). -/
def Device.memWrite (P : Params) (d : Device) (a : Nat) (v : Byte) : Device :=
  match decodeAddr a with
  | .access => d.accessWrite v
  | .sts k => if k = 0 then d.stsWrite0 P v else d
  | .fifo => d.fifoWrite P v
  | .caps _ => d
  | .didvid _ => d
  | .rid => d
  | .inten => d
  | .unmapped => d

/-! ### The framing parser (R97 to R105) -/

/-- CS_BEGIN (R97). -/
def Device.csBegin (d : Device) : Device := { d with sel := true, hdrCnt := 0 }

/-- CS_END (R98). -/
def Device.csEnd (d : Device) : Device := { d with sel := false, hdrCnt := 0 }

/-- HeaderDecode() (R101). -/
def Device.headerDecode (d : Device) : Device :=
  let h := decodeHeader d.hdr.b0 d.hdr.b1 d.hdr.b2 d.hdr.b3
  { d with dir := h.dir, len := h.len, addr := h.addr, offset := 0 }

/-- The miso of a header byte (R102): the ready marker with the fourth, the fill byte before. -/
def headerMiso (P : Params) (hdrCnt : Nat) : Byte :=
  if hdrCnt = 3 then P.readyMarker else P.fillByte

/-- The header phase of BYTE (R100). -/
def Device.headerByte (P : Params) (d : Device) (mosi : Byte) : Device × Byte :=
  let d1 := { d with hdr := d.hdr.set d.hdrCnt mosi, hdrCnt := d.hdrCnt + 1 }
  (if d.hdrCnt + 1 = 4 then d1.headerDecode else d1, headerMiso P d.hdrCnt)

/-- D.offset <- D.offset + 1 (R100). -/
def Device.bumpOffset (d : Device) : Device := { d with offset := d.offset + 1 }

/-- A data byte of a read transaction (R100, R103); the MOSI byte is ignored. -/
def Device.dataRead (P : Params) (d : Device) : Device × Byte :=
  let r := d.memRead P d.accessAddr
  (r.1.bumpOffset, r.2)

/-- A data byte of a write transaction (R100, R104). -/
def Device.dataWrite (P : Params) (d : Device) (mosi : Byte) : Device × Byte :=
  ((d.memWrite P d.accessAddr mosi).bumpOffset, P.fillByte)

/-- A byte past the declared length (R100, R105). -/
def Device.pastByte (P : Params) (d : Device) : Device × Byte := (d.bumpOffset, P.fillByte)

/-- BYTE while selected (R100). -/
def Device.byte (P : Params) (d : Device) (mosi : Byte) : Device × Byte :=
  if d.hdrCnt < 4 then d.headerByte P mosi
  else if d.offset < d.len then
    (match d.dir with | .read => d.dataRead P | .write => d.dataWrite P mosi)
  else d.pastByte P

/-! ### The wire (R95) -/

/-- Wire.begin() (R97). -/
def State.wireBegin (s : State) : State := s.setDev s.dev.csBegin

/-- Wire.end() (R98). -/
def State.wireEnd (s : State) : State := s.setDev s.dev.csEnd

/-- Wire.byte(mosi) -> miso (R99, R100): the state after the exchange, and the miso. -/
def State.wireByte (P : Params) (F : Draws) (s : State) (mosi : Byte) : State × Byte :=
  if s.dev.sel then (s.setDev (s.dev.byte P mosi).1, (s.dev.byte P mosi).2)
  else (s.countMiso, F.misoIdle s.misoDraws)

/-- BYTE events one after another (R61), and their miso bytes in order. -/
def State.wireBytes (P : Params) (F : Draws) (s : State) : List Byte → State × List Byte
  | [] => (s, [])
  | b :: bs =>
    let r := s.wireByte P F b
    let t := State.wireBytes P F r.1 bs
    (t.1, r.2 :: t.2)

/-! ### The shift stage (R174, R175) -/

/-- tx_ready (R175). -/
def Engine.txReady (P : Params) (e : Engine) : Bool := decide (e.txq.length < P.fifoDepth)

/-- done (R175). -/
def Engine.done (e : Engine) : Bool := e.txq.isEmpty

/-- ShifterStep() where it is enabled, nothing where it is not (R174). -/
def State.shifterStep (P : Params) (F : Draws) (s : State) : State :=
  match s.eng.txq with
  | [] => s
  | b :: q =>
    if s.eng.rxq.length < P.fifoDepth then
      let r := s.wireByte P F b
      r.1.setEng { r.1.eng with txq := q, rxq := r.1.eng.rxq ++ [r.2] }
    else s

/-- Up to `k` shifter steps (R188); a disabled shifter waits (R174). -/
def State.shifterSteps (P : Params) (F : Draws) (s : State) : Nat → State
  | 0 => s
  | k + 1 => State.shifterSteps P F (s.shifterStep P F) k

/-- The shifter's turn between two sequencer steps (R188): a free number of steps, one draw. With
an empty E.txq it is disabled whatever the draw. -/
def State.shifterTurn (P : Params) (F : Draws) (s : State) : State :=
  let t := s.countSched
  match s.eng.txq with
  | [] => t
  | _ :: _ => t.shifterSteps P F (F.shifterSteps s.schedDraws)

/-! ### The sequencer (R172 to R181, R188) -/

/-- DrainRx() (R176) on the receive queue `rxq`, with `room` bytes still to receive and in[] from
index `j`: the queue left, the new E.j, and in[]. -/
def drainLoop (rxq : List Byte) (room j : Nat) (inBuf : List Byte) : List Byte × Nat × List Byte :=
  match rxq, room with
  | b :: q, room + 1 => drainLoop q room (j + 1) (inBuf.set j b)
  | q, _ => (q, j, inBuf)

/-- The running call after DrainRx() (R176). -/
def Call.drain (c : Call) (rxq : List Byte) : Call :=
  let r := drainLoop rxq (c.n - c.j) c.j c.inBuf
  { c with j := r.2.1, inBuf := r.2.2 }

/-- The receive queue after DrainRx() (R176). -/
def Call.drainedQueue (c : Call) (rxq : List Byte) : List Byte :=
  (drainLoop rxq (c.n - c.j) c.j c.inBuf).1

/-- DrainRx() (R176) for the running call `c`, which the engine then holds. -/
def State.drainRx (s : State) (c : Call) : State :=
  s.setEng { s.eng with rxq := c.drainedQueue s.eng.rxq, call := some (c.drain s.eng.rxq) }

/-- Begin() (R172). -/
def State.engineBegin (s : State) : State :=
  let t := s.wireBegin
  t.setEng { t.eng with cs := true, txq := [], rxq := [] }

/-- End() (R180). -/
def State.engineEnd (s : State) : State :=
  let t := s.wireEnd
  t.setEng { t.eng with cs := false }

/-- The return of a call: no call runs any more, and the answer is `status`, E.j and in[] (R170). -/
def State.returnCall (s : State) (c : Call) (status : Status) : State :=
  (s.setEng { s.eng with call := none }).setReply (.transfer status c.j c.inBuf)

/-- TimeoutExit() (R181), the block's only counterpart of taking an exception (R205): E.txq is
discarded, chip-select drops and CS_END reaches the device in one step; then the received bytes are
drained, and the call returns Timeout. -/
def State.timeoutExit (s : State) (c : Call) : State :=
  let t := State.engineEnd (s.setEng { s.eng with txq := [] })
  (t.setEng { t.eng with rxq := c.drainedQueue t.eng.rxq }).returnCall (c.drain t.eng.rxq) .timeout

/-- Which wait a call enters with `i` of `n` bytes pushed (R176: "while E.i < E.n"). -/
def nextWait (i n : Nat) : Phase := if i < n then .transmit else .doneWait

/-- One iteration of the transmit wait (R176, R177) after its DrainRx: a push, or a failed poll. -/
def State.transmitPoll (P : Params) (s : State) (c : Call) : State :=
  if s.eng.txReady P then
    s.setEng { s.eng with
      txq := s.eng.txq ++ [c.out.getD c.i 0]
      call := some { c with i := c.i + 1, cnt := 0, phase := nextWait (c.i + 1) c.n } }
  else
    s.setEng { s.eng with
      call := some { c with
        cnt := c.cnt + 1
        phase := if c.cnt + 1 = P.txPollLimit then .timeout else .transmit } }

/-- One iteration of the done wait (R176, R178) after its DrainRx. -/
def State.donePoll (P : Params) (s : State) (c : Call) : State :=
  if s.eng.done then s.setEng { s.eng with call := some { c with phase := .residual } }
  else
    s.setEng { s.eng with
      call := some { c with
        cnt := c.cnt + 1
        phase := if c.cnt + 1 = P.donePollLimit then .timeout else .doneWait } }

/-- One sequencer step (R188) of the running call `c`. -/
def State.seqStep (P : Params) (s : State) (c : Call) : State :=
  match c.phase with
  | .start =>
    let t := s.engineBegin
    t.setEng { t.eng with call := some { c with phase := nextWait c.i c.n } }
  | .transmit => (s.drainRx c).transmitPoll P (c.drain s.eng.rxq)
  | .doneWait => (s.drainRx c).donePoll P (c.drain s.eng.rxq)
  | .residual =>
    let t := s.drainRx c
    t.setEng { t.eng with call := some { c.drain s.eng.rxq with phase := .finish } }
  | .finish => (if c.endFlag then s.engineEnd else s).returnCall c .ok
  | .timeout => s.timeoutExit c

/-- One sequencer step with the shifter's turn before it (R188). The shifter has no turn before Begin
is complete (R173). With no call running nothing happens. -/
def State.tick (P : Params) (F : Draws) (s : State) : State :=
  match s.eng.call with
  | none => s
  | some c =>
    match c.phase with
    | .start => s.seqStep P c
    | _ => (s.shifterTurn P F).seqStep P c

/-- At most `fuel` ticks, stopping when no call runs. -/
def State.runCall (P : Params) (F : Draws) (s : State) : Nat → State
  | 0 => s
  | fuel + 1 =>
    match s.eng.call with
    | none => s
    | some _ => State.runCall P F (s.tick P F) fuel

/-- The bound of R188 on the sequencer steps of a call of n bytes, its constant taken as 4. -/
def callBound (P : Params) (n : Nat) : Nat := n * P.txPollLimit + P.donePollLimit + 4

/-- The call record at the start of a call (R176). -/
def Call.initial (beginFlag endFlag : Bool) (n : Nat) (out inBuf : List Byte) : Call where
  phase := if beginFlag then .start else nextWait 0 n
  endFlag := endFlag
  n := n
  i := 0
  j := 0
  cnt := 0
  out := out
  inBuf := inBuf

/-- The state in which a call has been made and no sequencer step has been taken (R176). -/
def State.startCall (s : State) (beginFlag endFlag : Bool) (n : Nat) (out inBuf : List Byte) :
    State :=
  s.setEng { s.eng with call := some (Call.initial beginFlag endFlag n out inBuf) }

/-- transfer(bit_length, out, in, begin_flag, end_flag) (R170, R171, R176, R185): refused where the
host must not make the call, else run to its return (log 7). -/
def State.transfer (P : Params) (F : Draws) (s : State) (beginFlag endFlag : Bool)
    (bitLength : Nat) (out inBuf : List Byte) : Host.Outcome State Fault Refusal :=
  if bitLength % 8 ≠ 0 then .refused (.badBitLength bitLength)
  else if s.eng.call.isSome then .refused .overlappingCall
  else if out.length < bitLength / 8 ∨ inBuf.length < bitLength / 8 then .refused .shortBuffer
  else .next ((s.startCall beginFlag endFlag (bitLength / 8) out inBuf).runCall P F
    (callBound P (bitLength / 8)))

/-! ### What an operation answers (log 12) -/

/-- A next state that answers nothing. -/
def State.quiet (s : State) : Host.Outcome State Fault Refusal := .next (s.setReply .silent)

/-- A next state that answers the miso bytes of a wire operation (R95). -/
def State.answer (r : State × List Byte) : Host.Outcome State Fault Refusal :=
  .next (r.1.setReply (.bytes r.2))

/-- A register-file read (R117): the device after it, and the byte it returns. -/
def State.readAnswer (s : State) (r : Device × Byte) : Host.Outcome State Fault Refusal :=
  State.answer (s.setDev r.1, [r.2])

/-- A register-file write (R118): the device after it. -/
def State.writeAnswer (s : State) (d : Device) : Host.Outcome State Fault Refusal :=
  (s.setDev d).quiet

/-- A BYTE event at the device port (R95, R99, R100). -/
def State.byteEvent (P : Params) (F : Draws) (s : State) (mosi : Byte) :
    Host.Outcome State Fault Refusal :=
  State.answer (s.wireBytes P F [mosi])

/-! ### The host's next request -/

/-- The host's next request, and the state without it. -/
def State.fetch (s : State) : Option (Request × State) :=
  match s.host with
  | [] => none
  | r :: rest => some (r, s.setHost rest)

/-- The data phase in which an access of the host's is made (R50; log 11): CS_BEGIN (R97) and the four
header bytes of a one-byte transaction at the access's address (R71, R88) have been exchanged. -/
def State.openAccess (P : Params) (F : Draws) (s : State) (dir : Dir) (a : BitVec 16) : State :=
  (s.wireBegin.wireBytes P F (headerBytes (hdrWord dir 0 0 0xD4 a))).1

/-- The end of that transaction: the data byte counts (R100), and CS_END (R98). -/
def State.closeAccess (s : State) : State := (s.setDev s.dev.bumpOffset).wireEnd

/-- Runs an operation of the host's. One that stands for an access runs as the data byte of a one-byte
transaction of its own, because only the data phase of a transaction reaches the register space
(R50; log 11, 28). -/
def State.inDataPhase (P : Params) (F : Draws) (s : State) (access : Option (Dir × BitVec 16))
    (run : State → Host.Outcome State Fault Refusal) : Host.Outcome State Fault Refusal :=
  match access with
  | none => run s
  | some (dir, a) =>
    match run (s.openAccess P F dir a) with
    | .next t => .next t.closeAccess
    | .fault f => .fault f
    | .refused r => .refused r

/-- The state in which the host's very next operation is the given bare table word and no call runs
(log 5, 8). A width the table does not have changes nothing. -/
def State.placeWord (s : State) (nbits w : Nat) : State :=
  match Request.ofTableWord nbits w with
  | none => s
  | some r => (s.setEng { s.eng with call := none }).setHost (r :: s.host)

end Sys2Proof.Machine
end

