-- ==== Sys2Proof/Machine/Command.lean ====
section
/-! DEFINITION. The meanings of the STSW, ACCW and HOST rows: the write of a byte to the status register or
to the access register, which `step` makes in the data phase of a transaction (R50; log 11), and the
probe (R83, R84, 42_state_machine.md). -/

namespace Sys2Proof.Machine

/-- STS_ABORT (R152). -/
def execStsAbort (_b7 : BitVec 1) (_lo : BitVec 5) (s : State) : Host.Outcome State Fault Refusal :=
  s.writeAnswer (s.dev.abort Config.hw)

/-- STS_GO (R150). -/
def execStsGo (_b7 : BitVec 1) (_lo : BitVec 5) (s : State) : Host.Outcome State Fault Refusal :=
  s.writeAnswer (s.dev.go Config.hw)

/-- STS_ABORT_GO (R153): abort, then go. -/
def execStsAbortGo (_b7 : BitVec 1) (_lo : BitVec 5) (s : State) :
    Host.Outcome State Fault Refusal :=
  s.writeAnswer ((s.dev.abort Config.hw).go Config.hw)

/-- STS_NOP (R122): no effect. -/
def execStsNop (_b7 : BitVec 1) (_lo : BitVec 5) (s : State) : Host.Outcome State Fault Refusal :=
  s.writeAnswer s.dev

/-- ACC_REQUEST_USE (R124). -/
def execAccRequestUse (_hi : BitVec 6) (_b0 : BitVec 1) (s : State) :
    Host.Outcome State Fault Refusal :=
  s.writeAnswer s.dev.grant

/-- ACC_NOP (R124): no effect. -/
def execAccNop (_hi : BitVec 6) (_b0 : BitVec 1) (s : State) : Host.Outcome State Fault Refusal :=
  s.writeAnswer s.dev

/-- INIT (R142). -/
def execInit (s : State) : Host.Outcome State Fault Refusal :=
  s.writeAnswer s.dev.probe

end Sys2Proof.Machine
end

