-- ==== Sys2Proof/Machine/Parser.lean ====
section
/-! DEFINITION. The meanings of the HDR and WIRE rows (40_framing_parser.md). -/

namespace Sys2Proof.Machine

/-- HDR_WRITE (R71, R101): the four header bytes as BYTE events (log 10). -/
def execHdrWrite (rsv : BitVec 1) (lenm1 : BitVec 6) (marker : Byte) (addr : BitVec 16) (s : State) :
    Host.Outcome State Fault Refusal :=
  State.answer (s.wireBytes Config.hw Config.draws (headerBytes (hdrWord .write rsv lenm1 marker addr)))

/-- HDR_READ (R71, R101): the four header bytes as BYTE events (log 10). -/
def execHdrRead (rsv : BitVec 1) (lenm1 : BitVec 6) (marker : Byte) (addr : BitVec 16) (s : State) :
    Host.Outcome State Fault Refusal :=
  State.answer (s.wireBytes Config.hw Config.draws (headerBytes (hdrWord .read rsv lenm1 marker addr)))

/-- WIRE_BEGIN (R97). MODEL'S CHOICE (log 28): the event moves D.sel alone, so where the host issues it at
the port with E.cs = 0, a later call without Begin reaches the device. -/
def execWireBegin (s : State) : Host.Outcome State Fault Refusal := s.wireBegin.quiet

/-- WIRE_END (R98). MODEL'S CHOICE (log 28): the event moves D.sel alone, so where the host issues it at
the port with E.cs = 1, a later call without Begin reaches no device. -/
def execWireEnd (s : State) : Host.Outcome State Fault Refusal := s.wireEnd.quiet

/-- WIRE_BYTE_UNSEL (R99): the BYTE event; the decoder gives this row where D.sel = 0 (log 9). -/
def execWireByteUnsel (mosi : Byte) (s : State) : Host.Outcome State Fault Refusal :=
  s.byteEvent Config.hw Config.draws mosi

/-- WIRE_BYTE_HDR (R100, R101, R102): the BYTE event; the decoder gives this row in the header phase
(log 9). -/
def execWireByteHdr (mosi : Byte) (s : State) : Host.Outcome State Fault Refusal :=
  s.byteEvent Config.hw Config.draws mosi

/-- WIRE_BYTE_DATA_RD (R103): the BYTE event; the decoder gives this row in the data phase of a read
(log 9). -/
def execWireByteDataRd (mosi : Byte) (s : State) : Host.Outcome State Fault Refusal :=
  s.byteEvent Config.hw Config.draws mosi

/-- WIRE_BYTE_DATA_WR (R104): the BYTE event; the decoder gives this row in the data phase of a write
(log 9). -/
def execWireByteDataWr (mosi : Byte) (s : State) : Host.Outcome State Fault Refusal :=
  s.byteEvent Config.hw Config.draws mosi

/-- WIRE_BYTE_PAST (R105): the BYTE event; the decoder gives this row past the declared length
(log 9). -/
def execWireBytePast (mosi : Byte) (s : State) : Host.Outcome State Fault Refusal :=
  s.byteEvent Config.hw Config.draws mosi

end Sys2Proof.Machine
end

