-- ==== Sys2Proof/Machine/Registers.lean ====
section
/-! DEFINITION. The meanings of the ACC rows: the one register-file byte access itself (R117, R118). `step`
makes it in the data phase of a transaction (R50; log 11), as a data byte does (R103, R104). -/

namespace Sys2Proof.Machine

/-- RD_ACCESS (R119). -/
def execRdAccess (s : State) : Host.Outcome State Fault Refusal :=
  s.readAnswer (s.dev, s.dev.access)

/-- RD_INTEN (R130). -/
def execRdInten (_k : BitVec 2) (s : State) : Host.Outcome State Fault Refusal :=
  s.readAnswer (s.dev, sentinel)

/-- RD_CAPS (R125). -/
def execRdCaps (k : BitVec 2) (s : State) : Host.Outcome State Fault Refusal :=
  s.readAnswer (s.dev, leByte Config.hw.intfCaps k)

/-- RD_STS (R121). -/
def execRdSts (k : BitVec 2) (s : State) : Host.Outcome State Fault Refusal :=
  s.readAnswer (s.dev, s.dev.stsRead k)

/-- RD_FIFO (R128, R154): the address within the window does not matter. -/
def execRdFifo (_addr : Nat) (s : State) : Host.Outcome State Fault Refusal :=
  s.readAnswer s.dev.fifoRead

/-- RD_DIDVID (R126). -/
def execRdDidvid (k : BitVec 2) (s : State) : Host.Outcome State Fault Refusal :=
  s.readAnswer (s.dev, leByte Config.hw.didVid k)

/-- RD_RID (R127). -/
def execRdRid (s : State) : Host.Outcome State Fault Refusal :=
  s.readAnswer (s.dev, Config.hw.rid)

/-- WR_ACCESS (R124). -/
def execWrAccess (v : Byte) (s : State) : Host.Outcome State Fault Refusal :=
  s.writeAnswer (s.dev.accessWrite v)

/-- WR_INTEN (R130): no effect. -/
def execWrInten (_k : BitVec 2) (_v : Byte) (s : State) : Host.Outcome State Fault Refusal :=
  s.writeAnswer s.dev

/-- WR_CAPS (R125): no effect. -/
def execWrCaps (_k : BitVec 2) (_v : Byte) (s : State) : Host.Outcome State Fault Refusal :=
  s.writeAnswer s.dev

/-- WR_STS0 (R122). -/
def execWrSts0 (v : Byte) (s : State) : Host.Outcome State Fault Refusal :=
  s.writeAnswer (s.dev.stsWrite0 Config.hw v)

/-- WR_STS_HI (R123): no effect. -/
def execWrStsHi (_k : BitVec 2) (_v : Byte) (s : State) : Host.Outcome State Fault Refusal :=
  s.writeAnswer s.dev

/-- WR_FIFO (R129, R143): the address within the window does not matter. -/
def execWrFifo (_addr : Nat) (v : Byte) (s : State) : Host.Outcome State Fault Refusal :=
  s.writeAnswer (s.dev.fifoWrite Config.hw v)

/-- WR_DIDVID (R126): no effect. -/
def execWrDidvid (_k : BitVec 2) (_v : Byte) (s : State) : Host.Outcome State Fault Refusal :=
  s.writeAnswer s.dev

/-- WR_RID (R127): no effect. -/
def execWrRid (_v : Byte) (s : State) : Host.Outcome State Fault Refusal :=
  s.writeAnswer s.dev

/-- RD_UNKNOWN (R131). -/
def execRdUnknown (_addr : Nat) (s : State) : Host.Outcome State Fault Refusal :=
  s.readAnswer (s.dev, sentinel)

/-- WR_UNKNOWN (R132): no effect. -/
def execWrUnknown (_addr : Nat) (_v : Byte) (s : State) : Host.Outcome State Fault Refusal :=
  s.writeAnswer s.dev

end Sys2Proof.Machine
end

