-- ==== Sys2Proof/Machine/Shift.lean ====
section
/-! DEFINITION. The meanings of the XFER rows: one `transfer` call each, by its two flags (R85, R176). -/

namespace Sys2Proof.Machine

/-- XFER_BE (R176): begin_flag = 1, end_flag = 1. -/
def execXferBE (bitLength : Nat) (out inBuf : List Byte) (s : State) :
    Host.Outcome State Fault Refusal :=
  s.transfer Config.hw Config.draws true true bitLength out inBuf

/-- XFER_B (R176): begin_flag = 1, end_flag = 0. -/
def execXferB (bitLength : Nat) (out inBuf : List Byte) (s : State) :
    Host.Outcome State Fault Refusal :=
  s.transfer Config.hw Config.draws true false bitLength out inBuf

/-- XFER_C (R176): begin_flag = 0, end_flag = 0. -/
def execXferC (bitLength : Nat) (out inBuf : List Byte) (s : State) :
    Host.Outcome State Fault Refusal :=
  s.transfer Config.hw Config.draws false false bitLength out inBuf

/-- XFER_E (R176): begin_flag = 0, end_flag = 1. -/
def execXferE (bitLength : Nat) (out inBuf : List Byte) (s : State) :
    Host.Outcome State Fault Refusal :=
  s.transfer Config.hw Config.draws false true bitLength out inBuf

end Sys2Proof.Machine
end

