-- ==== Sys2Proof/Machine/Dispatch.lean ====
section
/-! DEFINITION. The meaning of each instruction, one arm per constructor of `Instr`. -/

namespace Sys2Proof.Machine

/-- Runs one decoded operation of the table. -/
def exec (i : Instr) (s : State) : Host.Outcome State Fault Refusal :=
  match i with
  | .hdrWrite a b c d => Sys2Proof.Machine.execHdrWrite a b c d s
  | .hdrRead a b c d => Sys2Proof.Machine.execHdrRead a b c d s
  | .rdAccess => Sys2Proof.Machine.execRdAccess s
  | .rdInten a => Sys2Proof.Machine.execRdInten a s
  | .rdCaps a => Sys2Proof.Machine.execRdCaps a s
  | .rdSts a => Sys2Proof.Machine.execRdSts a s
  | .rdFifo a => Sys2Proof.Machine.execRdFifo a s
  | .rdDidvid a => Sys2Proof.Machine.execRdDidvid a s
  | .rdRid => Sys2Proof.Machine.execRdRid s
  | .wrAccess a => Sys2Proof.Machine.execWrAccess a s
  | .wrInten a b => Sys2Proof.Machine.execWrInten a b s
  | .wrCaps a b => Sys2Proof.Machine.execWrCaps a b s
  | .wrSts0 a => Sys2Proof.Machine.execWrSts0 a s
  | .wrStsHi a b => Sys2Proof.Machine.execWrStsHi a b s
  | .wrFifo a b => Sys2Proof.Machine.execWrFifo a b s
  | .wrDidvid a b => Sys2Proof.Machine.execWrDidvid a b s
  | .wrRid a => Sys2Proof.Machine.execWrRid a s
  | .rdUnknown a => Sys2Proof.Machine.execRdUnknown a s
  | .wrUnknown a b => Sys2Proof.Machine.execWrUnknown a b s
  | .stsAbort a b => Sys2Proof.Machine.execStsAbort a b s
  | .stsGo a b => Sys2Proof.Machine.execStsGo a b s
  | .stsAbortGo a b => Sys2Proof.Machine.execStsAbortGo a b s
  | .stsNop a b => Sys2Proof.Machine.execStsNop a b s
  | .accRequestUse a b => Sys2Proof.Machine.execAccRequestUse a b s
  | .accNop a b => Sys2Proof.Machine.execAccNop a b s
  | .xferBE a b c => Sys2Proof.Machine.execXferBE a b c s
  | .xferB a b c => Sys2Proof.Machine.execXferB a b c s
  | .xferC a b c => Sys2Proof.Machine.execXferC a b c s
  | .xferE a b c => Sys2Proof.Machine.execXferE a b c s
  | .wireBegin => Sys2Proof.Machine.execWireBegin s
  | .wireEnd => Sys2Proof.Machine.execWireEnd s
  | .wireByteUnsel a => Sys2Proof.Machine.execWireByteUnsel a s
  | .wireByteHdr a => Sys2Proof.Machine.execWireByteHdr a s
  | .wireByteDataRd a => Sys2Proof.Machine.execWireByteDataRd a s
  | .wireByteDataWr a => Sys2Proof.Machine.execWireByteDataWr a s
  | .wireBytePast a => Sys2Proof.Machine.execWireBytePast a s
  | .init => Sys2Proof.Machine.execInit s

end Sys2Proof.Machine
end

