-- ==== Sys2Proof/Machine/Step.lean ====
section
/-! DEFINITION. One step of the machine: a running call takes one sequencer step; with no call running the
host's next request is decoded and run, a register-file access in the data phase of a transaction
(R50); with nothing to issue the block rests (log 5, 6, 7, 11). -/

namespace Sys2Proof.Machine

/-- One step. -/
def step (s : State) : Host.Outcome State Fault Refusal :=
  match s.eng.call with
  | some _ => .next (s.tick Config.hw Config.draws)
  | none =>
    match s.fetch with
    | none => .next s
    | some (r, t) =>
      match decode t.dev.byteCase r with
      | .ok i => t.inDataPhase Config.hw Config.draws r.access (exec i)
      | .error e => .fault (.undecodable e)

/-- The state whose very next step runs the instruction of the given table word (log 5, 8). -/
def State.withFetchWord (s : State) (nbits w : Nat) : State := s.placeWord nbits w

end Sys2Proof.Machine
end

