-- ==== Sys2Proof/Safety.lean ====
section
/-! DEFINITION. The terms that claims use: the invariants of R41, the listed transitions of R140, the
schedule-free result of a call, and runs of register accesses. -/

namespace Sys2Proof.Machine

/-! ### Invariants (R41) -/

/-- What always holds of the device (R41 items 1 to 8, with R28, R33, R101, R148, R151 and R156). -/
structure Device.Inv (P : Params) (d : Device) : Prop where
  /-- R41.1. -/
  cmd_le : d.cmd.length ≤ P.cmdCapacity
  /-- R41.2. -/
  cursor_le : d.rspCursor ≤ d.rsp.length
  /-- R31, R151. -/
  rsp_le : d.rsp.length ≤ P.rspCapacity
  /-- R41.3. -/
  avail_iff : d.state = .completion ↔ d.dataAvail = true
  /-- R41.4; before INIT both sides are false. -/
  ready_iff : d.state = .ready ↔ d.cmdReady = true
  /-- R41.5. -/
  expect_reception : d.dataExpect = true → d.state = .reception
  /-- R41.6. -/
  cursor_lt : d.state = .completion → d.rspCursor < d.rsp.length
  /-- R41.7. -/
  not_execution : d.state ≠ .execution
  /-- R41.8. -/
  hdrCnt_le : d.hdrCnt ≤ 4
  /-- R41.8. -/
  deselected : d.sel = false → d.hdrCnt = 0
  /-- R156: D.burst always equals BURST_DEFAULT. -/
  burst_eq : d.burst = P.burstDefault
  /-- R28: bits 7 and 5 of D.access are set together, and no other bit ever. -/
  access_eq : d.access = 0x00 ∨ d.access = accGranted
  /-- R148: in Reception, data-expect is clear exactly when the command is complete. -/
  complete_iff : d.state = .reception → (d.dataExpect = false ↔ commandComplete d.cmd = true)
  /-- R33, R101: after four header bytes the decoded fields are those of the header. -/
  decoded : d.hdrCnt = 4 →
    decodeHeader d.hdr.b0 d.hdr.b1 d.hdr.b2 d.hdr.b3 = ⟨d.dir, d.len, d.addr⟩

/-- What always holds of a running call and the queues (R36, R37, R41.9, R187). -/
structure Call.Inv (P : Params) (e : Engine) (c : Call) : Prop where
  out_le : c.n ≤ c.out.length
  in_le : c.n ≤ c.inBuf.length
  /-- R37: E.i runs from 0 to n. -/
  i_le : c.i ≤ c.n
  /-- Before Begin nothing has been pushed or received. -/
  fresh : c.phase = .start → c.i = 0 ∧ c.j = 0 ∧ c.cnt = 0
  /-- R174, R175: every pushed byte is received, in E.rxq or still in E.txq. -/
  conserved : c.phase ≠ .start → c.j + e.rxq.length + e.txq.length = c.i
  /-- R177, R187: a transmit wait is for a byte of the call, its counter below the limit. -/
  in_transmit : c.phase = .transmit → c.i < c.n ∧ c.cnt < P.txPollLimit
  /-- R178, R187. -/
  in_doneWait : c.phase = .doneWait → c.i = c.n ∧ c.cnt < P.donePollLimit
  /-- R179: after `done` every pushed byte has been exchanged. -/
  in_residual : c.phase = .residual → c.i = c.n ∧ e.txq = []
  /-- R179: after the residual drain every byte of the call has been received. -/
  in_finish : c.phase = .finish → c.i = c.n ∧ e.txq = [] ∧ e.rxq = []

/-- What always holds of the machine (R41). -/
structure State.Inv (P : Params) (s : State) : Prop where
  dev : s.dev.Inv P
  /-- R41.9. -/
  txq_le : s.eng.txq.length ≤ P.fifoDepth
  /-- R41.9. -/
  rxq_le : s.eng.rxq.length ≤ P.fifoDepth
  /-- R179, R182: both queues are empty between calls. -/
  idle_queues : s.eng.call = none → s.eng.txq = [] ∧ s.eng.rxq = []
  running : ∀ c, s.eng.call = some c → c.Inv P s.eng

/-- The integrated block of R95, whose host issues nothing but INIT and calls: the device is selected
exactly while chip-select is asserted (R35, R174). A host that drives the port itself is no such host
(log 28). -/
structure State.Integrated (s : State) : Prop where
  /-- R174: "D.sel follows E.cs". -/
  sel_eq : s.dev.sel = s.eng.cs
  calls : ∀ r ∈ s.host, r = .wire 0x300 ∨ ∃ w n out inBuf, r = .xfer w n out inBuf

/-- No call runs and both queues are empty: the engine between two calls (R179, R182). -/
def Engine.AtRest (e : Engine) : Prop := e.call = none ∧ e.txq = [] ∧ e.rxq = []

/-! ### The command state's transitions (R140) -/

/-- The table of R140, its go row without the momentary Execution (R151). -/
inductive CmdState.Listed : CmdState → CmdState → Prop where
  | initProbe : Listed .idle .ready
  | firstWrite : Listed .ready .reception
  | accepted : Listed .reception .completion
  | drained : Listed .completion .ready
  | aborted (x : CmdState) : Listed x .ready

/-- The instructions that are at most one event or access at the device: all but the four-byte header
words and the calls. -/
def oneEvent : Instr → Bool
  | .hdrWrite _ _ _ _ | .hdrRead _ _ _ _ => false
  | .xferBE _ _ _ | .xferB _ _ _ | .xferC _ _ _ | .xferE _ _ _ => false
  | _ => true

/-! ### A call without its schedule (R179, R181, V-ENG-P) -/

/-- The same state but for the count of schedule draws. -/
def State.SameButSched (s t : State) : Prop := s = { t with schedDraws := s.schedDraws }

/-- The state in which a call's bytes begin to be exchanged (R172). -/
def State.opened (s : State) (beginFlag : Bool) : State :=
  if beginFlag then s.engineBegin else s

/-- What a call that returns Ok leaves (R179, R180): Begin, the n bytes in order, End; in[0..n−1] are
their answers and the rest of in[] is as it was. -/
def State.okResult (P : Params) (F : Draws) (s : State) (beginFlag endFlag : Bool) (n : Nat)
    (out inBuf : List Byte) : State :=
  let r := (s.opened beginFlag).wireBytes P F (out.take n)
  let t := if endFlag then r.1.engineEnd else r.1
  t.setReply (.transfer .ok n (r.2 ++ inBuf.drop n))

/-- What a call that times out after k exchanges leaves (R181): Begin, the first k bytes, CS_END
whatever end_flag says; in[0..k−1] are their answers and the rest of in[] is as it was. -/
def State.timeoutResult (P : Params) (F : Draws) (s : State) (beginFlag : Bool) (k : Nat)
    (out inBuf : List Byte) : State :=
  let r := (s.opened beginFlag).wireBytes P F (out.take k)
  r.1.engineEnd.setReply (.transfer .timeout k (r.2 ++ inBuf.drop k))

/-- What a call of n bytes leaves, up to the count of schedule draws: the Ok result, or, for n > 0,
the timeout result of some number of exchanges. -/
def State.CallOutcome (P : Params) (F : Draws) (s : State) (beginFlag endFlag : Bool) (n : Nat)
    (out inBuf : List Byte) (t : State) : Prop :=
  t.SameButSched (s.okResult P F beginFlag endFlag n out inBuf) ∨
    ∃ k, 0 < n ∧ k ≤ n ∧ t.SameButSched (s.timeoutResult P F beginFlag k out inBuf)

/-- The state's last answer is a call's return with Ok. -/
def State.CallOk (s : State) : Prop := ∃ j inBuf, s.reply = .transfer .ok j inBuf

/-! ### Runs of operations -/

/-- Operations run one after another: the state they leave and their answers in order; nothing where
one of them does not complete. -/
def execAll : List Instr → State → Option (State × List Reply)
  | [], s => some (s, [])
  | i :: is, s =>
    match exec i s with
    | .next t => (execAll is t).map fun r => (r.1, t.reply :: r.2)
    | .fault _ => none
    | .refused _ => none

/-! ### The declared length (R147, R148) -/

/-- The declared length of R147 read from a command of at least 6 bytes. -/
def declaredNat (cmd : List Byte) : Nat :=
  (be32 (cmd.getD 2 0) (cmd.getD 3 0) (cmd.getD 4 0) (cmd.getD 5 0)).toNat

/-- Complete() of R148, written out. -/
def CommandComplete (cmd : List Byte) : Prop := 6 ≤ cmd.length ∧ declaredNat cmd ≤ cmd.length

end Sys2Proof.Machine
end

