-- ==== Sys2Proof/Certificates/Slice0/Obligations.lean ====
section
/-! DEFINITION. The statements about the model. `Config.hw` are the open parameters of R7 and
`Config.draws` the free values of R8, so a statement over them holds for every choice. -/

section Statements

open Sys2Proof Sys2Proof.Machine

/-! ### Encodings -/

/-- R70 to R86: decoding an encoded well-formed instruction gives it back, in every device state in
which R86 lets its word stand for it. -/
def Obligations.EncodedInstructionDecodesToItself : Prop :=
  ∀ (bc : ByteCase) (i : Instr), i.wellFormed = true → i.fitsCase bc = true →
    decode bc (encode i) = .ok i

/-- R70 to R86: a request that decodes has the word the encoder gives its instruction, so no bit of a
word is lost; and a decoded instruction is well formed, but for a call's record (R171). -/
def Obligations.DecodedWordEncodesToItself : Prop :=
  ∀ (bc : ByteCase) (r : Request) (i : Instr), decode bc r = .ok i →
    (encode i).width = r.width ∧ (encode i).bits = r.bits ∧ i.fitsCase bc = true ∧
      ((∀ w n out inBuf, r ≠ .xfer w n out inBuf) → i.wellFormed = true)

/-- R78: the decode's formula, its independence of byte 1 and bit 6, and the round trip. -/
def Obligations.HeaderDecodeRecoversItsFields : Prop :=
  (∀ h0 h1 h2 h3 h1' : Byte,
    (decodeHeader h0 h1 h2 h3).dir = (if h0.getLsbD 7 then .read else .write) ∧
      (decodeHeader h0 h1 h2 h3).len = h0.toNat % 64 + 1 ∧
      (decodeHeader h0 h1 h2 h3).addr.toNat = h2.toNat * 256 + h3.toNat ∧
      decodeHeader (h0 ^^^ 0x40) h1' h2 h3 = decodeHeader h0 h1 h2 h3) ∧
  ∀ (dir : Dir) (len : Nat) (m : Byte) (addr : BitVec 16) (bit6 : Bool), 1 ≤ len → len ≤ 64 →
    decodeHeader
      ((match dir with | .read => 0x80 | .write => 0x00) ||| BitVec.ofNat 8 (len - 1) |||
        (if bit6 then 0x40 else 0x00))
      m (BitVec.ofNat 8 (addr.toNat / 256)) (BitVec.ofNat 8 (addr.toNat % 256)) =
      ⟨dir, len, addr⟩

/-- R71, R80, R83 to R86: one word of each format, written out from its layout. -/
def Obligations.WrittenOutWordsDecode : Prop :=
  decode .unsel (.hdr 0x05D40018) = .ok (.hdrWrite 0 5 0xD4 0x0018) ∧
    decode .unsel (.hdr 0xC0000000) = .ok (.hdrRead 1 0 0x00 0x0000) ∧
    decode .unsel (.acc 0x10018 0) = .ok (.rdSts 0) ∧
    decode .unsel (.acc 0x0001A 0xFF) = .ok (.wrStsHi 2 0xFF) ∧
    decode .unsel (.acc 0x10EFF 0) = .ok (.rdFifo 0x0EFF) ∧
    decode .unsel (.stsw 0x60) = .ok (.stsAbortGo 0 0) ∧
    decode .unsel (.accw 0x02) = .ok (.accRequestUse 0 0) ∧
    decode .unsel (.xfer 0b01 8 [0x40] [0x00]) = .ok (.xferE 8 [0x40] [0x00]) ∧
    decode .dataWr (.wire 0b0101000000) = .ok (.wireByteDataWr 0x40) ∧
    decode .unsel (.wire 0b1100000000) = .ok .init

/-- R86, R99, R100 and the table's `when` fields: the device's state alone selects the row of a BYTE
word, whatever the byte. -/
def Obligations.DeviceStateSelectsTheByteRow : Prop :=
  ∀ (d : Device) (m : Byte),
    decode d.byteCase (.wire (1#2 ++ m)) = .ok
      (if d.sel = false then .wireByteUnsel m
       else if d.hdrCnt < 4 then .wireByteHdr m
       else if d.offset < d.len then
         (match d.dir with | .read => .wireByteDataRd m | .write => .wireByteDataWr m)
       else .wireBytePast m)

/-! ### The step -/

/-- The model's own host interface (log 5, 7, 11): the host's next operation, decoded in the device's
state, is what a step with no call running runs. An operation that stands for an access runs in the
data phase of a one-byte transaction at its address, which the step opens before it and ends after
it; the data byte counts. -/
def Obligations.StepRunsTheDecodedInstruction : Prop :=
  ∀ (s : State) (r : Request) (rest : List Request) (i : Instr),
    s.eng.call = none → s.host = r :: rest → decode s.dev.byteCase r = .ok i →
      (r.access = none → step s = exec i { s with host := rest }) ∧
      ∀ (dir : Dir) (a : BitVec 16), r.access = some (dir, a) →
        ∃ t, exec i { s with
            host := rest
            dev := { s.dev with
              sel := true
              hdr := ⟨match dir with | .read => 0x80 | .write => 0x00, 0xD4,
                a.extractLsb' 8 8, a.extractLsb' 0 8⟩
              hdrCnt := 4
              dir := dir
              len := 1
              addr := a
              offset := 0 } } = .next t ∧
          step s = .next { t with dev := { t.dev with sel := false, hdrCnt := 0, offset := 1 } }

/-- The other cases of a step, all the model's own choices (log 6, 7, 14): with nothing to issue the
block rests, a running call takes one tick, an event word of no row is a fault. -/
def Obligations.StepRestsTicksOrFaults : Prop :=
  (∀ s : State, s.eng.call = none → s.host = [] → step s = .next s) ∧
    (∀ (s : State) (c : Call), s.eng.call = some c →
      step s = .next (s.tick Config.hw Config.draws)) ∧
    ∀ (s : State) (r : Request) (rest : List Request) (e : DecodeError),
      s.eng.call = none → s.host = r :: rest → decode s.dev.byteCase r = .error e →
        step s = .fault (.undecodable e)

/-! ### Reset and the invariants -/

/-- R225, R226 (with the spec's own decisions D40 and D41): the fields that reset gives a value. -/
def Obligations.ResetLeavesTheStatedValues : Prop :=
  let d := State.reset.dev
  let e := State.reset.eng
  d.state = .idle ∧ d.cmdReady = false ∧ d.dataAvail = false ∧ d.dataExpect = false ∧
    d.burst = Config.hw.burstDefault ∧ d.access = 0x00 ∧ d.cmd = [] ∧ d.rsp = [] ∧
    d.rspCursor = 0 ∧ d.sel = false ∧ d.hdrCnt = 0 ∧
    e.cs = false ∧ e.txq = [] ∧ e.rxq = [] ∧ e.call = none

/-- R41 holds at reset, and D.sel agrees with E.cs (R226). -/
def Obligations.ResetSatisfiesTheInvariants : Prop :=
  State.reset.Inv Config.hw ∧ State.reset.Integrated

/-- R41: every step from any state with the invariants keeps them; and where the host issues nothing
but INIT and calls, every step keeps D.sel equal to E.cs (R95, R174). -/
def Obligations.EveryStepKeepsTheInvariants : Prop :=
  (∀ s t : State, s.Inv Config.hw → step s = .next t → t.Inv Config.hw) ∧
    ∀ s t : State, s.Integrated → step s = .next t → t.Integrated

/-! ### The framing parser -/

/-- R97. -/
def Obligations.CsBeginOpensATransaction : Prop :=
  ∀ s : State, ∃ r, exec .wireBegin s =
    .next { s with dev := { s.dev with sel := true, hdrCnt := 0 }, reply := r }

/-- R98; its corner case (deselected already) rests on R41.8. -/
def Obligations.CsEndClosesTheTransaction : Prop :=
  ∀ s : State,
    (∃ r, exec .wireEnd s =
      .next { s with dev := { s.dev with sel := false, hdrCnt := 0 }, reply := r }) ∧
    (s.Inv Config.hw → s.dev.sel = false → ∃ r, exec .wireEnd s = .next { s with reply := r })

/-- R99 (D11): the byte received while no device is selected is a free value. -/
def Obligations.UnselectedByteIsADraw : Prop :=
  ∀ (s : State) (m : Byte), s.dev.sel = false → exec (.wireByteUnsel m) s =
    .next { s with
      misoDraws := s.misoDraws + 1
      reply := .bytes [Config.draws.misoIdle s.misoDraws] }

/-- R100, R102 (D6, D7): header bytes 0 to 2 are stored and answered with FILL_BYTE, and the fourth is
answered with READY_MARKER. -/
def Obligations.HeaderBytesAreStoredAndAnswered : Prop :=
  ∀ (s : State) (m : Byte), s.dev.sel = true →
    (s.dev.hdrCnt = 0 → exec (.wireByteHdr m) s =
      .next { s with
        dev := { s.dev with hdr := { s.dev.hdr with b0 := m }, hdrCnt := 1 }
        reply := .bytes [Config.hw.fillByte] }) ∧
    (s.dev.hdrCnt = 1 → exec (.wireByteHdr m) s =
      .next { s with
        dev := { s.dev with hdr := { s.dev.hdr with b1 := m }, hdrCnt := 2 }
        reply := .bytes [Config.hw.fillByte] }) ∧
    (s.dev.hdrCnt = 2 → exec (.wireByteHdr m) s =
      .next { s with
        dev := { s.dev with hdr := { s.dev.hdr with b2 := m }, hdrCnt := 3 }
        reply := .bytes [Config.hw.fillByte] }) ∧
    (s.dev.hdrCnt = 3 → ∃ t, exec (.wireByteHdr m) s = .next t ∧
      t.reply = .bytes [Config.hw.readyMarker])

/-- R101: the fourth header byte decodes the header, makes no register access, and the decoded fields
stay fixed for the rest of the transaction. -/
def Obligations.FourthHeaderByteDecodesTheHeader : Prop :=
  (∀ (s : State) (m : Byte), s.dev.sel = true → s.dev.hdrCnt = 3 →
    ∃ r, exec (.wireByteHdr m) s = .next { s with
      dev := { s.dev with
        hdr := { s.dev.hdr with b3 := m }
        hdrCnt := 4
        dir := if s.dev.hdr.b0.getLsbD 7 then .read else .write
        len := (s.dev.hdr.b0 &&& 0x3F).toNat + 1
        addr := s.dev.hdr.b2 ++ m
        offset := 0 }
      reply := r }) ∧
  ∀ (s t : State) (m : Byte), s.dev.sel = true → s.dev.hdrCnt = 4 →
    exec (decodeByte s.dev.byteCase m) s = .next t →
      t.dev.dir = s.dev.dir ∧ t.dev.len = s.dev.len ∧ t.dev.addr = s.dev.addr ∧
        t.dev.hdr = s.dev.hdr ∧ t.dev.hdrCnt = 4 ∧ t.dev.sel = true

/-- R71, R72, R75, R77, R101, R102: a header word sent at the start of a transaction leaves its fields
decoded and the data phase open, and nothing else changed. -/
def Obligations.HeaderWordOpensTheDataPhase : Prop :=
  ∀ (s : State) (rsv : BitVec 1) (lenm1 : BitVec 6) (marker : Byte) (addr : BitVec 16),
    s.dev.sel = true → s.dev.hdrCnt = 0 →
    exec (.hdrRead rsv lenm1 marker addr) s = .next { s with
      dev := { s.dev with
        hdr := ⟨1#1 ++ rsv ++ lenm1, marker, addr.extractLsb' 8 8, addr.extractLsb' 0 8⟩
        hdrCnt := 4
        dir := .read
        len := lenm1.toNat + 1
        addr := addr
        offset := 0 }
      reply := .bytes [Config.hw.fillByte, Config.hw.fillByte, Config.hw.fillByte,
        Config.hw.readyMarker] } ∧
    exec (.hdrWrite rsv lenm1 marker addr) s = .next { s with
      dev := { s.dev with
        hdr := ⟨0#1 ++ rsv ++ lenm1, marker, addr.extractLsb' 8 8, addr.extractLsb' 0 8⟩
        hdrCnt := 4
        dir := .write
        len := lenm1.toNat + 1
        addr := addr
        offset := 0 }
      reply := .bytes [Config.hw.fillByte, Config.hw.fillByte, Config.hw.fillByte,
        Config.hw.readyMarker] }

/-- The model's own reading of the HDR rows (log 10): in every state they are the four BYTE events of
the header's bytes, each taking the row that the device's state selects. -/
def Obligations.HeaderWordIsFourByteEvents : Prop :=
  ∀ (s : State) (i : Instr) (rsv : BitVec 1) (lenm1 : BitVec 6) (marker : Byte) (addr : BitVec 16),
    (i = .hdrRead rsv lenm1 marker addr ∨ i = .hdrWrite rsv lenm1 marker addr) →
    ∃ (b0 : Byte) (s1 s2 s3 s4 : State) (m0 m1 m2 m3 : Byte),
      b0.toNat = (if i = .hdrRead rsv lenm1 marker addr then 128 else 0) + 64 * rsv.toNat +
        lenm1.toNat ∧
      exec (decodeByte s.dev.byteCase b0) s = .next s1 ∧ s1.reply = .bytes [m0] ∧
      exec (decodeByte s1.dev.byteCase marker) s1 = .next s2 ∧ s2.reply = .bytes [m1] ∧
      exec (decodeByte s2.dev.byteCase (addr.extractLsb' 8 8)) s2 = .next s3 ∧
      s3.reply = .bytes [m2] ∧
      exec (decodeByte s3.dev.byteCase (addr.extractLsb' 0 8)) s3 = .next s4 ∧
      s4.reply = .bytes [m3] ∧
      exec i s = .next { s4 with reply := .bytes [m0, m1, m2, m3] }

/-- The model's own choice for the BYTE rows outside their `when` (log 9): on any state each of the
five is the same BYTE event. -/
def Obligations.ByteRowsAreOneEvent : Prop :=
  ∀ (s : State) (m : Byte) (bc : ByteCase),
    exec (decodeByte bc m) s = exec (decodeByte s.dev.byteCase m) s

/-- R80, R100, R103: a data byte of a read is the read access of its row at D.addr + D.offset, and the
offset counts. -/
def Obligations.DataReadByteIsOneReadAccess : Prop :=
  ∀ (s : State) (m v : Byte), s.dev.sel = true → s.dev.hdrCnt = 4 → s.dev.offset < s.dev.len →
    s.dev.dir = .read →
    ∃ t, exec (accessRow .read (s.dev.addr.toNat + s.dev.offset) v) s = .next t ∧
      exec (.wireByteDataRd m) s =
        .next { t with dev := { t.dev with offset := s.dev.offset + 1 } }

/-- R80, R100, R104 (D6): a data byte of a write is the write access of its row at
D.addr + D.offset, answered with FILL_BYTE, and the offset counts. -/
def Obligations.DataWriteByteIsOneWriteAccess : Prop :=
  ∀ (s : State) (m : Byte), s.dev.sel = true → s.dev.hdrCnt = 4 → s.dev.offset < s.dev.len →
    s.dev.dir = .write →
    ∃ t, exec (accessRow .write (s.dev.addr.toNat + s.dev.offset) m) s = .next t ∧
      exec (.wireByteDataWr m) s = .next { t with
        dev := { t.dev with offset := s.dev.offset + 1 }
        reply := .bytes [Config.hw.fillByte] }

/-- R105 (D8): a byte past the declared length only counts. -/
def Obligations.BytePastTheLengthMakesNoAccess : Prop :=
  ∀ (s : State) (m : Byte), s.dev.sel = true → s.dev.hdrCnt = 4 → s.dev.len ≤ s.dev.offset →
    exec (.wireBytePast m) s = .next { s with
      dev := { s.dev with offset := s.dev.offset + 1 }
      reply := .bytes [Config.hw.fillByte] }

/-- R106: fewer than four bytes between CS_BEGIN and CS_END leave the header bytes behind and change
nothing else but D.sel and D.hdr_cnt. -/
def Obligations.PartialHeaderChangesNothingElse : Prop :=
  ∀ (s : State) (bs : List Byte), bs.length < 4 →
    ∃ h, (s.wireBegin.wireBytes Config.hw Config.draws bs).1.wireEnd =
        { s with dev := { s.dev with sel := false, hdrCnt := 0, hdr := h } } ∧
      (s.wireBegin.wireBytes Config.hw Config.draws bs).2 =
        List.replicate bs.length Config.hw.fillByte

/-! ### Register reads -/

/-- R119, R125, R126, R127, R130 (D13, D14): these reads give their byte and change nothing. -/
def Obligations.FixedRegistersReadTheirByte : Prop :=
  ∀ (s : State) (k : BitVec 2),
    exec .rdAccess s = .next { s with reply := .bytes [s.dev.access] } ∧
    exec (.rdCaps k) s = .next { s with
      reply := .bytes [BitVec.ofNat 8 (Config.hw.intfCaps.toNat / 256 ^ k.toNat)] } ∧
    exec (.rdDidvid k) s = .next { s with
      reply := .bytes [BitVec.ofNat 8 (Config.hw.didVid.toNat / 256 ^ k.toNat)] } ∧
    exec .rdRid s = .next { s with reply := .bytes [Config.hw.rid] } ∧
    exec (.rdInten k) s = .next { s with reply := .bytes [0xFF] }

/-- R120, R121 (D15 to D17): the four status bytes, from the state at the moment of the access. -/
def Obligations.StatusBytesAreLive : Prop :=
  ∀ s : State,
    exec (.rdSts 0) s = .next { s with reply := .bytes [BitVec.ofNat 8 (128 +
      (if s.dev.cmdReady then 64 else 0) + (if s.dev.dataAvail then 16 else 0) +
      (if s.dev.dataExpect then 8 else 0))] } ∧
    exec (.rdSts 1) s = .next { s with reply := .bytes [s.dev.burst] } ∧
    exec (.rdSts 2) s = .next { s with reply := .bytes [0x00] } ∧
    exec (.rdSts 3) s = .next { s with reply := .bytes [0x00] }

/-- R121's corner cases, R156: what the status bytes tell of the command state, given R41. -/
def Obligations.StatusByteTellsTheCommandState : Prop :=
  ∀ s : State, s.Inv Config.hw →
    (s.dev.state = .idle → exec (.rdSts 0) s = .next { s with reply := .bytes [0x80] }) ∧
    (s.dev.state = .ready → exec (.rdSts 0) s = .next { s with reply := .bytes [0xC0] }) ∧
    (s.dev.state = .reception → ¬ CommandComplete s.dev.cmd →
      exec (.rdSts 0) s = .next { s with reply := .bytes [0x88] }) ∧
    (s.dev.state = .reception → CommandComplete s.dev.cmd →
      exec (.rdSts 0) s = .next { s with reply := .bytes [0x80] }) ∧
    (s.dev.state = .completion → exec (.rdSts 0) s = .next { s with reply := .bytes [0x90] }) ∧
    exec (.rdSts 1) s = .next { s with reply := .bytes [Config.hw.burstDefault] }

/-- R131. -/
def Obligations.UnknownReadReturnsAllOnes : Prop :=
  ∀ (s : State) (a : Nat) (v : Byte), decodeAddr a = .unmapped →
    accessRow .read a v = .rdUnknown a ∧
      exec (.rdUnknown a) s = .next { s with reply := .bytes [0xFF] }

/-- R58: which reads change state, and which do not. -/
def Obligations.OnlyFifoReadsChangeState : Prop :=
  ∀ (s : State) (a : Nat) (v : Byte),
    (a < 0x0024 ∨ 0x0EFF < a →
      ∃ b, exec (accessRow .read a v) s = .next { s with reply := .bytes [b] } ∧
        ∀ r, exec (accessRow .read a v) { s with reply := r } =
          .next { s with reply := .bytes [b] }) ∧
    (0x0024 ≤ a → a ≤ 0x0EFF → s.dev.state = .completion → s.dev.rspCursor < s.dev.rsp.length →
      ∃ t, exec (accessRow .read a v) s = .next t ∧ t.dev ≠ s.dev) ∧
    (0x0024 ≤ a → a ≤ 0x0EFF →
      s.dev.state ≠ .completion ∨ s.dev.rsp.length ≤ s.dev.rspCursor →
      exec (accessRow .read a v) s = .next { s with reply := .bytes [0xFF] })

/-! ### Register writes -/

/-- R132. -/
def Obligations.UnknownWriteHasNoEffect : Prop :=
  ∀ (s : State) (a : Nat) (v : Byte), decodeAddr a = .unmapped →
    accessRow .write a v = .wrUnknown a v ∧
      ∃ r, exec (.wrUnknown a v) s = .next { s with reply := r }

/-- R122, R123, R124 to R127, R130 (D13 to D15, D17, D18): these writes do nothing. -/
def Obligations.IgnoredWritesChangeNothing : Prop :=
  ∀ (s : State) (k : BitVec 2) (v : Byte) (b7 b0 : BitVec 1) (lo : BitVec 5) (hi : BitVec 6),
    exec (.wrInten k v) s = .next { s with reply := .silent } ∧
    exec (.wrCaps k v) s = .next { s with reply := .silent } ∧
    exec (.wrStsHi k v) s = .next { s with reply := .silent } ∧
    exec (.wrDidvid k v) s = .next { s with reply := .silent } ∧
    exec (.wrRid v) s = .next { s with reply := .silent } ∧
    exec (.stsNop b7 lo) s = .next { s with reply := .silent } ∧
    exec (.accNop hi b0) s = .next { s with reply := .silent }

/-- R28, R84, R119, R124 (D18): a request-use sets bits 7 and 5 of the access register, and a write
without it changes nothing. -/
def Obligations.RequestUseGrantsLocality : Prop :=
  ∀ (s : State) (v : Byte) (hi : BitVec 6) (b0 : BitVec 1),
    exec (.wrAccess v) s = .next { s with
      dev := { s.dev with
        access := if v.getLsbD 1 then s.dev.access ||| 0xA0 else s.dev.access }
      reply := .silent } ∧
    exec (.accRequestUse hi b0) s = .next { s with
      dev := { s.dev with access := s.dev.access ||| 0xA0 }
      reply := .silent }

/-- R122: abort where bit 6 is set, then go where bit 5 is set. -/
def Obligations.StatusWriteAbortsThenGoes : Prop :=
  ∀ (s : State) (v : Byte),
    (∃ r, exec (.wrSts0 v) s = .next { s with
      dev :=
        let d := if v.getLsbD 6 then s.dev.abort Config.hw else s.dev
        if v.getLsbD 5 then d.go Config.hw else d
      reply := r }) ∧
    (∃ r, exec (.wrSts0 0x60) s = .next { s with dev := s.dev.abort Config.hw, reply := r }) ∧
    ∃ r, exec (.wrSts0 0x00) s = .next { s with reply := r }

/-- R83, R84 (log 11): the sub-decodes of a status or access value do what the write of that value
does. -/
def Obligations.SubDecodesAreTheirWrites : Prop :=
  ∀ (s : State) (v : Byte),
    exec (decodeStsw v) s = exec (.wrSts0 v) s ∧ exec (decodeAccw v) s = exec (.wrAccess v) s

/-- R81, R115, R117, R118: at every address the table's row and the register file's entry points do the
same, and every access completes. -/
def Obligations.AccessRowsAgreeWithTheRegisterMap : Prop :=
  ∀ (s : State) (a : Nat) (v : Byte),
    exec (accessRow .read a v) s = .next { s with
      dev := (s.dev.memRead Config.hw a).1
      reply := .bytes [(s.dev.memRead Config.hw a).2] } ∧
    exec (accessRow .write a v) s = .next { s with
      dev := s.dev.memWrite Config.hw a v
      reply := .silent }

/-- R51, R80, R116 (D9, D12): the whole address counts, sums above 0xFFFF too: a data byte at or above
0x1000 only counts, and a read of it is 0xFF. -/
def Obligations.AddressesAboveTheWindowAreUnknown : Prop :=
  ∀ (s : State) (m : Byte), s.dev.sel = true → s.dev.hdrCnt = 4 → s.dev.offset < s.dev.len →
    0x1000 ≤ s.dev.addr.toNat + s.dev.offset →
    (s.dev.dir = .read → exec (.wireByteDataRd m) s = .next { s with
      dev := { s.dev with offset := s.dev.offset + 1 }
      reply := .bytes [0xFF] }) ∧
    (s.dev.dir = .write → exec (.wireByteDataWr m) s = .next { s with
      dev := { s.dev with offset := s.dev.offset + 1 }
      reply := .bytes [Config.hw.fillByte] })

/-- R50: "Only the data phase of a transaction reaches this space". CS_BEGIN, CS_END and a byte outside
the data phase leave the registers, the command state and both buffers as they are; and an access
that the host issues (log 11) is what the wire makes of CS_BEGIN, the four bytes of a one-byte
header, the data byte and CS_END, a read answering the data byte's miso. -/
def Obligations.OnlyTheDataPhaseReachesTheRegisters : Prop :=
  (∀ (s : State) (i : Instr),
    (i = .wireBegin ∨ i = .wireEnd ∨ ∃ m, i = decodeByte s.dev.byteCase m ∧
      s.dev.byteCase ≠ .dataRd ∧ s.dev.byteCase ≠ .dataWr) →
    ∃ t, exec i s = .next t ∧ t.eng = s.eng ∧ t.dev = { s.dev with
      sel := t.dev.sel
      hdr := t.dev.hdr
      hdrCnt := t.dev.hdrCnt
      dir := t.dev.dir
      len := t.dev.len
      addr := t.dev.addr
      offset := t.dev.offset }) ∧
  ∀ (s : State) (r : Request) (rest : List Request) (dir : Dir) (a : BitVec 16) (v : Byte),
    s.eng.call = none → s.host = r :: rest →
    (∃ w, r = .acc w v ∧ dir = (if w.getLsbD 16 then .read else .write) ∧
        a = w.extractLsb' 0 16) ∨
      (r = .stsw v ∧ dir = .write ∧ a = 0x0018) ∨ (r = .accw v ∧ dir = .write ∧ a = 0x0000) →
    ∃ (t : State) (m0 m1 m2 m3 m : Byte),
      ({ s with host := rest } : State).wireBegin.wireBytes Config.hw Config.draws
        (headerBytes (hdrWord dir 0 0 0xD4 a) ++ [v]) = (t, [m0, m1, m2, m3, m]) ∧
      step s = .next { t.wireEnd with
        reply := match dir with | .read => .bytes [m] | .write => .silent }

/-- R133 (D19): no access but those of the access register itself depends on the grant or changes
it. -/
def Obligations.AccessesNeedNoGrant : Prop :=
  ∀ (s t : State) (i : Instr) (x : Byte),
    (∃ (a : Nat) (v : Byte), a ≠ 0 ∧ (i = accessRow .read a v ∨ i = accessRow .write a v)) ∨
      (∃ v, i = decodeStsw v) ∨ i = .init →
    exec i s = .next t →
      t.dev.access = s.dev.access ∧
        exec i { s with dev := { s.dev with access := x } } =
          .next { t with dev := { t.dev with access := x } }

/-! ### The command state machine -/

/-- R152 (D25): abort, from every state, leaving the parser and the access register alone. -/
def Obligations.AbortReturnsToReady : Prop :=
  ∀ (s : State) (b7 : BitVec 1) (lo : BitVec 5), exec (.stsAbort b7 lo) s = .next { s with
    dev := { s.dev with
      cmd := []
      rsp := []
      rspCursor := 0
      state := .ready
      burst := Config.hw.burstDefault
      cmdReady := true
      dataAvail := false
      dataExpect := false }
    reply := .silent }

/-- R150: go is taken in Reception with a complete command, and in no other case. -/
def Obligations.GoNeedsACompleteCommand : Prop :=
  ∀ (s : State) (b7 : BitVec 1) (lo : BitVec 5),
    (s.dev.state = .reception → CommandComplete s.dev.cmd →
      1 ≤ (Config.hw.respond s.dev.cmd).length ∧
      (Config.hw.respond s.dev.cmd).length ≤ Config.hw.rspCapacity ∧
      ∃ r, exec (.stsGo b7 lo) s = .next { s with
        dev := { s.dev with
          rsp := Config.hw.respond s.dev.cmd
          rspCursor := 0
          state := .completion
          dataAvail := true
          dataExpect := false }
        reply := r }) ∧
    (¬ (s.dev.state = .reception ∧ CommandComplete s.dev.cmd) →
      ∃ r, exec (.stsGo b7 lo) s = .next { s with reply := r })

/-- R153, R204 (D26): both bits in one value act as a plain abort, whatever the command. -/
def Obligations.AbortAndGoIsAnAbort : Prop :=
  ∀ (s : State) (b7 : BitVec 1) (lo : BitVec 5), exec (.stsAbortGo b7 lo) s = .next { s with
    dev := { s.dev with
      cmd := []
      rsp := []
      rspCursor := 0
      state := .ready
      burst := Config.hw.burstDefault
      cmdReady := true
      dataAvail := false
      dataExpect := false }
    reply := .silent }

/-- R142 (D20): INIT moves Idle to Ready and sets command-ready; elsewhere it does nothing. -/
def Obligations.InitMovesIdleToReady : Prop :=
  ∀ s : State,
    (s.dev.state = .idle → exec .init s = .next { s with
      dev := { s.dev with state := .ready, cmdReady := true }
      reply := .silent }) ∧
    (s.dev.state ≠ .idle → exec .init s = .next { s with reply := .silent })

/-- R143, R144 (D21): a FIFO write in Ready starts a reception and is its first byte. -/
def Obligations.FifoWriteInReadyStartsReception : Prop :=
  ∀ (s : State) (a : Nat) (v : Byte), s.dev.state = .ready → exec (.wrFifo a v) s =
    .next { s with
      dev := { s.dev with
        cmd := [v]
        dataExpect := true
        cmdReady := false
        state := .reception }
      reply := .silent }

/-- R143, R145, R146, R148 (D22): a FIFO write in an open reception appends, and clears data-expect with
the byte that completes the command; at capacity the byte is dropped. -/
def Obligations.FifoWriteInReceptionAppends : Prop :=
  ∀ (s : State) (a : Nat) (v : Byte), s.dev.state = .reception → s.dev.dataExpect = true →
    (s.dev.cmd.length ≠ Config.hw.cmdCapacity → CommandComplete (s.dev.cmd ++ [v]) →
      exec (.wrFifo a v) s = .next { s with
        dev := { s.dev with cmd := s.dev.cmd ++ [v], dataExpect := false }
        reply := .silent }) ∧
    (s.dev.cmd.length ≠ Config.hw.cmdCapacity → ¬ CommandComplete (s.dev.cmd ++ [v]) →
      exec (.wrFifo a v) s = .next { s with
        dev := { s.dev with cmd := s.dev.cmd ++ [v] }
        reply := .silent }) ∧
    (s.dev.cmd.length = Config.hw.cmdCapacity →
      exec (.wrFifo a v) s = .next { s with reply := .silent })

/-- R143, R149 (D23, D24): the FIFO writes that are ignored. -/
def Obligations.OtherFifoWritesAreIgnored : Prop :=
  ∀ (s : State) (a : Nat) (v : Byte),
    (s.dev.state = .idle ∨ s.dev.state = .execution ∨ s.dev.state = .completion ∨
      (s.dev.state = .reception ∧ s.dev.dataExpect = false)) →
    exec (.wrFifo a v) s = .next { s with reply := .silent }

/-- R154, R155: a FIFO read in Completion gives the next response byte; the read of the last one moves
to Ready and still returns it; any other FIFO read gives the sentinel and changes nothing, and given
R41 that is every read outside Completion and no other. -/
def Obligations.FifoReadDrainsTheResponse : Prop :=
  ∀ (s : State) (a : Nat),
    (∀ h : s.dev.rspCursor < s.dev.rsp.length, s.dev.state = .completion →
      s.dev.rspCursor + 1 ≠ s.dev.rsp.length →
      exec (.rdFifo a) s = .next { s with
        dev := { s.dev with rspCursor := s.dev.rspCursor + 1 }
        reply := .bytes [s.dev.rsp[s.dev.rspCursor]] }) ∧
    (∀ h : s.dev.rspCursor < s.dev.rsp.length, s.dev.state = .completion →
      s.dev.rspCursor + 1 = s.dev.rsp.length →
      exec (.rdFifo a) s = .next { s with
        dev := { s.dev with
          state := .ready
          dataAvail := false
          cmdReady := true
          rsp := []
          rspCursor := 0 }
        reply := .bytes [s.dev.rsp[s.dev.rspCursor]] }) ∧
    (s.dev.state ≠ .completion ∨ s.dev.rsp.length ≤ s.dev.rspCursor →
      exec (.rdFifo a) s = .next { s with reply := .bytes [0xFF] }) ∧
    (s.Inv Config.hw → s.dev.state = .completion → s.dev.rspCursor < s.dev.rsp.length)

/-- R128, R129: every address of the window reaches the one endpoint, reading and writing. -/
def Obligations.FifoAddressDoesNotMatter : Prop :=
  ∀ (s : State) (a b : Nat) (v : Byte),
    0x0024 ≤ a → a ≤ 0x0EFF → 0x0024 ≤ b → b ≤ 0x0EFF →
    accessRow .read a v = .rdFifo a ∧ accessRow .write a v = .wrFifo a v ∧
      exec (.rdFifo a) s = exec (.rdFifo b) s ∧ exec (.wrFifo a v) s = exec (.wrFifo b v) s

/-- R145, R147, R148 (D21, D22): from Ready, FIFO writes of a run of bytes that does not outrun its
own declared length buffer exactly those bytes, and data-expect is clear exactly when they are a
complete command. -/
def Obligations.ReceptionBuffersTheCommand : Prop :=
  ∀ (s : State) (ps : List (Nat × Byte)), s.dev.state = .ready → ps ≠ [] →
    ps.length ≤ Config.hw.cmdCapacity →
    (6 ≤ ps.length → ps.length ≤ max 6 (declaredNat (ps.map Prod.snd))) →
    ∃ expect : Bool,
      execAll (ps.map fun p => .wrFifo p.1 p.2) s = some
        ({ s with
            dev := { s.dev with
              state := .reception
              cmdReady := false
              cmd := ps.map Prod.snd
              dataExpect := expect }
            reply := .silent },
          ps.map fun _ => .silent) ∧
      (expect = false ↔ CommandComplete (ps.map Prod.snd))

/-- R158 with R144 to R155: a whole command cycle. A command that ends where its declared length says is
written in Ready, go is given, and as many FIFO reads as the responder's answer has bytes return
that answer in order and leave Ready again. -/
def Obligations.CommandCycleReturnsTheResponse : Prop :=
  ∀ (s : State) (ps : List (Nat × Byte)) (reads : List Nat) (b7 : BitVec 1) (lo : BitVec 5),
    s.dev.state = .ready → ps.length ≤ Config.hw.cmdCapacity →
    CommandComplete (ps.map Prod.snd) → ps.length ≤ max 6 (declaredNat (ps.map Prod.snd)) →
    reads.length = (Config.hw.respond (ps.map Prod.snd)).length →
    execAll ((ps.map fun p => .wrFifo p.1 p.2) ++ [.stsGo b7 lo] ++ reads.map .rdFifo) s =
      some
        ({ s with
            dev := { s.dev with
              state := .ready
              cmdReady := true
              dataAvail := false
              dataExpect := false
              cmd := ps.map Prod.snd
              rsp := []
              rspCursor := 0 }
            reply := .bytes
              [(Config.hw.respond (ps.map Prod.snd)).getLast (List.cons_ne_nil _ _)] },
          (ps.map fun _ => .silent) ++ [.silent] ++
            (Config.hw.respond (ps.map Prod.snd)).map fun b => .bytes [b])

/-- R140: one event or access moves D.state along one row of the table or not at all. -/
def Obligations.OneEventFollowsTheTransitionTable : Prop :=
  ∀ (s t : State) (i : Instr), oneEvent i = true → exec i s = .next t →
    t.dev.state = s.dev.state ∨ CmdState.Listed s.dev.state t.dev.state

/-- R140, R141, R151 (D27), of the whole machine and every step: Idle and Execution are never
entered. -/
def Obligations.NoStepEntersIdleOrExecution : Prop :=
  ∀ s t : State, step s = .next t →
    (t.dev.state = .idle → s.dev.state = .idle) ∧
      (t.dev.state = .execution → s.dev.state = .execution)

/-- R28, R124 (D18), of the whole machine and every step: the access register is kept, or gains the two
grant bits; nothing clears a bit of it. -/
def Obligations.NoStepRevokesTheGrant : Prop :=
  ∀ s t : State, step s = .next t →
    t.dev.access = s.dev.access ∨ t.dev.access = s.dev.access ||| 0xA0

/-! ### The transfer call -/

/-- R170, R188: with the engine at rest, every call the host may make returns, whatever its flags and
whatever the shifter does, within its poll budgets (the model's constant is log 23). -/
def Obligations.EveryCallReturnsWithinItsPollBudget : Prop :=
  ∀ (s : State) (n : Nat) (out inBuf : List Byte), s.eng.AtRest → n ≤ out.length →
    n ≤ inBuf.length →
    ∀ i ∈ [Instr.xferBE (8 * n) out inBuf, Instr.xferB (8 * n) out inBuf,
        Instr.xferC (8 * n) out inBuf, Instr.xferE (8 * n) out inBuf],
      ∃ t, exec i s = .next t ∧ t.eng.AtRest ∧ t.host = s.host ∧
        (∃ status j buf, t.reply = .transfer status j buf) ∧
        s.schedDraws ≤ t.schedDraws ∧
        t.schedDraws ≤ s.schedDraws +
          (n * Config.hw.txPollLimit + Config.hw.donePollLimit + 2)

/-- R172, R174, R176, R179 to R181, R184: what each of the four calls leaves: the Ok result, or, for
n > 0, the timeout result of some number of exchanges. -/
def Obligations.CallLeavesOneOfItsTwoResults : Prop :=
  ∀ (s : State) (n : Nat) (out inBuf : List Byte), s.eng.AtRest → n ≤ out.length →
    n ≤ inBuf.length →
    (∃ t, exec (.xferBE (8 * n) out inBuf) s = .next t ∧
      s.CallOutcome Config.hw Config.draws true true n out inBuf t) ∧
    (∃ t, exec (.xferB (8 * n) out inBuf) s = .next t ∧
      s.CallOutcome Config.hw Config.draws true false n out inBuf t) ∧
    (∃ t, exec (.xferC (8 * n) out inBuf) s = .next t ∧
      s.CallOutcome Config.hw Config.draws false false n out inBuf t) ∧
    (∃ t, exec (.xferE (8 * n) out inBuf) s = .next t ∧
      s.CallOutcome Config.hw Config.draws false true n out inBuf t)

/-- R174, R188: two runs of one call that both return Ok leave the same state, whatever the two shifter
schedules, but for the model's own count of draws. -/
def Obligations.ScheduleDoesNotShowInAnOkCall : Prop :=
  ∀ (P : Params) (F G : Draws) (s t u : State) (b e : Bool) (n : Nat) (out inBuf : List Byte),
    F.misoIdle = G.misoIdle → s.eng.AtRest →
    s.transfer P F b e (8 * n) out inBuf = .next t →
    s.transfer P G b e (8 * n) out inBuf = .next u → t.CallOk → u.CallOk →
    u = { t with schedDraws := u.schedDraws }

/-- R177, R178, R181: with a shifter that never steps, a call of at least one byte times out with
nothing exchanged, in[] unchanged and the device deselected. -/
def Obligations.StoppedShifterTimesOut : Prop :=
  ∀ (P : Params) (F : Draws) (s : State) (b e : Bool) (n : Nat) (out inBuf : List Byte),
    (∀ k, F.shifterSteps k = 0) → s.eng.AtRest → 0 < n → n ≤ out.length → n ≤ inBuf.length →
    ∃ t, s.transfer P F b e (8 * n) out inBuf = .next t ∧
      t.SameButSched (s.timeoutResult P F b 0 out inBuf) ∧
      t.reply = .transfer .timeout 0 inBuf ∧ t.eng.cs = false ∧ t.dev.sel = false

/-- R177, R178: with a shifter that runs whenever it can, every call returns Ok. -/
def Obligations.EagerShifterReturnsOk : Prop :=
  ∀ (P : Params) (F : Draws) (s : State) (b e : Bool) (n : Nat) (out inBuf : List Byte),
    (∀ k, P.fifoDepth ≤ F.shifterSteps k) → s.eng.AtRest → n ≤ out.length → n ≤ inBuf.length →
    ∃ t, s.transfer P F b e (8 * n) out inBuf = .next t ∧
      t.SameButSched (s.okResult P F b e n out inBuf)

/-- R181, R184, R205: after a return, in[] past the received bytes is as it was; after a timeout
chip-select is low and no transaction is open. -/
def Obligations.TimeoutDeselectsAndKeepsTheRestOfIn : Prop :=
  ∀ (P : Params) (F : Draws) (s t : State) (b e : Bool) (n : Nat) (out inBuf : List Byte)
    (status : Status) (j : Nat) (buf : List Byte),
    s.eng.AtRest → s.transfer P F b e (8 * n) out inBuf = .next t →
    t.reply = .transfer status j buf →
    j ≤ n ∧ buf.length = inBuf.length ∧ buf.drop j = inBuf.drop j ∧
      (status = .ok → j = n) ∧
      (status = .timeout → 0 < n ∧ t.eng.cs = false ∧ t.dev.sel = false ∧ t.dev.hdrCnt = 0)

/-- R172, R180, R182: the calls of no byte, by their flags: they only open or close the transaction,
and return Ok. -/
def Obligations.ZeroLengthCallsOnlyMoveChipSelect : Prop :=
  ∀ (s : State) (out inBuf : List Byte), s.eng.AtRest →
    (∃ k, exec (.xferBE 0 out inBuf) s = .next { s with
      dev := { s.dev with sel := false, hdrCnt := 0 }
      eng := { s.eng with cs := false }
      reply := .transfer .ok 0 inBuf
      schedDraws := k }) ∧
    (∃ k, exec (.xferB 0 out inBuf) s = .next { s with
      dev := { s.dev with sel := true, hdrCnt := 0 }
      eng := { s.eng with cs := true }
      reply := .transfer .ok 0 inBuf
      schedDraws := k }) ∧
    (∃ k, exec (.xferC 0 out inBuf) s = .next { s with
      reply := .transfer .ok 0 inBuf
      schedDraws := k }) ∧
    (∃ k, exec (.xferE 0 out inBuf) s = .next { s with
      dev := { s.dev with sel := false, hdrCnt := 0 }
      eng := { s.eng with cs := false }
      reply := .transfer .ok 0 inBuf
      schedDraws := k })

/-- R171, R185 (D33, D35, D39): the calls a host must not make are refused, by name. -/
def Obligations.IllegalCallsAreRefused : Prop :=
  ∀ (s : State) (m : Nat) (out inBuf : List Byte),
    ∀ i ∈ [Instr.xferBE m out inBuf, Instr.xferB m out inBuf, Instr.xferC m out inBuf,
        Instr.xferE m out inBuf],
      (m % 8 ≠ 0 → exec i s = .refused (.badBitLength m)) ∧
      (m % 8 = 0 → s.eng.call ≠ none → exec i s = .refused .overlappingCall) ∧
      (m % 8 = 0 → s.eng.call = none → out.length < m / 8 ∨ inBuf.length < m / 8 →
        exec i s = .refused .shortBuffer)

/-- R174, R183 (D36): a call without Begin while the device is deselected leaves the device alone and
receives one draw for every byte exchanged. -/
def Obligations.CallWithoutBeginReachesNoDevice : Prop :=
  ∀ (s : State) (n : Nat) (out inBuf : List Byte), s.Inv Config.hw → s.eng.call = none →
    s.dev.sel = false → n ≤ out.length → n ≤ inBuf.length →
    ∀ i ∈ [Instr.xferC (8 * n) out inBuf, Instr.xferE (8 * n) out inBuf],
      ∃ t status j, exec i s = .next t ∧ t.dev = s.dev ∧ t.misoDraws = s.misoDraws + j ∧
        t.reply = .transfer status j
          ((List.range j).map (fun x => Config.draws.misoIdle (s.misoDraws + x)) ++
            inBuf.drop j)

/-- R107, R186: a transaction split over two calls is the transaction of one call, whether the second
call ends it (XFER_E) or leaves it open (XFER_C). -/
def Obligations.SplitTransactionActsAsOneCall : Prop :=
  ∀ (P : Params) (F : Draws) (s t1 t2 t3 : State) (e : Bool) (out1 out2 in1 in2 : List Byte),
    s.eng.AtRest → in1.length = out1.length → in2.length = out2.length →
    s.transfer P F true false (8 * out1.length) out1 in1 = .next t1 → t1.CallOk →
    t1.transfer P F false e (8 * out2.length) out2 in2 = .next t2 → t2.CallOk →
    s.transfer P F true e (8 * (out1.length + out2.length)) (out1 ++ out2) (in1 ++ in2) =
      .next t3 → t3.CallOk →
    t1.eng.cs = true ∧ t1.dev.sel = true ∧ t2.eng.cs = !e ∧ t2.dev.sel = !e ∧
      t2.dev = t3.dev ∧ t2.eng = t3.eng ∧ t2.host = t3.host ∧ t2.misoDraws = t3.misoDraws ∧
      ∃ a b, t1.reply = .transfer .ok out1.length a ∧ t2.reply = .transfer .ok out2.length b ∧
        t3.reply = .transfer .ok (out1.length + out2.length) (a ++ b)

end Statements
end

