-- ==== Sys2Proof/Laws/State.lean ====
section
/-! SUPPORT. One lemma per field of the state per named update, and the laws of the updates together. -/

namespace Sys2Proof.Machine

@[simp] theorem State.setDev_dev (s : State) (d : Device) : (s.setDev d).dev = d := rfl
@[simp] theorem State.setDev_eng (s : State) (d : Device) : (s.setDev d).eng = s.eng := rfl
@[simp] theorem State.setDev_host (s : State) (d : Device) : (s.setDev d).host = s.host := rfl
@[simp] theorem State.setDev_reply (s : State) (d : Device) : (s.setDev d).reply = s.reply := rfl
@[simp] theorem State.setDev_misoDraws (s : State) (d : Device) : (s.setDev d).misoDraws = s.misoDraws := rfl
@[simp] theorem State.setDev_schedDraws (s : State) (d : Device) : (s.setDev d).schedDraws = s.schedDraws := rfl

@[simp] theorem State.setEng_dev (s : State) (e : Engine) : (s.setEng e).dev = s.dev := rfl
@[simp] theorem State.setEng_eng (s : State) (e : Engine) : (s.setEng e).eng = e := rfl
@[simp] theorem State.setEng_host (s : State) (e : Engine) : (s.setEng e).host = s.host := rfl
@[simp] theorem State.setEng_reply (s : State) (e : Engine) : (s.setEng e).reply = s.reply := rfl
@[simp] theorem State.setEng_misoDraws (s : State) (e : Engine) : (s.setEng e).misoDraws = s.misoDraws := rfl
@[simp] theorem State.setEng_schedDraws (s : State) (e : Engine) : (s.setEng e).schedDraws = s.schedDraws := rfl

@[simp] theorem State.setHost_dev (s : State) (h : List Request) : (s.setHost h).dev = s.dev := rfl
@[simp] theorem State.setHost_eng (s : State) (h : List Request) : (s.setHost h).eng = s.eng := rfl
@[simp] theorem State.setHost_host (s : State) (h : List Request) : (s.setHost h).host = h := rfl
@[simp] theorem State.setHost_reply (s : State) (h : List Request) : (s.setHost h).reply = s.reply := rfl
@[simp] theorem State.setHost_misoDraws (s : State) (h : List Request) : (s.setHost h).misoDraws = s.misoDraws := rfl
@[simp] theorem State.setHost_schedDraws (s : State) (h : List Request) : (s.setHost h).schedDraws = s.schedDraws := rfl

@[simp] theorem State.setReply_dev (s : State) (r : Reply) : (s.setReply r).dev = s.dev := rfl
@[simp] theorem State.setReply_eng (s : State) (r : Reply) : (s.setReply r).eng = s.eng := rfl
@[simp] theorem State.setReply_host (s : State) (r : Reply) : (s.setReply r).host = s.host := rfl
@[simp] theorem State.setReply_reply (s : State) (r : Reply) : (s.setReply r).reply = r := rfl
@[simp] theorem State.setReply_misoDraws (s : State) (r : Reply) : (s.setReply r).misoDraws = s.misoDraws := rfl
@[simp] theorem State.setReply_schedDraws (s : State) (r : Reply) : (s.setReply r).schedDraws = s.schedDraws := rfl

@[simp] theorem State.countMiso_dev (s : State) : s.countMiso.dev = s.dev := rfl
@[simp] theorem State.countMiso_eng (s : State) : s.countMiso.eng = s.eng := rfl
@[simp] theorem State.countMiso_host (s : State) : s.countMiso.host = s.host := rfl
@[simp] theorem State.countMiso_reply (s : State) : s.countMiso.reply = s.reply := rfl
@[simp] theorem State.countMiso_misoDraws (s : State) : s.countMiso.misoDraws = s.misoDraws + 1 := rfl
@[simp] theorem State.countMiso_schedDraws (s : State) : s.countMiso.schedDraws = s.schedDraws := rfl

@[simp] theorem State.countSched_dev (s : State) : s.countSched.dev = s.dev := rfl
@[simp] theorem State.countSched_eng (s : State) : s.countSched.eng = s.eng := rfl
@[simp] theorem State.countSched_host (s : State) : s.countSched.host = s.host := rfl
@[simp] theorem State.countSched_reply (s : State) : s.countSched.reply = s.reply := rfl
@[simp] theorem State.countSched_misoDraws (s : State) : s.countSched.misoDraws = s.misoDraws := rfl
@[simp] theorem State.countSched_schedDraws (s : State) : s.countSched.schedDraws = s.schedDraws + 1 := rfl

@[simp] theorem State.setDev_self (s : State) : s.setDev s.dev = s := rfl
@[simp] theorem State.setDev_setDev (s : State) (x y : Device) : (s.setDev x).setDev y = s.setDev y := rfl
@[simp] theorem State.setEng_self (s : State) : s.setEng s.eng = s := rfl
@[simp] theorem State.setEng_setEng (s : State) (x y : Engine) : (s.setEng x).setEng y = s.setEng y := rfl
@[simp] theorem State.setHost_self (s : State) : s.setHost s.host = s := rfl
@[simp] theorem State.setHost_setHost (s : State) (x y : List Request) : (s.setHost x).setHost y = s.setHost y := rfl
@[simp] theorem State.setReply_self (s : State) : s.setReply s.reply = s := rfl
@[simp] theorem State.setReply_setReply (s : State) (x y : Reply) : (s.setReply x).setReply y = s.setReply y := rfl

@[simp] theorem Device.csBegin_state (d : Device) : (d.csBegin).state = d.state := rfl
@[simp] theorem Device.csBegin_cmdReady (d : Device) : (d.csBegin).cmdReady = d.cmdReady := rfl
@[simp] theorem Device.csBegin_dataAvail (d : Device) : (d.csBegin).dataAvail = d.dataAvail := rfl
@[simp] theorem Device.csBegin_dataExpect (d : Device) : (d.csBegin).dataExpect = d.dataExpect := rfl
@[simp] theorem Device.csBegin_burst (d : Device) : (d.csBegin).burst = d.burst := rfl
@[simp] theorem Device.csBegin_access (d : Device) : (d.csBegin).access = d.access := rfl
@[simp] theorem Device.csBegin_cmd (d : Device) : (d.csBegin).cmd = d.cmd := rfl
@[simp] theorem Device.csBegin_rsp (d : Device) : (d.csBegin).rsp = d.rsp := rfl
@[simp] theorem Device.csBegin_rspCursor (d : Device) : (d.csBegin).rspCursor = d.rspCursor := rfl
@[simp] theorem Device.csBegin_sel (d : Device) : (d.csBegin).sel = true := rfl
@[simp] theorem Device.csBegin_hdr (d : Device) : (d.csBegin).hdr = d.hdr := rfl
@[simp] theorem Device.csBegin_hdrCnt (d : Device) : (d.csBegin).hdrCnt = 0 := rfl
@[simp] theorem Device.csBegin_dir (d : Device) : (d.csBegin).dir = d.dir := rfl
@[simp] theorem Device.csBegin_len (d : Device) : (d.csBegin).len = d.len := rfl
@[simp] theorem Device.csBegin_addr (d : Device) : (d.csBegin).addr = d.addr := rfl
@[simp] theorem Device.csBegin_offset (d : Device) : (d.csBegin).offset = d.offset := rfl

@[simp] theorem Device.csEnd_state (d : Device) : (d.csEnd).state = d.state := rfl
@[simp] theorem Device.csEnd_cmdReady (d : Device) : (d.csEnd).cmdReady = d.cmdReady := rfl
@[simp] theorem Device.csEnd_dataAvail (d : Device) : (d.csEnd).dataAvail = d.dataAvail := rfl
@[simp] theorem Device.csEnd_dataExpect (d : Device) : (d.csEnd).dataExpect = d.dataExpect := rfl
@[simp] theorem Device.csEnd_burst (d : Device) : (d.csEnd).burst = d.burst := rfl
@[simp] theorem Device.csEnd_access (d : Device) : (d.csEnd).access = d.access := rfl
@[simp] theorem Device.csEnd_cmd (d : Device) : (d.csEnd).cmd = d.cmd := rfl
@[simp] theorem Device.csEnd_rsp (d : Device) : (d.csEnd).rsp = d.rsp := rfl
@[simp] theorem Device.csEnd_rspCursor (d : Device) : (d.csEnd).rspCursor = d.rspCursor := rfl
@[simp] theorem Device.csEnd_sel (d : Device) : (d.csEnd).sel = false := rfl
@[simp] theorem Device.csEnd_hdr (d : Device) : (d.csEnd).hdr = d.hdr := rfl
@[simp] theorem Device.csEnd_hdrCnt (d : Device) : (d.csEnd).hdrCnt = 0 := rfl
@[simp] theorem Device.csEnd_dir (d : Device) : (d.csEnd).dir = d.dir := rfl
@[simp] theorem Device.csEnd_len (d : Device) : (d.csEnd).len = d.len := rfl
@[simp] theorem Device.csEnd_addr (d : Device) : (d.csEnd).addr = d.addr := rfl
@[simp] theorem Device.csEnd_offset (d : Device) : (d.csEnd).offset = d.offset := rfl

@[simp] theorem Device.bumpOffset_state (d : Device) : (d.bumpOffset).state = d.state := rfl
@[simp] theorem Device.bumpOffset_cmdReady (d : Device) : (d.bumpOffset).cmdReady = d.cmdReady := rfl
@[simp] theorem Device.bumpOffset_dataAvail (d : Device) : (d.bumpOffset).dataAvail = d.dataAvail := rfl
@[simp] theorem Device.bumpOffset_dataExpect (d : Device) : (d.bumpOffset).dataExpect = d.dataExpect := rfl
@[simp] theorem Device.bumpOffset_burst (d : Device) : (d.bumpOffset).burst = d.burst := rfl
@[simp] theorem Device.bumpOffset_access (d : Device) : (d.bumpOffset).access = d.access := rfl
@[simp] theorem Device.bumpOffset_cmd (d : Device) : (d.bumpOffset).cmd = d.cmd := rfl
@[simp] theorem Device.bumpOffset_rsp (d : Device) : (d.bumpOffset).rsp = d.rsp := rfl
@[simp] theorem Device.bumpOffset_rspCursor (d : Device) : (d.bumpOffset).rspCursor = d.rspCursor := rfl
@[simp] theorem Device.bumpOffset_sel (d : Device) : (d.bumpOffset).sel = d.sel := rfl
@[simp] theorem Device.bumpOffset_hdr (d : Device) : (d.bumpOffset).hdr = d.hdr := rfl
@[simp] theorem Device.bumpOffset_hdrCnt (d : Device) : (d.bumpOffset).hdrCnt = d.hdrCnt := rfl
@[simp] theorem Device.bumpOffset_dir (d : Device) : (d.bumpOffset).dir = d.dir := rfl
@[simp] theorem Device.bumpOffset_len (d : Device) : (d.bumpOffset).len = d.len := rfl
@[simp] theorem Device.bumpOffset_addr (d : Device) : (d.bumpOffset).addr = d.addr := rfl
@[simp] theorem Device.bumpOffset_offset (d : Device) : (d.bumpOffset).offset = d.offset + 1 := rfl

@[simp] theorem Device.grant_state (d : Device) : (d.grant).state = d.state := rfl
@[simp] theorem Device.grant_cmdReady (d : Device) : (d.grant).cmdReady = d.cmdReady := rfl
@[simp] theorem Device.grant_dataAvail (d : Device) : (d.grant).dataAvail = d.dataAvail := rfl
@[simp] theorem Device.grant_dataExpect (d : Device) : (d.grant).dataExpect = d.dataExpect := rfl
@[simp] theorem Device.grant_burst (d : Device) : (d.grant).burst = d.burst := rfl
@[simp] theorem Device.grant_access (d : Device) : (d.grant).access = d.access ||| accGranted := rfl
@[simp] theorem Device.grant_cmd (d : Device) : (d.grant).cmd = d.cmd := rfl
@[simp] theorem Device.grant_rsp (d : Device) : (d.grant).rsp = d.rsp := rfl
@[simp] theorem Device.grant_rspCursor (d : Device) : (d.grant).rspCursor = d.rspCursor := rfl
@[simp] theorem Device.grant_sel (d : Device) : (d.grant).sel = d.sel := rfl
@[simp] theorem Device.grant_hdr (d : Device) : (d.grant).hdr = d.hdr := rfl
@[simp] theorem Device.grant_hdrCnt (d : Device) : (d.grant).hdrCnt = d.hdrCnt := rfl
@[simp] theorem Device.grant_dir (d : Device) : (d.grant).dir = d.dir := rfl
@[simp] theorem Device.grant_len (d : Device) : (d.grant).len = d.len := rfl
@[simp] theorem Device.grant_addr (d : Device) : (d.grant).addr = d.addr := rfl
@[simp] theorem Device.grant_offset (d : Device) : (d.grant).offset = d.offset := rfl

@[simp] theorem Device.abort_state (P : Params) (d : Device) : (d.abort P).state = .ready := rfl
@[simp] theorem Device.abort_cmdReady (P : Params) (d : Device) : (d.abort P).cmdReady = true := rfl
@[simp] theorem Device.abort_dataAvail (P : Params) (d : Device) : (d.abort P).dataAvail = false := rfl
@[simp] theorem Device.abort_dataExpect (P : Params) (d : Device) : (d.abort P).dataExpect = false := rfl
@[simp] theorem Device.abort_burst (P : Params) (d : Device) : (d.abort P).burst = P.burstDefault := rfl
@[simp] theorem Device.abort_access (P : Params) (d : Device) : (d.abort P).access = d.access := rfl
@[simp] theorem Device.abort_cmd (P : Params) (d : Device) : (d.abort P).cmd = [] := rfl
@[simp] theorem Device.abort_rsp (P : Params) (d : Device) : (d.abort P).rsp = [] := rfl
@[simp] theorem Device.abort_rspCursor (P : Params) (d : Device) : (d.abort P).rspCursor = 0 := rfl
@[simp] theorem Device.abort_sel (P : Params) (d : Device) : (d.abort P).sel = d.sel := rfl
@[simp] theorem Device.abort_hdr (P : Params) (d : Device) : (d.abort P).hdr = d.hdr := rfl
@[simp] theorem Device.abort_hdrCnt (P : Params) (d : Device) : (d.abort P).hdrCnt = d.hdrCnt := rfl
@[simp] theorem Device.abort_dir (P : Params) (d : Device) : (d.abort P).dir = d.dir := rfl
@[simp] theorem Device.abort_len (P : Params) (d : Device) : (d.abort P).len = d.len := rfl
@[simp] theorem Device.abort_addr (P : Params) (d : Device) : (d.abort P).addr = d.addr := rfl
@[simp] theorem Device.abort_offset (P : Params) (d : Device) : (d.abort P).offset = d.offset := rfl

@[simp] theorem Device.drained_state (d : Device) : (d.drained).state = .ready := rfl
@[simp] theorem Device.drained_cmdReady (d : Device) : (d.drained).cmdReady = true := rfl
@[simp] theorem Device.drained_dataAvail (d : Device) : (d.drained).dataAvail = false := rfl
@[simp] theorem Device.drained_dataExpect (d : Device) : (d.drained).dataExpect = d.dataExpect := rfl
@[simp] theorem Device.drained_burst (d : Device) : (d.drained).burst = d.burst := rfl
@[simp] theorem Device.drained_access (d : Device) : (d.drained).access = d.access := rfl
@[simp] theorem Device.drained_cmd (d : Device) : (d.drained).cmd = d.cmd := rfl
@[simp] theorem Device.drained_rsp (d : Device) : (d.drained).rsp = [] := rfl
@[simp] theorem Device.drained_rspCursor (d : Device) : (d.drained).rspCursor = 0 := rfl
@[simp] theorem Device.drained_sel (d : Device) : (d.drained).sel = d.sel := rfl
@[simp] theorem Device.drained_hdr (d : Device) : (d.drained).hdr = d.hdr := rfl
@[simp] theorem Device.drained_hdrCnt (d : Device) : (d.drained).hdrCnt = d.hdrCnt := rfl
@[simp] theorem Device.drained_dir (d : Device) : (d.drained).dir = d.dir := rfl
@[simp] theorem Device.drained_len (d : Device) : (d.drained).len = d.len := rfl
@[simp] theorem Device.drained_addr (d : Device) : (d.drained).addr = d.addr := rfl
@[simp] theorem Device.drained_offset (d : Device) : (d.drained).offset = d.offset := rfl

end Sys2Proof.Machine
end

