-- ==== Sys2Proof/Laws/Device.lean ====
section
/-! SUPPORT. For each shared operation on the device: what it can do, said once, and that it keeps the
invariants of R41. -/

namespace Sys2Proof.Machine

/-! ### Completion -/

/-- Complete() is R148's condition. -/
theorem commandComplete_iff (cmd : List Byte) :
    commandComplete cmd = true ↔ CommandComplete cmd := by
  match cmd with
  | [] | [_] | [_, _] | [_, _, _] | [_, _, _, _] | [_, _, _, _, _] =>
    simp [commandComplete, declaredLength, CommandComplete]
  | _ :: _ :: _ :: _ :: _ :: _ :: _ =>
    simp [commandComplete, declaredLength, CommandComplete, declaredNat]

/-- An empty command is not complete. -/
@[simp] theorem commandComplete_nil : commandComplete [] = false := rfl

/-- A command of one byte is not complete. -/
@[simp] theorem commandComplete_singleton (b : Byte) : commandComplete [b] = false := rfl

/-! ### What each operation can do -/

/-- Append either drops the byte at capacity or keeps it and re-evaluates completion (R146, R148). -/
theorem Device.append_cases (P : Params) (d : Device) (b : Byte) :
    (d.cmd.length = P.cmdCapacity ∧ d.append P b = d) ∨
      (d.cmd.length ≠ P.cmdCapacity ∧
        d.append P b = { d with
          cmd := d.cmd ++ [b]
          dataExpect := d.dataExpect && !commandComplete (d.cmd ++ [b]) }) := by
  unfold Device.append Device.checkComplete
  split
  · exact .inl ⟨‹_›, rfl⟩
  · refine .inr ⟨‹_›, ?_⟩
    cases h : commandComplete (d.cmd ++ [b]) <;> simp

/-- StartReception keeps the triggering byte as command byte 0 (R144). -/
theorem Device.startReception_eq (P : Params) (d : Device) (b : Byte) :
    d.startReception P b = { d with
      cmd := [b], dataExpect := true, cmdReady := false, state := .reception } := by
  simp [Device.startReception, Device.append, Device.checkComplete, Params.cmdCapacity]

/-- FifoWrite starts a reception, appends, or does nothing (R143). -/
theorem Device.fifoWrite_cases (P : Params) (d : Device) (b : Byte) :
    (d.state = .ready ∧ d.fifoWrite P b = { d with
        cmd := [b], dataExpect := true, cmdReady := false, state := .reception }) ∨
      (d.state = .reception ∧ d.dataExpect = true ∧ d.fifoWrite P b = d.append P b) ∨
      (d.state ≠ .ready ∧ (d.state = .reception → d.dataExpect = false) ∧
        d.fifoWrite P b = d) := by
  unfold Device.fifoWrite
  cases hs : d.state <;> simp [Device.startReception_eq]
  cases hd : d.dataExpect <;> simp

/-- FifoRead returns the next response byte, moving to Ready with the last one, or the sentinel with no
effect (R154, R155). -/
theorem Device.fifoRead_cases (d : Device) :
    (d.state = .completion ∧ d.rspCursor + 1 < d.rsp.length ∧
        d.fifoRead = ({ d with rspCursor := d.rspCursor + 1 }, d.rsp.getD d.rspCursor 0)) ∨
      (d.state = .completion ∧ d.rspCursor + 1 = d.rsp.length ∧
        d.fifoRead = (d.drained, d.rsp.getD d.rspCursor 0)) ∨
      ((d.state ≠ .completion ∨ d.rsp.length ≤ d.rspCursor) ∧ d.fifoRead = (d, sentinel)) := by
  by_cases hs : d.state = .completion
  · by_cases hl : d.rspCursor < d.rsp.length
    · have hg : d.rsp[d.rspCursor]? = some d.rsp[d.rspCursor] := List.getElem?_eq_getElem hl
      by_cases he : d.rspCursor + 1 = d.rsp.length
      · right; left
        simp [Device.fifoRead, hs, hg, he, Device.drained, List.getD]
      · left
        refine ⟨hs, by omega, ?_⟩
        simp [Device.fifoRead, hs, hg, he, List.getD]
    · right; right
      have hg : d.rsp[d.rspCursor]? = none := List.getElem?_eq_none (by omega)
      exact ⟨.inr (by omega), by simp [Device.fifoRead, hs, hg]⟩
  · right; right
    refine ⟨.inl hs, ?_⟩
    unfold Device.fifoRead
    split
    · exact absurd ‹_› hs
    · rfl

/-- Go either takes a complete command in Reception to Completion or does nothing (R150). -/
theorem Device.go_cases (P : Params) (d : Device) :
    (d.state = .reception ∧ commandComplete d.cmd = true ∧ d.go P = { d with
        rsp := P.respond d.cmd, rspCursor := 0, state := .completion
        dataAvail := true, dataExpect := false }) ∨
      (¬ (d.state = .reception ∧ commandComplete d.cmd = true) ∧ d.go P = d) := by
  unfold Device.go
  split
  · exact .inl ⟨(‹_ ∧ _›).1, (‹_ ∧ _›).2, rfl⟩
  · exact .inr ⟨‹_›, rfl⟩

/-- Right after an abort a go does nothing (R153). -/
@[simp] theorem Device.go_abort (P : Params) (d : Device) : (d.abort P).go P = d.abort P := by
  simp [Device.go]

/-- A status write is an abort, a go or nothing (R122, R153). -/
theorem Device.stsWrite0_cases (P : Params) (d : Device) (v : Byte) :
    d.stsWrite0 P v = d.abort P ∨ d.stsWrite0 P v = d.go P ∨ d.stsWrite0 P v = d := by
  unfold Device.stsWrite0
  cases hasBit v stsCmdReady <;> cases hasBit v stsGo <;> simp

/-- MemRead leaves the device alone, but for a FIFO read (R117). -/
theorem Device.memRead_cases (P : Params) (d : Device) (a : Nat) :
    (d.memRead P a).1 = d ∨ d.memRead P a = d.fifoRead := by
  unfold Device.memRead
  cases decodeAddr a <;> simp

/-- MemWrite is a status write, a grant, a FIFO write or nothing (R118). -/
theorem Device.memWrite_cases (P : Params) (d : Device) (a : Nat) (v : Byte) :
    d.memWrite P a v = d.stsWrite0 P v ∨ d.memWrite P a v = d.grant ∨
      d.memWrite P a v = d.fifoWrite P v ∨ d.memWrite P a v = d := by
  unfold Device.memWrite Device.accessWrite
  cases decodeAddr a <;> dsimp only
  case access => split <;> simp
  case sts k => split <;> simp
  all_goals simp

/-- A BYTE while selected is a header byte, a read access, a write access or a byte past the length
(R100). -/
theorem Device.byte_cases (P : Params) (d : Device) (m : Byte) :
    (d.hdrCnt < 4 ∧ d.byte P m = d.headerByte P m) ∨
      (4 ≤ d.hdrCnt ∧ d.offset < d.len ∧ d.dir = .read ∧ d.byte P m = d.dataRead P) ∨
      (4 ≤ d.hdrCnt ∧ d.offset < d.len ∧ d.dir = .write ∧ d.byte P m = d.dataWrite P m) ∨
      (4 ≤ d.hdrCnt ∧ d.len ≤ d.offset ∧ d.byte P m = d.pastByte P) := by
  unfold Device.byte
  by_cases h4 : d.hdrCnt < 4
  · simp [h4]
  · by_cases ho : d.offset < d.len
    · cases hd : d.dir <;> simp [h4, ho] <;> omega
    · simp [h4, ho]; omega

/-! ### The parser's fields are the parser's own -/

/-- Two devices with the same framing-parser state (R32, R33). -/
def Device.SameParser (d e : Device) : Prop :=
  d.sel = e.sel ∧ d.hdr = e.hdr ∧ d.hdrCnt = e.hdrCnt ∧ d.dir = e.dir ∧ d.len = e.len ∧
    d.addr = e.addr ∧ d.offset = e.offset

@[simp] theorem Device.SameParser.refl (d : Device) : d.SameParser d := by simp [Device.SameParser]

theorem Device.append_sameParser (P : Params) (d : Device) (b : Byte) :
    (d.append P b).SameParser d := by
  rcases d.append_cases P b with ⟨-, h⟩ | ⟨-, h⟩ <;> simp [h, Device.SameParser]

theorem Device.fifoWrite_sameParser (P : Params) (d : Device) (b : Byte) :
    (d.fifoWrite P b).SameParser d := by
  rcases d.fifoWrite_cases P b with ⟨-, h⟩ | ⟨-, -, h⟩ | ⟨-, -, h⟩ <;> rw [h]
  · simp [Device.SameParser]
  · exact d.append_sameParser P b
  · simp

theorem Device.fifoRead_sameParser (d : Device) : d.fifoRead.1.SameParser d := by
  rcases d.fifoRead_cases with ⟨-, -, h⟩ | ⟨-, -, h⟩ | ⟨-, h⟩ <;> simp [h, Device.SameParser]

theorem Device.go_sameParser (P : Params) (d : Device) : (d.go P).SameParser d := by
  rcases d.go_cases P with ⟨-, -, h⟩ | ⟨-, h⟩ <;> simp [h, Device.SameParser]

theorem Device.stsWrite0_sameParser (P : Params) (d : Device) (v : Byte) :
    (d.stsWrite0 P v).SameParser d := by
  rcases d.stsWrite0_cases P v with h | h | h <;> rw [h]
  · simp [Device.SameParser]
  · exact d.go_sameParser P
  · simp

/-- No register access touches the parser (R152: "It does not touch the parser"). -/
theorem Device.memRead_sameParser (P : Params) (d : Device) (a : Nat) :
    (d.memRead P a).1.SameParser d := by
  rcases d.memRead_cases P a with h | h <;> rw [h]
  · simp
  · exact d.fifoRead_sameParser

/-- No register access touches the parser. -/
theorem Device.memWrite_sameParser (P : Params) (d : Device) (a : Nat) (v : Byte) :
    (d.memWrite P a v).SameParser d := by
  rcases d.memWrite_cases P a v with h | h | h | h <;> rw [h]
  · exact d.stsWrite0_sameParser P v
  · simp [Device.SameParser]
  · exact d.fifoWrite_sameParser P v
  · simp

/-- A byte never moves D.sel (R100). -/
@[simp] theorem Device.byte_sel (P : Params) (d : Device) (m : Byte) :
    (d.byte P m).1.sel = d.sel := by
  have counted : ∀ e : Device, e.SameParser d → e.bumpOffset.sel = d.sel := fun e h => h.1
  rcases d.byte_cases P m with ⟨-, h⟩ | ⟨-, -, -, h⟩ | ⟨-, -, -, h⟩ | ⟨-, -, h⟩ <;> rw [h]
  · unfold Device.headerByte; dsimp only; split <;> rfl
  · exact counted _ (d.memRead_sameParser P _)
  · exact counted _ (d.memWrite_sameParser P _ m)
  · rfl

/-! ### The invariants -/

/-- The responder's answer has a legal length (R7, R151). -/
theorem respond_length (P : Params) (cmd : List Byte) :
    1 ≤ (P.respond cmd).length ∧ (P.respond cmd).length ≤ P.rspCapacity := by
  simp only [Params.respond, Params.rspCapacity, List.length_cons, List.length_take]
  omega

theorem Device.append_inv {P : Params} {d : Device} (h : d.Inv P) (b : Byte)
    (hr : d.state = .reception) (he : d.dataExpect = true) : (d.append P b).Inv P := by
  rcases d.append_cases P b with ⟨-, e⟩ | ⟨hl, e⟩
  · rwa [e]
  · have := h.cmd_le
    have hne : d.dataAvail = false := by
      cases ha : d.dataAvail with
      | false => rfl
      | true => exact absurd (h.avail_iff.2 ha) (by simp [hr])
    rw [e]
    constructor
    case cmd_le => simp; omega
    case complete_iff => intro _; simp [he]
    case expect_reception => intro _; exact hr
    all_goals first
      | exact h.cursor_le
      | exact h.rsp_le
      | exact h.avail_iff
      | exact h.ready_iff
      | exact h.cursor_lt
      | exact h.not_execution
      | exact h.hdrCnt_le
      | exact h.deselected
      | exact h.burst_eq
      | exact h.access_eq
      | exact h.decoded

theorem Device.fifoWrite_inv {P : Params} {d : Device} (h : d.Inv P) (b : Byte) :
    (d.fifoWrite P b).Inv P := by
  rcases d.fifoWrite_cases P b with ⟨hs, e⟩ | ⟨hs, he, e⟩ | ⟨-, -, e⟩ <;> rw [e]
  · have ha : d.dataAvail = false := by
      cases ha : d.dataAvail with
      | false => rfl
      | true => exact absurd (h.avail_iff.2 ha) (by simp [hs])
    constructor
    case cmd_le => simp [Params.cmdCapacity]
    case avail_iff => simp [ha]
    case ready_iff => simp
    case cursor_lt => simp
    case complete_iff => simp
    case not_execution => simp
    case expect_reception => simp
    all_goals first
      | exact h.cursor_le
      | exact h.rsp_le
      | exact h.hdrCnt_le
      | exact h.deselected
      | exact h.burst_eq
      | exact h.access_eq
      | exact h.decoded
  · exact Device.append_inv h b hs he
  · exact h

theorem Device.drained_inv {P : Params} {d : Device} (h : d.Inv P) (hs : d.state = .completion) :
    d.drained.Inv P := by
  have he : d.dataExpect = false := by
    cases he : d.dataExpect with
    | false => rfl
    | true => exact absurd (h.expect_reception he) (by simp [hs])
  constructor
  case cmd_le => exact h.cmd_le
  case hdrCnt_le => exact h.hdrCnt_le
  case deselected => exact h.deselected
  case burst_eq => exact h.burst_eq
  case access_eq => exact h.access_eq
  case decoded => exact h.decoded
  all_goals simp [he, Device.drained, Params.rspCapacity]

theorem Device.fifoRead_inv {P : Params} {d : Device} (h : d.Inv P) : d.fifoRead.1.Inv P := by
  rcases d.fifoRead_cases with ⟨-, hl, e⟩ | ⟨hs, -, e⟩ | ⟨-, e⟩ <;> rw [e]
  · constructor
    case cursor_le => simp; omega
    case cursor_lt => intro _; exact hl
    all_goals first
      | exact h.cmd_le
      | exact h.rsp_le
      | exact h.avail_iff
      | exact h.ready_iff
      | exact h.expect_reception
      | exact h.not_execution
      | exact h.hdrCnt_le
      | exact h.deselected
      | exact h.burst_eq
      | exact h.access_eq
      | exact h.complete_iff
      | exact h.decoded
  · exact Device.drained_inv h hs
  · exact h

theorem Device.go_inv {P : Params} {d : Device} (h : d.Inv P) : (d.go P).Inv P := by
  rcases d.go_cases P with ⟨hs, -, e⟩ | ⟨-, e⟩ <;> rw [e]
  · have hc : d.cmdReady = false := by
      cases hc : d.cmdReady with
      | false => rfl
      | true => exact absurd (h.ready_iff.2 hc) (by simp [hs])
    have := respond_length P d.cmd
    constructor
    case rsp_le => exact this.2
    case cursor_lt => intro _; simp; omega
    case ready_iff => simp [hc]
    all_goals first
      | exact h.cmd_le
      | exact h.hdrCnt_le
      | exact h.deselected
      | exact h.burst_eq
      | exact h.access_eq
      | exact h.decoded
      | simp
  · exact h

theorem Device.abort_inv {P : Params} {d : Device} (h : d.Inv P) : (d.abort P).Inv P := by
  constructor
  case hdrCnt_le => exact h.hdrCnt_le
  case deselected => exact h.deselected
  case access_eq => exact h.access_eq
  case decoded => exact h.decoded
  all_goals simp [Params.cmdCapacity]

theorem Device.stsWrite0_inv {P : Params} {d : Device} (h : d.Inv P) (v : Byte) :
    (d.stsWrite0 P v).Inv P := by
  rcases d.stsWrite0_cases P v with e | e | e <;> rw [e]
  · exact Device.abort_inv h
  · exact Device.go_inv h
  · exact h

theorem Device.grant_access_of_inv {P : Params} {d : Device} (h : d.Inv P) : d.grant.access = accGranted := by
  rcases h.access_eq with e | e <;> simp [e, accGranted]

theorem Device.grant_inv {P : Params} {d : Device} (h : d.Inv P) : d.grant.Inv P := by
  constructor
  case access_eq => exact .inr (Device.grant_access_of_inv h)
  all_goals first
    | exact h.cmd_le
    | exact h.cursor_le
    | exact h.rsp_le
    | exact h.avail_iff
    | exact h.ready_iff
    | exact h.expect_reception
    | exact h.cursor_lt
    | exact h.not_execution
    | exact h.hdrCnt_le
    | exact h.deselected
    | exact h.burst_eq
    | exact h.complete_iff
    | exact h.decoded

theorem Device.memRead_inv {P : Params} {d : Device} (h : d.Inv P) (a : Nat) :
    (d.memRead P a).1.Inv P := by
  rcases d.memRead_cases P a with e | e <;> rw [e]
  · exact h
  · exact Device.fifoRead_inv h

theorem Device.memWrite_inv {P : Params} {d : Device} (h : d.Inv P) (a : Nat) (v : Byte) :
    (d.memWrite P a v).Inv P := by
  rcases d.memWrite_cases P a v with e | e | e | e <;> rw [e]
  · exact Device.stsWrite0_inv h v
  · exact Device.grant_inv h
  · exact Device.fifoWrite_inv h v
  · exact h

theorem Device.probe_inv {P : Params} {d : Device} (h : d.Inv P) : d.probe.Inv P := by
  unfold Device.probe
  split
  · rename_i hs
    have ha : d.dataAvail = false := by
      cases ha : d.dataAvail with
      | false => rfl
      | true => exact absurd (h.avail_iff.2 ha) (by simp [hs])
    have he : d.dataExpect = false := by
      cases he : d.dataExpect with
      | false => rfl
      | true => exact absurd (h.expect_reception he) (by simp [hs])
    constructor
    case avail_iff => simp [ha]
    case expect_reception => simp [he]
    all_goals first
      | exact h.cmd_le
      | exact h.cursor_le
      | exact h.rsp_le
      | exact h.hdrCnt_le
      | exact h.deselected
      | exact h.burst_eq
      | exact h.access_eq
      | exact h.decoded
      | simp
  · exact h

/-- A change of the parser's fields alone keeps the command side's invariants. -/
theorem Device.Inv.withParser {P : Params} {d : Device} (h : d.Inv P) (sel : Bool) (hdr : HdrBytes)
    (hdrCnt : Nat) (dir : Dir) (len : Nat) (addr : BitVec 16) (offset : Nat) (h4 : hdrCnt ≤ 4)
    (hsel : sel = false → hdrCnt = 0)
    (hdec : hdrCnt = 4 → decodeHeader hdr.b0 hdr.b1 hdr.b2 hdr.b3 = ⟨dir, len, addr⟩) :
    Device.Inv P { d with
      sel := sel, hdr := hdr, hdrCnt := hdrCnt, dir := dir, len := len, addr := addr
      offset := offset } where
  cmd_le := h.cmd_le
  cursor_le := h.cursor_le
  rsp_le := h.rsp_le
  avail_iff := h.avail_iff
  ready_iff := h.ready_iff
  expect_reception := h.expect_reception
  cursor_lt := h.cursor_lt
  not_execution := h.not_execution
  hdrCnt_le := h4
  deselected := hsel
  burst_eq := h.burst_eq
  access_eq := h.access_eq
  complete_iff := h.complete_iff
  decoded := hdec

theorem Device.csBegin_inv {P : Params} {d : Device} (h : d.Inv P) : d.csBegin.Inv P :=
  h.withParser true d.hdr 0 d.dir d.len d.addr d.offset (by simp) (by simp) (by simp)

theorem Device.csEnd_inv {P : Params} {d : Device} (h : d.Inv P) : d.csEnd.Inv P :=
  h.withParser false d.hdr 0 d.dir d.len d.addr d.offset (by simp) (by simp) (by simp)

theorem Device.bumpOffset_inv {P : Params} {d : Device} (h : d.Inv P) : d.bumpOffset.Inv P :=
  h.withParser d.sel d.hdr d.hdrCnt d.dir d.len d.addr (d.offset + 1) h.hdrCnt_le h.deselected
    h.decoded

theorem Device.headerByte_inv {P : Params} {d : Device} (h : d.Inv P) (m : Byte)
    (hs : d.sel = true) (hc : d.hdrCnt < 4) : (d.headerByte P m).1.Inv P := by
  unfold Device.headerByte
  dsimp only
  split
  · rename_i h4
    exact h.withParser d.sel (d.hdr.set d.hdrCnt m) (d.hdrCnt + 1) _ _ _ 0 (by omega)
      (by simp [hs]) (fun _ => rfl)
  · exact h.withParser d.sel (d.hdr.set d.hdrCnt m) (d.hdrCnt + 1) d.dir d.len d.addr d.offset
      (by omega) (by simp [hs]) (by omega)

theorem Device.byte_inv {P : Params} {d : Device} (h : d.Inv P) (m : Byte) (hs : d.sel = true) :
    (d.byte P m).1.Inv P := by
  rcases d.byte_cases P m with ⟨hc, e⟩ | ⟨-, -, -, e⟩ | ⟨-, -, -, e⟩ | ⟨-, -, e⟩ <;> rw [e]
  · exact Device.headerByte_inv h m hs hc
  · exact Device.bumpOffset_inv (Device.memRead_inv h _)
  · exact Device.bumpOffset_inv (Device.memWrite_inv h _ m)
  · exact Device.bumpOffset_inv h

end Sys2Proof.Machine
end

