-- ==== Sys2Proof/Laws/Engine.lean ====
section
/-! SUPPORT. The wire, the shift stage and the sequencer: what each operation leaves alone, that each keeps
the invariants of R41, and how a running call relates to the bytes exchanged so far. -/

namespace Sys2Proof.Machine

/-! ### The wire -/

section Wire

variable (P : Params) (F : Draws) (s : State)

@[simp] theorem State.wireBegin_dev : s.wireBegin.dev = s.dev.csBegin := rfl
@[simp] theorem State.wireBegin_eng : s.wireBegin.eng = s.eng := rfl
@[simp] theorem State.wireBegin_host : s.wireBegin.host = s.host := rfl
@[simp] theorem State.wireBegin_reply : s.wireBegin.reply = s.reply := rfl
@[simp] theorem State.wireBegin_misoDraws : s.wireBegin.misoDraws = s.misoDraws := rfl
@[simp] theorem State.wireBegin_schedDraws : s.wireBegin.schedDraws = s.schedDraws := rfl

@[simp] theorem State.wireEnd_dev : s.wireEnd.dev = s.dev.csEnd := rfl
@[simp] theorem State.wireEnd_eng : s.wireEnd.eng = s.eng := rfl
@[simp] theorem State.wireEnd_host : s.wireEnd.host = s.host := rfl
@[simp] theorem State.wireEnd_reply : s.wireEnd.reply = s.reply := rfl
@[simp] theorem State.wireEnd_misoDraws : s.wireEnd.misoDraws = s.misoDraws := rfl
@[simp] theorem State.wireEnd_schedDraws : s.wireEnd.schedDraws = s.schedDraws := rfl

/-- A BYTE is taken by the device where it is selected, and is one draw where it is not (R99, R100). -/
theorem State.wireByte_cases (m : Byte) :
    (s.dev.sel = true ∧ s.wireByte P F m = (s.setDev (s.dev.byte P m).1, (s.dev.byte P m).2)) ∨
      (s.dev.sel = false ∧ s.wireByte P F m = (s.countMiso, F.misoIdle s.misoDraws)) := by
  unfold State.wireByte
  cases h : s.dev.sel <;> simp

@[simp] theorem State.wireByte_sel (m : Byte) :
    (s.wireByte P F m).1.dev.sel = s.dev.sel := by
  rcases s.wireByte_cases P F m with ⟨-, e⟩ | ⟨-, e⟩ <;> rw [e]
  · exact Device.byte_sel ..
  · rfl
@[simp] theorem State.wireByte_eng (m : Byte) : (s.wireByte P F m).1.eng = s.eng := by
  rcases s.wireByte_cases P F m with ⟨-, h⟩ | ⟨-, h⟩ <;> simp [h]
@[simp] theorem State.wireByte_host (m : Byte) : (s.wireByte P F m).1.host = s.host := by
  rcases s.wireByte_cases P F m with ⟨-, h⟩ | ⟨-, h⟩ <;> simp [h]
@[simp] theorem State.wireByte_reply (m : Byte) : (s.wireByte P F m).1.reply = s.reply := by
  rcases s.wireByte_cases P F m with ⟨-, h⟩ | ⟨-, h⟩ <;> simp [h]
@[simp] theorem State.wireByte_schedDraws (m : Byte) :
    (s.wireByte P F m).1.schedDraws = s.schedDraws := by
  rcases s.wireByte_cases P F m with ⟨-, h⟩ | ⟨-, h⟩ <;> simp [h]

/-- A BYTE's effect and answer depend on the device, the draws made and nothing else. -/
theorem State.wireByte_congr {P : Params} {F : Draws} {s t : State} (hd : s.dev = t.dev)
    (hm : s.misoDraws = t.misoDraws) (m : Byte) :
    (s.wireByte P F m).1.dev = (t.wireByte P F m).1.dev ∧
      (s.wireByte P F m).1.misoDraws = (t.wireByte P F m).1.misoDraws ∧
      (s.wireByte P F m).2 = (t.wireByte P F m).2 := by
  unfold State.wireByte
  rw [hd, hm]
  split <;> simp [hd, hm]

@[simp] theorem State.wireBytes_nil : s.wireBytes P F [] = (s, []) := rfl

theorem State.wireBytes_cons (b : Byte) (bs : List Byte) :
    s.wireBytes P F (b :: bs) =
      (((s.wireByte P F b).1.wireBytes P F bs).1,
        (s.wireByte P F b).2 :: ((s.wireByte P F b).1.wireBytes P F bs).2) := rfl

/-- BYTE events in two runs are BYTE events in one (R107). -/
theorem State.wireBytes_append (bs cs : List Byte) :
    s.wireBytes P F (bs ++ cs) =
      (((s.wireBytes P F bs).1.wireBytes P F cs).1,
        (s.wireBytes P F bs).2 ++ ((s.wireBytes P F bs).1.wireBytes P F cs).2) := by
  induction bs generalizing s with
  | nil => simp
  | cons b bs ih => simp [State.wireBytes_cons, ih]

@[simp] theorem State.wireBytes_length (bs : List Byte) :
    (s.wireBytes P F bs).2.length = bs.length := by
  induction bs generalizing s with
  | nil => simp
  | cons b bs ih => simp [State.wireBytes_cons, ih]

@[simp] theorem State.wireBytes_eng (bs : List Byte) : (s.wireBytes P F bs).1.eng = s.eng := by
  induction bs generalizing s with
  | nil => simp
  | cons b bs ih => simp [State.wireBytes_cons, ih]
@[simp] theorem State.wireBytes_sel (bs : List Byte) :
    (s.wireBytes P F bs).1.dev.sel = s.dev.sel := by
  induction bs generalizing s with
  | nil => rfl
  | cons b bs ih => simp [State.wireBytes_cons, ih]
@[simp] theorem State.wireBytes_host (bs : List Byte) : (s.wireBytes P F bs).1.host = s.host := by
  induction bs generalizing s with
  | nil => simp
  | cons b bs ih => simp [State.wireBytes_cons, ih]
@[simp] theorem State.wireBytes_reply (bs : List Byte) :
    (s.wireBytes P F bs).1.reply = s.reply := by
  induction bs generalizing s with
  | nil => simp
  | cons b bs ih => simp [State.wireBytes_cons, ih]
@[simp] theorem State.wireBytes_schedDraws (bs : List Byte) :
    (s.wireBytes P F bs).1.schedDraws = s.schedDraws := by
  induction bs generalizing s with
  | nil => simp
  | cons b bs ih => simp [State.wireBytes_cons, ih]

/-- Whatever a BYTE at the device keeps, a run of BYTE events keeps. -/
theorem State.wireBytes_induct {P : Params} {F : Draws} (K : Device → Prop)
    (step : ∀ d m, K d → d.sel = true → K (d.byte P m).1) (s : State) (h : K s.dev)
    (bs : List Byte) : K (s.wireBytes P F bs).1.dev := by
  induction bs generalizing s with
  | nil => exact h
  | cons b bs ih =>
    rw [State.wireBytes_cons]
    refine ih _ ?_
    rcases s.wireByte_cases P F b with ⟨hs, e⟩ | ⟨-, e⟩ <;> rw [e]
    · exact step s.dev b h hs
    · exact h

/-- A run of BYTE events depends on the device, the draws made and nothing else. -/
theorem State.wireBytes_congr {P : Params} {F : Draws} {s t : State} (hd : s.dev = t.dev)
    (hm : s.misoDraws = t.misoDraws) (bs : List Byte) :
    (s.wireBytes P F bs).1.dev = (t.wireBytes P F bs).1.dev ∧
      (s.wireBytes P F bs).1.misoDraws = (t.wireBytes P F bs).1.misoDraws ∧
      (s.wireBytes P F bs).2 = (t.wireBytes P F bs).2 := by
  induction bs generalizing s t with
  | nil => exact ⟨hd, hm, rfl⟩
  | cons b bs ih =>
    obtain ⟨h1, h2, h3⟩ := State.wireByte_congr (P := P) (F := F) hd hm b
    obtain ⟨i1, i2, i3⟩ := ih h1 h2
    simp [State.wireBytes_cons, h3, i1, i2, i3]

/-- Only MISO_IDLE of the draws matters to the wire. -/
theorem State.wireBytes_idle {P : Params} {F G : Draws} (h : F.misoIdle = G.misoIdle) (s : State)
    (bs : List Byte) : s.wireBytes P F bs = s.wireBytes P G bs := by
  induction bs generalizing s with
  | nil => rfl
  | cons b bs ih =>
    have e : s.wireByte P F b = s.wireByte P G b := by simp [State.wireByte, h]
    simp [State.wireBytes_cons, e, ih]

end Wire

/-! ### The shift stage -/

/-- One shifter step exchanges the oldest byte of E.txq where E.rxq has room, or does nothing (R174). -/
theorem State.shifterStep_cases (P : Params) (F : Draws) (s : State) :
    (∃ b q, s.eng.txq = b :: q ∧ s.eng.rxq.length < P.fifoDepth ∧
        s.shifterStep P F = (s.wireByte P F b).1.setEng
          { s.eng with txq := q, rxq := s.eng.rxq ++ [(s.wireByte P F b).2] }) ∨
      s.shifterStep P F = s := by
  unfold State.shifterStep
  cases hq : s.eng.txq with
  | nil => exact .inr rfl
  | cons b q =>
    by_cases hr : s.eng.rxq.length < P.fifoDepth
    · exact .inl ⟨b, q, rfl, hr, by simp [hr]⟩
    · exact .inr (by simp [hr])

/-- Whatever one shifter step keeps, any number of them keeps. -/
theorem State.shifterSteps_induct {P : Params} {F : Draws} (K : State → Prop)
    (step : ∀ t, K t → K (t.shifterStep P F)) (k : Nat) (s : State) (h : K s) :
    K (s.shifterSteps P F k) := by
  induction k generalizing s with
  | zero => exact h
  | succ k ih => exact ih _ (step s h)

/-- The shifter's turn is one draw and then some shifter steps (R188). -/
theorem State.shifterTurn_eq (P : Params) (F : Draws) (s : State) :
    ∃ k, s.shifterTurn P F = s.countSched.shifterSteps P F k := by
  unfold State.shifterTurn
  cases s.eng.txq with
  | nil => exact ⟨0, rfl⟩
  | cons b q => exact ⟨_, rfl⟩

/-! ### DrainRx -/

/-- DrainRx with room for the whole queue empties it into in[] (R176). -/
theorem drainLoop_all (rxq : List Byte) (room j : Nat) (inBuf : List Byte)
    (h : rxq.length ≤ room) :
    (drainLoop rxq room j inBuf).1 = [] ∧ (drainLoop rxq room j inBuf).2.1 = j + rxq.length := by
  induction rxq generalizing room j inBuf with
  | nil => cases room <;> simp [drainLoop]
  | cons b q ih =>
    cases room with
    | zero => simp at h
    | succ room =>
      have := ih room (j + 1) (inBuf.set j b) (by simpa using h)
      simp [drainLoop, this]; omega

/-- DrainRx writes in[] from index j on and leaves the rest of it alone (R184). -/
theorem drainLoop_inBuf (rxq : List Byte) (room : Nat) (pre post : List Byte)
    (h : rxq.length ≤ room) (hp : rxq.length ≤ post.length) :
    (drainLoop rxq room pre.length (pre ++ post)).2.2 = pre ++ rxq ++ post.drop rxq.length := by
  induction rxq generalizing room pre post with
  | nil => cases room <;> simp [drainLoop]
  | cons b q ih =>
    cases room with
    | zero => simp at h
    | succ room =>
      cases post with
      | nil => simp at hp
      | cons x post =>
        have := ih room (pre ++ [b]) post (by simpa using h) (by simpa using hp)
        simp [drainLoop] at this ⊢
        exact this

@[simp] theorem drainLoop_inBuf_length (rxq : List Byte) (room j : Nat) (inBuf : List Byte) :
    (drainLoop rxq room j inBuf).2.2.length = inBuf.length := by
  induction rxq generalizing room j inBuf with
  | nil => cases room <;> simp [drainLoop]
  | cons b q ih => cases room <;> simp [drainLoop, ih]

theorem drainLoop_queue_length (rxq : List Byte) (room j : Nat) (inBuf : List Byte) :
    (drainLoop rxq room j inBuf).1.length ≤ rxq.length := by
  induction rxq generalizing room j inBuf with
  | nil => cases room <;> simp [drainLoop]
  | cons b q ih =>
    cases room with
    | zero => simp [drainLoop]
    | succ room => simp only [drainLoop]; have := ih room (j + 1) (inBuf.set j b); simp; omega

/-! ### A running call and the bytes exchanged so far -/

/-- The call `c` runs in `s`, having begun its exchanges in `s0` with the caller's in[] as `in0`, and
`k` bytes have been exchanged (R174, R176, R179). -/
structure Exchanged (P : Params) (F : Draws) (s0 : State) (in0 : List Byte) (k : Nat) (s : State)
    (c : Call) : Prop where
  dev : s.dev = (s0.wireBytes P F (c.out.take k)).1.dev
  miso : s.misoDraws = (s0.wireBytes P F (c.out.take k)).1.misoDraws
  host : s.host = s0.host
  cs : s.eng.cs = s0.eng.cs
  out_le : c.n ≤ c.out.length
  in_le : c.n ≤ in0.length
  i_le : c.i ≤ c.n
  k_le : k ≤ c.i
  j_le : c.j ≤ k
  txq : s.eng.txq = (c.out.drop k).take (c.i - k)
  rxq : s.eng.rxq = (s0.wireBytes P F (c.out.take k)).2.drop c.j
  inBuf : c.inBuf = (s0.wireBytes P F (c.out.take k)).2.take c.j ++ in0.drop c.j

/-- What is left of a running call in sequencer steps, at most (R188). -/
def stepsLeft (P : Params) (c : Call) : Nat :=
  match c.phase with
  | .start => c.n * P.txPollLimit + P.donePollLimit + 3
  | .transmit => (c.n - c.i) * P.txPollLimit - c.cnt + P.donePollLimit + 2
  | .doneWait => P.donePollLimit - c.cnt + 2
  | .residual => 2
  | .finish => 1
  | .timeout => 1

/-- Where the phases after Begin can stand, given the queues (R177 to R179, R187). -/
structure PhaseOk (P : Params) (s : State) (c : Call) : Prop where
  in_transmit : c.phase = .transmit → c.i < c.n ∧ c.cnt < P.txPollLimit
  in_doneWait : c.phase = .doneWait → c.i = c.n ∧ c.cnt < P.donePollLimit
  in_residual : c.phase = .residual → c.i = c.n ∧ s.eng.txq = []
  in_finish : c.phase = .finish → c.i = c.n ∧ c.j = c.n ∧ s.eng.txq = [] ∧ s.eng.rxq = []
  in_timeout : c.phase = .timeout → 0 < c.n

theorem txPollLimit_pos (P : Params) : 0 < P.txPollLimit := by
  simp [Params.txPollLimit, Params.donePollLimit]

variable {P : Params} {F : Draws} {s0 s : State} {in0 : List Byte} {k : Nat} {c : Call}

/-- A shifter step exchanges one byte more, or none. -/
theorem Exchanged.shifterStep (h : Exchanged P F s0 in0 k s c) :
    ∃ k', Exchanged P F s0 in0 k' (s.shifterStep P F) c := by
  rcases s.shifterStep_cases P F with ⟨b, q, hq, -, e⟩ | e
  · have hk : k < c.i := by
      by_contra hge
      have := h.txq; rw [hq] at this
      simp [show c.i - k = 0 by omega] at this
    have hlen : k < c.out.length := by have := h.i_le; have := h.out_le; omega
    have hsplit : (c.out.drop k).take (c.i - k) =
        c.out[k] :: (c.out.drop (k + 1)).take (c.i - (k + 1)) := by
      rw [List.drop_eq_getElem_cons hlen, show c.i - k = (c.i - (k + 1)) + 1 by omega,
        List.take_succ_cons]
    have hbq := h.txq
    rw [hq, hsplit] at hbq
    injection hbq with hb hq'
    have htake : c.out.take (k + 1) = c.out.take k ++ [b] := by
      rw [hb, List.take_succ_eq_append_getElem hlen]
    have hrun := State.wireBytes_append P F s0 (c.out.take k) [b]
    rw [← htake] at hrun
    obtain ⟨c1, c2, c3⟩ := State.wireByte_congr (P := P) (F := F) h.dev h.miso b
    have hml : (s0.wireBytes P F (c.out.take k)).2.length = k := by
      simp; omega
    refine ⟨k + 1, ?_⟩
    rw [e]
    exact
      { dev := by rw [hrun]; simpa [State.wireBytes_cons] using c1
        miso := by rw [hrun]; simpa [State.wireBytes_cons] using c2
        host := by simpa using h.host
        cs := by simpa using h.cs
        out_le := h.out_le
        in_le := h.in_le
        i_le := h.i_le
        k_le := hk
        j_le := by have := h.j_le; omega
        txq := by simpa using hq'
        rxq := by
          rw [hrun]
          simp only [State.setEng_eng, State.wireBytes_cons, State.wireBytes_nil]
          rw [h.rxq, c3, List.drop_append_of_le_length (by rw [hml]; exact h.j_le)]
        inBuf := by
          rw [hrun]
          simp only
          rw [List.take_append_of_le_length (by rw [hml]; exact h.j_le)]
          exact h.inBuf }
  · exact ⟨k, by rw [e]; exact h⟩

/-- The shifter's turn exchanges some bytes more, makes one draw, and leaves the call alone. -/
theorem Exchanged.shifterTurn (h : Exchanged P F s0 in0 k s c) :
    ∃ k', Exchanged P F s0 in0 k' (s.shifterTurn P F) c := by
  obtain ⟨m, e⟩ := s.shifterTurn_eq P F
  rw [e]
  have h' : Exchanged P F s0 in0 k s.countSched c :=
    ⟨h.dev, h.miso, h.host, h.cs, h.out_le, h.in_le, h.i_le, h.k_le, h.j_le, h.txq, h.rxq, h.inBuf⟩
  exact State.shifterSteps_induct (P := P) (F := F) (fun t => ∃ k', Exchanged P F s0 in0 k' t c)
    (fun t ⟨_, ht⟩ => ht.shifterStep) m _ ⟨k, h'⟩

/-- A shifter step leaves the running call and the schedule's count alone, and keeps E.txq empty. -/
theorem State.shifterStep_frame (P : Params) (F : Draws) (s : State) :
    (s.shifterStep P F).eng.call = s.eng.call ∧
      (s.shifterStep P F).schedDraws = s.schedDraws ∧
      (s.eng.txq = [] → s.shifterStep P F = s) := by
  rcases s.shifterStep_cases P F with ⟨b, q, hq, -, e⟩ | e <;> rw [e] <;> simp
  simp [hq]

/-- The shifter's turn leaves the running call alone and counts one draw; with E.txq empty it does
nothing else (R174, R188). -/
theorem State.shifterTurn_frame (P : Params) (F : Draws) (s : State) :
    (s.shifterTurn P F).eng.call = s.eng.call ∧
      (s.shifterTurn P F).schedDraws = s.schedDraws + 1 ∧
      (s.eng.txq = [] → s.shifterTurn P F = s.countSched) := by
  obtain ⟨m, e⟩ := s.shifterTurn_eq P F
  have := State.shifterSteps_induct (P := P) (F := F)
    (fun t => t.eng.call = s.eng.call ∧ t.schedDraws = s.schedDraws + 1)
    (fun t ht => by
      obtain ⟨h1, h2, -⟩ := t.shifterStep_frame P F
      exact ⟨h1.trans ht.1, h2.trans ht.2⟩) m s.countSched ⟨rfl, rfl⟩
  rw [← e] at this
  refine ⟨this.1, this.2, fun hq => ?_⟩
  simp [State.shifterTurn, hq]

theorem PhaseOk.shifterTurn (h : PhaseOk P s c) : PhaseOk P (s.shifterTurn P F) c := by
  have hf := (s.shifterTurn_frame P F).2.2
  constructor
  case in_transmit => exact h.in_transmit
  case in_doneWait => exact h.in_doneWait
  case in_timeout => exact h.in_timeout
  case in_residual =>
    intro hp
    obtain ⟨h1, h2⟩ := h.in_residual hp
    rw [hf h2]
    exact ⟨h1, h2⟩
  case in_finish =>
    intro hp
    obtain ⟨h1, h2, h3, h4⟩ := h.in_finish hp
    rw [hf h3]
    exact ⟨h1, h2, h3, h4⟩

/-- DrainRx takes every received byte into in[] (R176, R179). -/
theorem Exchanged.drain (h : Exchanged P F s0 in0 k s c) :
    c.drainedQueue s.eng.rxq = [] ∧ (c.drain s.eng.rxq).j = k ∧
      (c.drain s.eng.rxq).inBuf =
        (s0.wireBytes P F (c.out.take k)).2 ++ in0.drop k ∧
      Exchanged P F s0 in0 k (s.drainRx c) (c.drain s.eng.rxq) := by
  have hml : (s0.wireBytes P F (c.out.take k)).2.length = k := by
    have := h.k_le; have := h.i_le; have := h.out_le
    simp; omega
  have hj := h.j_le
  have hr : s.eng.rxq.length = k - c.j := by rw [h.rxq, List.length_drop, hml]
  have hroom : s.eng.rxq.length ≤ c.n - c.j := by
    rw [hr]; have := h.k_le; have := h.i_le; omega
  obtain ⟨d1, d2⟩ := drainLoop_all s.eng.rxq (c.n - c.j) c.j c.inBuf hroom
  have hpre : ((s0.wireBytes P F (c.out.take k)).2.take c.j).length = c.j := by simp [hml, hj]
  have hin := drainLoop_inBuf s.eng.rxq (c.n - c.j)
    ((s0.wireBytes P F (c.out.take k)).2.take c.j) (in0.drop c.j) hroom (by
      rw [hr]; simp; have := h.k_le; have := h.i_le; have := h.in_le; omega)
  rw [hpre, ← h.inBuf, hr, List.drop_drop, show c.j + (k - c.j) = k by omega] at hin
  have hin' : (c.drain s.eng.rxq).inBuf =
      (s0.wireBytes P F (c.out.take k)).2 ++ in0.drop k := by
    show (drainLoop _ _ _ _).2.2 = _
    rw [hin, h.rxq, List.take_append_drop]
  have hj' : (c.drain s.eng.rxq).j = k := by
    show (drainLoop _ _ _ _).2.1 = _
    rw [d2, hr]; omega
  refine ⟨d1, hj', hin', ?_⟩
  exact
    { dev := h.dev
      miso := h.miso
      host := h.host
      cs := h.cs
      out_le := h.out_le
      in_le := h.in_le
      i_le := h.i_le
      k_le := h.k_le
      j_le := by rw [hj']
      txq := h.txq
      rxq := by
        show c.drainedQueue s.eng.rxq = List.drop (c.drain s.eng.rxq).j _
        rw [hj', show (c.drain s.eng.rxq).out = c.out from rfl, List.drop_of_length_le (by omega)]
        exact d1
      inBuf := by
        rw [hin', hj', show (c.drain s.eng.rxq).out = c.out from rfl,
          List.take_of_length_le (l := (s0.wireBytes P F (c.out.take k)).2) (by omega)] }

end Sys2Proof.Machine
end

