-- ==== Sys2Proof/Laws/Transfer.lean ====
section
/-! SUPPORT. One tick of a running call: it returns with one of the two results of a call, or it goes on
with fewer steps left (R176 to R181, R188); and what a call's run therefore leaves. -/

namespace Sys2Proof.Machine

variable {P : Params} {F : Draws} {s0 s : State} {in0 : List Byte} {k : Nat} {c : Call}

/-- What a call's return leaves, from the state `s0` in which its exchanges began, once `k` bytes have
been exchanged: the Ok result, or the timeout result of a call of at least one byte (R179, R181). -/
def Returned (P : Params) (F : Draws) (s0 : State) (in0 : List Byte) (k : Nat) (c : Call)
    (t : State) : Prop :=
  t.SameButSched (s0.okResult P F false c.endFlag c.n c.out in0) ∨
    (0 < c.n ∧ k ≤ c.n ∧ t.SameButSched (s0.timeoutResult P F false k c.out in0))

/-- The call goes on: it is the same call, past Begin, with `k` bytes exchanged and fewer steps
left. -/
structure GoesOn (P : Params) (F : Draws) (s0 : State) (in0 : List Byte) (k : Nat) (c : Call)
    (t : State) (c' : Call) : Prop where
  call : t.eng.call = some c'
  begun : c'.phase ≠ .start
  n_eq : c'.n = c.n
  out_eq : c'.out = c.out
  endFlag_eq : c'.endFlag = c.endFlag
  exchanged : Exchanged P F s0 in0 k t c'
  phaseOk : PhaseOk P t c'
  fewer : stepsLeft P c' + 1 ≤ stepsLeft P c

/-- The steps left of a call whose phase is known. -/
theorem stepsLeft_of_phase {P : Params} {c : Call} {p : Phase} (h : c.phase = p) :
    stepsLeft P c = stepsLeft P { c with phase := p } := by
  cases h; rfl

/-- One iteration of the transmit wait pushes a byte, fails, or fails for the last time (R177). -/
theorem transmit_goesOn (h : Exchanged P F s0 in0 k s c) (hp : PhaseOk P s c)
    (hph : c.phase = .transmit) : ∃ c', GoesOn P F s0 in0 k c (s.seqStep P c) c' ∧
      (s.seqStep P c).schedDraws = s.schedDraws := by
  obtain ⟨hi, hcnt⟩ := hp.in_transmit hph
  obtain ⟨-, -, -, hx⟩ := h.drain
  have e : s.seqStep P c = (s.drainRx c).transmitPoll P (c.drain s.eng.rxq) := by
    simp [State.seqStep, hph]
  rw [e]
  unfold State.transmitPoll
  have hmul : (c.n - c.i) * P.txPollLimit =
      (c.n - (c.i + 1)) * P.txPollLimit + P.txPollLimit := by
    rw [← Nat.succ_mul]; congr 1; omega
  have hdone : P.donePollLimit ≤ P.txPollLimit := by simp [Params.txPollLimit]
  split
  · apply Exists.intro
    refine ⟨?_, rfl⟩
    constructor
    case call => rfl
    case begun => show nextWait _ _ ≠ _; unfold nextWait; split <;> simp
    case n_eq => rfl
    case out_eq => rfl
    case endFlag_eq => rfl
    case exchanged =>
      have hlen : c.i < c.out.length := by have := h.out_le; omega
      have hk := h.k_le
      exact
        { dev := hx.dev
          miso := hx.miso
          host := hx.host
          cs := hx.cs
          out_le := hx.out_le
          in_le := hx.in_le
          i_le := hi
          k_le := by show k ≤ c.i + 1; omega
          j_le := hx.j_le
          txq := by
            have ht := hx.txq
            show (s.drainRx c).eng.txq ++ [c.out.getD c.i 0] =
              (c.out.drop k).take (c.i + 1 - k)
            rw [ht]
            show (c.out.drop k).take (c.i - k) ++ _ = _
            rw [show c.i + 1 - k = (c.i - k) + 1 by omega,
              List.take_succ_eq_append_getElem (by simp; omega)]
            simp only [List.getElem_drop]
            congr 2
            have : k + (c.i - k) = c.i := by omega
            simp [List.getD, this, hlen]
          rxq := hx.rxq
          inBuf := hx.inBuf }
    case phaseOk =>
      constructor
      all_goals
        show nextWait (c.i + 1) c.n = _ → _
        unfold nextWait
      · split
        · intro _; exact ⟨‹_›, txPollLimit_pos P⟩
        · intro hh; simp at hh
      · split
        · intro hh; simp at hh
        · intro _; exact ⟨show c.i + 1 = c.n by omega, by simp [Params.donePollLimit]⟩
      all_goals split <;> intro hh <;> simp at hh
    case fewer =>
      rw [stepsLeft_of_phase hph]
      by_cases hlast : c.i + 1 < c.n
      · rw [stepsLeft_of_phase (p := .transmit) (if_pos hlast)]
        show (c.n - (c.i + 1)) * P.txPollLimit - 0 + P.donePollLimit + 2 + 1 ≤
          (c.n - c.i) * P.txPollLimit - c.cnt + P.donePollLimit + 2
        omega
      · rw [stepsLeft_of_phase (p := .doneWait) (if_neg hlast)]
        show P.donePollLimit - 0 + 2 + 1 ≤
          (c.n - c.i) * P.txPollLimit - c.cnt + P.donePollLimit + 2
        omega
  · apply Exists.intro
    refine ⟨?_, rfl⟩
    constructor
    case call => rfl
    case begun => show (if _ then _ else _) ≠ _; split <;> simp
    case n_eq => rfl
    case out_eq => rfl
    case endFlag_eq => rfl
    case exchanged =>
      exact ⟨hx.dev, hx.miso, hx.host, hx.cs, hx.out_le, hx.in_le, hx.i_le, hx.k_le, hx.j_le,
        hx.txq, hx.rxq, hx.inBuf⟩
    case phaseOk =>
      constructor
      all_goals
        show (if c.cnt + 1 = P.txPollLimit then Phase.timeout else Phase.transmit) = _ → _
      · split
        · intro hh; simp at hh
        · intro _; exact ⟨hi, show c.cnt + 1 < _ by omega⟩
      all_goals split <;> intro hh <;> simp at hh
      show 0 < c.n
      omega
    case fewer =>
      rw [stepsLeft_of_phase hph]
      by_cases hlast : c.cnt + 1 = P.txPollLimit
      · rw [stepsLeft_of_phase (p := .timeout) (if_pos hlast)]
        show 1 + 1 ≤ (c.n - c.i) * P.txPollLimit - c.cnt + P.donePollLimit + 2
        omega
      · rw [stepsLeft_of_phase (p := .transmit) (if_neg hlast)]
        show (c.n - c.i) * P.txPollLimit - (c.cnt + 1) + P.donePollLimit + 2 + 1 ≤
          (c.n - c.i) * P.txPollLimit - c.cnt + P.donePollLimit + 2
        omega

/-- One iteration of the done wait finds `done`, fails, or fails for the last time (R178). -/
theorem doneWait_goesOn (h : Exchanged P F s0 in0 k s c) (hp : PhaseOk P s c)
    (hph : c.phase = .doneWait) : ∃ c', GoesOn P F s0 in0 k c (s.seqStep P c) c' ∧
      (s.seqStep P c).schedDraws = s.schedDraws := by
  obtain ⟨hi, hcnt⟩ := hp.in_doneWait hph
  obtain ⟨-, -, -, hx⟩ := h.drain
  have e : s.seqStep P c = (s.drainRx c).donePoll P (c.drain s.eng.rxq) := by
    simp [State.seqStep, hph]
  have htxq : (s.drainRx c).eng.txq = (c.out.drop k).take (c.i - k) := hx.txq
  have hexch : ∀ c', c' = { c.drain s.eng.rxq with cnt := c'.cnt, phase := c'.phase } →
      Exchanged P F s0 in0 k ((s.drainRx c).setEng
        { (s.drainRx c).eng with call := some c' }) c' := by
    intro c' hc'
    rw [hc']
    exact ⟨hx.dev, hx.miso, hx.host, hx.cs, hx.out_le, hx.in_le, hx.i_le, hx.k_le, hx.j_le,
      hx.txq, hx.rxq, hx.inBuf⟩
  rw [e]
  unfold State.donePoll
  split
  · rename_i hdone
    have hq : (s.drainRx c).eng.txq = [] := by simpa [Engine.done] using hdone
    apply Exists.intro
    refine ⟨?_, rfl⟩
    constructor
    case call => rfl
    case begun => simp
    case n_eq => rfl
    case out_eq => rfl
    case endFlag_eq => rfl
    case exchanged => exact hexch _ rfl
    case phaseOk =>
      constructor
      case in_residual => intro _; exact ⟨hi, hq⟩
      all_goals simp
    case fewer => simp only [stepsLeft, hph]; omega
  · rename_i hdone
    have hn : 0 < c.n := by
      by_contra h0
      have : c.i - k = 0 := by omega
      rw [this] at htxq
      exact hdone (by simp [Engine.done, htxq])
    apply Exists.intro
    refine ⟨?_, rfl⟩
    constructor
    case call => rfl
    case begun => show (if _ then _ else _) ≠ _; split <;> simp
    case n_eq => rfl
    case out_eq => rfl
    case endFlag_eq => rfl
    case exchanged => exact hexch _ rfl
    case phaseOk =>
      constructor
      all_goals
        show (if c.cnt + 1 = P.donePollLimit then Phase.timeout else Phase.doneWait) = _ → _
      case in_doneWait =>
        split
        · intro hh; simp at hh
        · intro _; exact ⟨hi, show c.cnt + 1 < _ by omega⟩
      case in_timeout => intro _; exact hn
      all_goals split <;> intro hh <;> simp at hh
    case fewer =>
      rw [stepsLeft_of_phase hph]
      by_cases hlast : c.cnt + 1 = P.donePollLimit
      · rw [stepsLeft_of_phase (p := .timeout) (if_pos hlast)]
        show 1 + 1 ≤ P.donePollLimit - c.cnt + 2
        omega
      · rw [stepsLeft_of_phase (p := .doneWait) (if_neg hlast)]
        show P.donePollLimit - (c.cnt + 1) + 2 + 1 ≤ P.donePollLimit - c.cnt + 2
        omega

/-- The residual drain receives every byte of the call (R179). -/
theorem residual_goesOn (h : Exchanged P F s0 in0 k s c) (hp : PhaseOk P s c)
    (hph : c.phase = .residual) : ∃ c', GoesOn P F s0 in0 k c (s.seqStep P c) c' ∧
      (s.seqStep P c).schedDraws = s.schedDraws := by
  obtain ⟨hi, hq⟩ := hp.in_residual hph
  obtain ⟨hrx, hj, -, hx⟩ := h.drain
  have hk : k = c.n := by
    have ht := h.txq
    rw [hq] at ht
    have hlen := congrArg List.length ht
    simp only [List.length_nil, List.length_take, List.length_drop] at hlen
    have := h.k_le; have := h.out_le; omega
  have e : s.seqStep P c = (s.drainRx c).setEng
      { (s.drainRx c).eng with call := some { c.drain s.eng.rxq with phase := .finish } } := by
    simp [State.seqStep, hph]
  rw [e]
  apply Exists.intro
  refine ⟨?_, rfl⟩
  constructor
  case call => rfl
  case begun => simp
  case n_eq => rfl
  case out_eq => rfl
  case endFlag_eq => rfl
  case exchanged =>
    exact ⟨hx.dev, hx.miso, hx.host, hx.cs, hx.out_le, hx.in_le, hx.i_le, hx.k_le, hx.j_le,
      hx.txq, hx.rxq, hx.inBuf⟩
  case phaseOk =>
    constructor
    case in_finish => intro _; exact ⟨hi, hj.trans hk, hq, hrx⟩
    all_goals simp
  case fewer => simp [stepsLeft, hph]

/-- The last step of an Ok call leaves the Ok result (R179, R180). -/
theorem finish_returned (h : Exchanged P F s0 in0 k s c) (hp : PhaseOk P s c)
    (hph : c.phase = .finish) (h0 : s0.eng.AtRest) :
    Returned P F s0 in0 k c (s.seqStep P c) ∧ (s.seqStep P c).eng.call = none ∧
      (s.seqStep P c).schedDraws = s.schedDraws := by
  obtain ⟨hi, hj, hq, hr⟩ := hp.in_finish hph
  obtain ⟨ha, hb, hc⟩ := h0
  have hk : k = c.n := by have := h.k_le; have := h.j_le; omega
  subst hk
  have hin : c.inBuf = (s0.wireBytes P F (c.out.take c.n)).2 ++ in0.drop c.n := by
    have hin := h.inBuf
    rwa [hj, List.take_of_length_le (by simp)] at hin
  have e : s.seqStep P c = (if c.endFlag then s.engineEnd else s).returnCall c .ok := by
    simp [State.seqStep, hph]
  rw [e]
  refine ⟨.inl ?_, ?_, ?_⟩
  · unfold State.SameButSched
    have h1 := h.dev; have h2 := h.miso; have h3 := h.host; have h4 := h.cs
    cases hend : c.endFlag <;>
      ext1 <;>
      simp [State.returnCall, State.okResult, State.engineEnd, State.opened, h1, h2, h3, h4, hin,
        hj, hq, hr, ha, hb, hc]
    ext1 <;> simp [ha, hb, hc]
  · cases c.endFlag <;> rfl
  · cases c.endFlag <;> rfl

/-- TimeoutExit leaves the timeout result of the bytes exchanged (R181). -/
theorem timeout_returned (h : Exchanged P F s0 in0 k s c) (hp : PhaseOk P s c)
    (hph : c.phase = .timeout) (h0 : s0.eng.AtRest) :
    Returned P F s0 in0 k c (s.seqStep P c) ∧ (s.seqStep P c).eng.call = none ∧
      (s.seqStep P c).schedDraws = s.schedDraws := by
  obtain ⟨hrx, hj, hin, -⟩ := h.drain
  obtain ⟨ha, hb, hc⟩ := h0
  have hk : k ≤ c.n := h.k_le.trans h.i_le
  have e : s.seqStep P c = s.timeoutExit c := by simp [State.seqStep, hph]
  rw [e]
  refine ⟨.inr ⟨hp.in_timeout hph, hk, ?_⟩, rfl, rfl⟩
  unfold State.SameButSched
  have h1 := h.dev; have h2 := h.miso; have h3 := h.host; have h4 := h.cs
  ext1 <;>
    simp [State.timeoutExit, State.returnCall, State.timeoutResult, State.engineEnd, State.opened,
      h1, h2, h3, hin, hj, hrx, ha, hb, hc]

/-- A tick past Begin is the shifter's turn and a sequencer step (R188). -/
theorem State.tick_eq (hcall : s.eng.call = some c) (hb : c.phase ≠ .start) :
    s.tick P F = (s.shifterTurn P F).seqStep P c := by
  unfold State.tick
  rw [hcall]
  cases hph : c.phase <;> simp_all

/-- One sequencer step of a call past Begin: the call returns or goes on (R188). -/
theorem seqStep_running (h : Exchanged P F s0 in0 k s c) (hp : PhaseOk P s c)
    (hb : c.phase ≠ .start) (h0 : s0.eng.AtRest) :
    (s.seqStep P c).schedDraws = s.schedDraws ∧
      ((∃ c', GoesOn P F s0 in0 k c (s.seqStep P c) c') ∨
        (Returned P F s0 in0 k c (s.seqStep P c) ∧ (s.seqStep P c).eng.call = none)) := by
  cases hph : c.phase with
  | start => exact absurd hph hb
  | transmit => obtain ⟨c', g, d⟩ := transmit_goesOn h hp hph; exact ⟨d, .inl ⟨c', g⟩⟩
  | doneWait => obtain ⟨c', g, d⟩ := doneWait_goesOn h hp hph; exact ⟨d, .inl ⟨c', g⟩⟩
  | residual => obtain ⟨c', g, d⟩ := residual_goesOn h hp hph; exact ⟨d, .inl ⟨c', g⟩⟩
  | finish => obtain ⟨r, n, d⟩ := finish_returned h hp hph h0; exact ⟨d, .inr ⟨r, n⟩⟩
  | timeout => obtain ⟨r, n, d⟩ := timeout_returned h hp hph h0; exact ⟨d, .inr ⟨r, n⟩⟩

/-- One tick of a call past Begin: one draw, some bytes exchanged, and the call returns or goes on
(R188). -/
theorem tick_running (h : Exchanged P F s0 in0 k s c) (hp : PhaseOk P s c)
    (hcall : s.eng.call = some c) (hb : c.phase ≠ .start) (h0 : s0.eng.AtRest) :
    (s.tick P F).schedDraws = s.schedDraws + 1 ∧ ∃ k',
      ((∃ c', GoesOn P F s0 in0 k' c (s.tick P F) c') ∨
        (Returned P F s0 in0 k' c (s.tick P F) ∧ (s.tick P F).eng.call = none)) := by
  obtain ⟨k', h'⟩ := h.shifterTurn
  obtain ⟨d, r⟩ := seqStep_running h' (hp.shifterTurn (F := F)) hb h0
  rw [State.tick_eq hcall hb, ← (s.shifterTurn_frame P F).2.1]
  exact ⟨d, k', r⟩

/-- With no call running, a run is over. -/
theorem State.runCall_none (P : Params) (F : Draws) (s : State) (h : s.eng.call = none)
    (fuel : Nat) : s.runCall P F fuel = s := by
  cases fuel <;> simp [State.runCall, h]

/-- A call past Begin returns within the steps it has left (R188). -/
theorem runCall_returned (fuel : Nat) (h : Exchanged P F s0 in0 k s c) (hp : PhaseOk P s c)
    (hcall : s.eng.call = some c) (hb : c.phase ≠ .start) (h0 : s0.eng.AtRest)
    (hf : stepsLeft P c ≤ fuel) :
    (∃ k', Returned P F s0 in0 k' c (s.runCall P F fuel)) ∧
      (s.runCall P F fuel).eng.call = none ∧
      s.schedDraws ≤ (s.runCall P F fuel).schedDraws ∧
      (s.runCall P F fuel).schedDraws ≤ s.schedDraws + stepsLeft P c := by
  induction fuel generalizing s c k with
  | zero => cases hph : c.phase <;> simp [stepsLeft, hph] at hf
  | succ fuel ih =>
    obtain ⟨hd, k', hcase⟩ := tick_running h hp hcall hb h0
    have e : s.runCall P F (fuel + 1) = (s.tick P F).runCall P F fuel := by
      simp [State.runCall, hcall]
    rw [e]
    rcases hcase with ⟨c', g⟩ | ⟨r, hn⟩
    · have hle := g.fewer
      obtain ⟨⟨k'', i1⟩, i2, i3, i4⟩ := ih g.exchanged g.phaseOk g.call g.begun (by omega)
      refine ⟨⟨k'', ?_⟩, i2, by omega, by omega⟩
      simpa [Returned, g.n_eq, g.out_eq, g.endFlag_eq] using i1
    · rw [State.runCall_none P F _ hn]
      refine ⟨⟨k', r⟩, hn, by omega, ?_⟩
      have : 0 < stepsLeft P c := by cases hph : c.phase <;> simp [stepsLeft, hph]
      omega

/-- The state in which a call past Begin stands before its first exchange (R176). -/
def State.begun (s : State) (endFlag : Bool) (n : Nat) (out inBuf : List Byte) : State :=
  s.setEng { s.eng with call := some (Call.initial false endFlag n out inBuf) }

/-- A call that has just begun has exchanged nothing, and stands in a wait (R176). -/
theorem State.begun_exchanged (P : Params) (F : Draws) (s : State) (endFlag : Bool) (n : Nat)
    (out inBuf : List Byte) (hr : s.eng.AtRest) (ho : n ≤ out.length) (hi : n ≤ inBuf.length) :
    Exchanged P F s inBuf 0 (s.begun endFlag n out inBuf) (Call.initial false endFlag n out inBuf) ∧
      PhaseOk P (s.begun endFlag n out inBuf) (Call.initial false endFlag n out inBuf) ∧
      (Call.initial false endFlag n out inBuf).phase ≠ .start ∧
      stepsLeft P (Call.initial false endFlag n out inBuf) ≤
        n * P.txPollLimit + P.donePollLimit + 2 := by
  obtain ⟨ha, hb, hc⟩ := hr
  refine ⟨?_, ?_, ?_, ?_⟩
  · exact
      { dev := rfl
        miso := rfl
        host := rfl
        cs := rfl
        out_le := ho
        in_le := hi
        i_le := Nat.zero_le _
        k_le := Nat.le_refl _
        j_le := Nat.le_refl _
        txq := by simpa [State.begun, Call.initial] using hb
        rxq := by simpa [State.begun, Call.initial] using hc
        inBuf := by simp [Call.initial] }
  · constructor
    all_goals
      show nextWait 0 n = _ → _
      unfold nextWait
    · split
      · intro _; exact ⟨‹_›, txPollLimit_pos P⟩
      · intro hh; simp at hh
    · split
      · intro hh; simp at hh
      · intro _; exact ⟨show 0 = n by omega, by simp [Call.initial, Params.donePollLimit]⟩
    all_goals split <;> intro hh <;> simp at hh
  · show nextWait 0 n ≠ _; unfold nextWait; split <;> simp
  · by_cases hn : 0 < n
    · rw [stepsLeft_of_phase (p := .transmit) (if_pos hn)]
      show (n - 0) * P.txPollLimit - 0 + P.donePollLimit + 2 ≤ _
      simp
    · rw [stepsLeft_of_phase (p := .doneWait) (if_neg hn)]
      show P.donePollLimit - 0 + 2 ≤ _
      omega

/-- A legal call is the run of the call it begins, with steps enough for it (R171, R172, R176). -/
theorem State.transfer_run (P : Params) (F : Draws) (s : State) (beginFlag endFlag : Bool)
    (n : Nat) (out inBuf : List Byte) (hr : s.eng.AtRest) (ho : n ≤ out.length)
    (hi : n ≤ inBuf.length) :
    ∃ fuel, n * P.txPollLimit + P.donePollLimit + 2 ≤ fuel ∧
      s.transfer P F beginFlag endFlag (8 * n) out inBuf =
        .next (((s.opened beginFlag).begun endFlag n out inBuf).runCall P F fuel) := by
  have e : s.transfer P F beginFlag endFlag (8 * n) out inBuf =
      .next ((s.startCall beginFlag endFlag n out inBuf).runCall P F (callBound P n)) := by
    have h1 : 8 * n % 8 = 0 := by omega
    have h2 : 8 * n / 8 = n := by omega
    simp [State.transfer, h1, h2, hr.1]
    omega
  rw [e]
  cases beginFlag
  · exact ⟨callBound P n, by unfold callBound; omega, rfl⟩
  · exact ⟨n * P.txPollLimit + P.donePollLimit + 3, by omega, rfl⟩

/-- Begin leaves the engine at rest but for the running call (R172). -/
theorem State.opened_atRest (h : s.eng.AtRest) (b : Bool) : (s.opened b).eng.AtRest := by
  cases b
  · exact h
  · exact ⟨h.1, rfl, rfl⟩

/-- What a legal call leaves, whatever its flags: one of the two results, no call running, and at most
n·TX_POLL_LIMIT + DONE_POLL_LIMIT + 2 draws made (R179, R181, R188). -/
theorem State.transfer_returned (P : Params) (F : Draws) (s : State) (beginFlag endFlag : Bool)
    (n : Nat) (out inBuf : List Byte) (hr : s.eng.AtRest) (ho : n ≤ out.length)
    (hi : n ≤ inBuf.length) :
    ∃ t, s.transfer P F beginFlag endFlag (8 * n) out inBuf = .next t ∧
      s.CallOutcome P F beginFlag endFlag n out inBuf t ∧ t.eng.call = none ∧
      s.schedDraws ≤ t.schedDraws ∧
      t.schedDraws ≤ s.schedDraws + (n * P.txPollLimit + P.donePollLimit + 2) := by
  obtain ⟨fuel, hf, e⟩ := s.transfer_run P F beginFlag endFlag n out inBuf hr ho hi
  have hopen := State.opened_atRest hr beginFlag
  obtain ⟨hx, hp, hbegun, hleft⟩ :=
    (s.opened beginFlag).begun_exchanged P F endFlag n out inBuf hopen ho hi
  obtain ⟨⟨k, r⟩, hn, hd1, hd2⟩ := runCall_returned fuel hx hp rfl hbegun hopen (by omega)
  have hs : ((s.opened beginFlag).begun endFlag n out inBuf).schedDraws = s.schedDraws := by
    cases beginFlag <;> rfl
  refine ⟨_, e, ?_, hn, by omega, by omega⟩
  have hopened : (s.opened beginFlag).opened false = s.opened beginFlag := rfl
  rcases r with r | ⟨h1, h2, r⟩
  · exact .inl (by simpa [State.okResult, hopened, Call.initial] using r)
  · exact .inr ⟨k, h1, h2, by simpa [State.timeoutResult, hopened, Call.initial] using r⟩

end Sys2Proof.Machine
end

