-- ==== Sys2Proof/Laws/Words.lean ====
section
/-! SUPPORT. The fields of the words the encoder builds: each field is read back where R71, R80 and R86 put
it. -/

namespace Sys2Proof

/-- A field above the low part of a word is a field of the high part. -/
theorem extract_append_high {m n : Nat} (x : BitVec m) (y : BitVec n) (k w : Nat) :
    (x ++ y).extractLsb' (n + k) w = x.extractLsb' k w := by
  ext i hi
  simp [BitVec.getLsbD_append, show ¬ n + k + i < n by omega,
    show n + k + i - n = k + i by omega]

/-- A bit above the low part of a word is a bit of the high part. -/
theorem getLsbD_append_high {m n : Nat} (x : BitVec m) (y : BitVec n) (k : Nat) :
    (x ++ y).getLsbD (n + k) = x.getLsbD k := by
  simp [BitVec.getLsbD_append]

/-- A field within the low part of a word is a field of the low part. -/
theorem extract_append_low {m n : Nat} (x : BitVec m) (y : BitVec n) (k w : Nat)
    (h : k + w ≤ n) : (x ++ y).extractLsb' k w = y.extractLsb' k w := by
  ext i hi
  simp [BitVec.getLsbD_append, show k + i < n by omega]

/-- Two neighbouring fields of a word are one field. -/
theorem extract_append_extract {n : Nat} (x : BitVec n) (s l m : Nat) :
    x.extractLsb' (s + l) m ++ x.extractLsb' s l = x.extractLsb' s (m + l) := by
  ext i hi
  simp only [BitVec.getElem_append, BitVec.getElem_extractLsb']
  split
  · rfl
  · rw [show s + l + (i - l) = s + i by omega]

/-- A whole word is the field at 0 of its own width. -/
theorem extract_whole {n : Nat} (x : BitVec n) : x.extractLsb' 0 n = x := by
  ext i hi
  simp

section Header

variable (dir : Dir) (rsv : BitVec 1) (lenm1 : BitVec 6) (marker : Byte) (addr : BitVec 16)

theorem hdrWord_addr : (hdrWord dir rsv lenm1 marker addr).extractLsb' 0 16 = addr := by
  refine (extract_append_low _ addr 0 16 (by omega)).trans (extract_whole addr)

theorem hdrWord_marker : (hdrWord dir rsv lenm1 marker addr).extractLsb' 16 8 = marker := by
  refine (extract_append_high _ addr 0 8).trans ?_
  exact (extract_append_low _ marker 0 8 (by omega)).trans (extract_whole marker)

theorem hdrWord_lenm1 : (hdrWord dir rsv lenm1 marker addr).extractLsb' 24 6 = lenm1 := by
  refine (extract_append_high _ addr 8 6).trans ?_
  refine (extract_append_high _ marker 0 6).trans ?_
  exact (extract_append_low _ lenm1 0 6 (by omega)).trans (extract_whole lenm1)

theorem hdrWord_rsv : (hdrWord dir rsv lenm1 marker addr).extractLsb' 30 1 = rsv := by
  refine (extract_append_high _ addr 14 1).trans ?_
  refine (extract_append_high _ marker 6 1).trans ?_
  refine (extract_append_high _ lenm1 0 1).trans ?_
  exact (extract_append_low _ rsv 0 1 (by omega)).trans (extract_whole rsv)

/-- The first wire byte of a header (R71). -/
theorem hdrWord_byte0 : (hdrWord dir rsv lenm1 marker addr).extractLsb' 24 8 =
    (match dir with | .read => 1#1 | .write => 0#1) ++ rsv ++ lenm1 := by
  refine (extract_append_high _ addr 8 8).trans ?_
  refine (extract_append_high _ marker 0 8).trans ?_
  exact extract_whole _

theorem hdrWord_addrHigh : (hdrWord dir rsv lenm1 marker addr).extractLsb' 8 8 =
    addr.extractLsb' 8 8 :=
  extract_append_low _ addr 8 8 (by omega)

theorem hdrWord_addrLow : (hdrWord dir rsv lenm1 marker addr).extractLsb' 0 8 =
    addr.extractLsb' 0 8 :=
  extract_append_low _ addr 0 8 (by omega)

theorem hdrWord_dir : (hdrWord dir rsv lenm1 marker addr).getLsbD 31 = (dir == .read) := by
  refine (getLsbD_append_high _ addr 15).trans ?_
  refine (getLsbD_append_high _ marker 7).trans ?_
  refine (getLsbD_append_high _ lenm1 1).trans ?_
  refine (getLsbD_append_high _ rsv 0).trans ?_
  cases dir <;> rfl

end Header

theorem accWord_addr (dir : Dir) (a : Nat) :
    (accWord dir a).extractLsb' 0 16 = BitVec.ofNat 16 a := by
  refine (extract_append_low _ (BitVec.ofNat 16 a) 0 16 (by omega)).trans (extract_whole _)

theorem accWord_dir (dir : Dir) (a : Nat) : (accWord dir a).getLsbD 16 = (dir == .read) := by
  refine (getLsbD_append_high _ (BitVec.ofNat 16 a) 0).trans ?_
  cases dir <;> rfl

theorem wireWord_mosi (kind : BitVec 2) (mosi : Byte) :
    (wireWord kind mosi).extractLsb' 0 8 = mosi := by
  refine (extract_append_low _ mosi 0 8 (by omega)).trans (extract_whole _)

theorem wireWord_kind1 (kind : BitVec 2) (mosi : Byte) :
    (wireWord kind mosi).getLsbD 9 = kind.getLsbD 1 :=
  getLsbD_append_high kind mosi 1

theorem wireWord_kind0 (kind : BitVec 2) (mosi : Byte) :
    (wireWord kind mosi).getLsbD 8 = kind.getLsbD 0 :=
  getLsbD_append_high kind mosi 0

end Sys2Proof
end

