-- ==== Sys2Proof/Laws/Machine.lean ====
section
/-! SUPPORT. The whole machine: every step is a run of device events, and every operation keeps the
invariants of R41. -/

namespace Sys2Proof.Machine

/-! ### What a step can do to the device -/

/-- One event or access at the device (R58, R95): all that changes the device. -/
inductive Device.Event (P : Params) : Device → Device → Prop where
  | csBegin (d : Device) : Event P d d.csBegin
  | csEnd (d : Device) : Event P d d.csEnd
  | byte (d : Device) (m : Byte) (h : d.sel = true) : Event P d (d.byte P m).1
  | memRead (d : Device) (a : Nat) : Event P d (d.memRead P a).1
  | memWrite (d : Device) (a : Nat) (v : Byte) : Event P d (d.memWrite P a v)
  | probe (d : Device) : Event P d d.probe
  | count (d : Device) : Event P d d.bumpOffset

/-- Some events, one after another. -/
abbrev Device.Reach (P : Params) : Device → Device → Prop := Relation.ReflTransGen (Device.Event P)

/-- Whatever every event keeps, a run of events keeps. -/
theorem Device.Reach.keeps {P : Params} {K : Device → Prop}
    (step : ∀ d e, Device.Event P d e → K d → K e) {d e : Device} (h : Device.Reach P d e)
    (hd : K d) : K e := by
  induction h with
  | refl => exact hd
  | tail _ he ih => exact step _ _ he ih

theorem State.wireByte_reach (P : Params) (F : Draws) (s : State) (m : Byte) :
    Device.Reach P s.dev (s.wireByte P F m).1.dev := by
  rcases s.wireByte_cases P F m with ⟨hs, e⟩ | ⟨-, e⟩ <;> rw [e]
  · exact .single (.byte s.dev m hs)
  · exact .refl

theorem State.wireBytes_reach (P : Params) (F : Draws) (s : State) (bs : List Byte) :
    Device.Reach P s.dev (s.wireBytes P F bs).1.dev := by
  induction bs generalizing s with
  | nil => exact .refl
  | cons b bs ih =>
    rw [State.wireBytes_cons]
    exact (s.wireByte_reach P F b).trans (ih _)

theorem State.shifterStep_reach (P : Params) (F : Draws) (s : State) :
    Device.Reach P s.dev (s.shifterStep P F).dev := by
  rcases s.shifterStep_cases P F with ⟨b, q, -, -, e⟩ | e <;> rw [e]
  exact s.wireByte_reach P F b

theorem State.shifterTurn_reach (P : Params) (F : Draws) (s : State) :
    Device.Reach P s.dev (s.shifterTurn P F).dev := by
  obtain ⟨m, e⟩ := s.shifterTurn_eq P F
  rw [e]
  exact State.shifterSteps_induct (fun t => Device.Reach P s.dev t.dev)
    (fun t ht => ht.trans (t.shifterStep_reach P F)) m _ .refl

theorem State.seqStep_reach (P : Params) (s : State) (c : Call) :
    Device.Reach P s.dev (s.seqStep P c).dev := by
  have hb : Device.Reach P s.dev s.dev.csBegin := .single (.csBegin _)
  have he : Device.Reach P s.dev s.dev.csEnd := .single (.csEnd _)
  unfold State.seqStep
  cases c.phase <;> dsimp only
  case start => exact hb
  case transmit => unfold State.transmitPoll; split <;> exact .refl
  case doneWait => unfold State.donePoll; split <;> exact .refl
  case residual => exact .refl
  case finish => cases c.endFlag <;> [exact .refl; exact he]
  case timeout => exact he

theorem State.tick_reach (P : Params) (F : Draws) (s : State) :
    Device.Reach P s.dev (s.tick P F).dev := by
  unfold State.tick
  split
  · exact .refl
  · split
    · exact s.seqStep_reach P _
    · exact (s.shifterTurn_reach P F).trans (State.seqStep_reach P _ _)

theorem State.runCall_reach (P : Params) (F : Draws) (s : State) (fuel : Nat) :
    Device.Reach P s.dev (s.runCall P F fuel).dev := by
  induction fuel generalizing s with
  | zero => exact .refl
  | succ fuel ih =>
    unfold State.runCall
    split
    · exact .refl
    · exact (s.tick_reach P F).trans (ih _)

/-- A call that goes on is no refusal: it runs from the state it was made in (R171, R185). -/
theorem State.transfer_next {P : Params} {F : Draws} {s t : State} {b e : Bool} {m : Nat}
    {out inBuf : List Byte} (h : s.transfer P F b e m out inBuf = .next t) :
    m % 8 = 0 ∧ s.eng.call = none ∧ m / 8 ≤ out.length ∧ m / 8 ≤ inBuf.length ∧
      t = (s.startCall b e (m / 8) out inBuf).runCall P F (callBound P (m / 8)) := by
  unfold State.transfer at h
  split at h
  · simp at h
  split at h
  · simp at h
  split at h
  · simp at h
  rename_i h1 h2 h3
  refine ⟨by omega, by simpa using h2, by omega, by omega, ?_⟩
  simpa using h.symm

theorem State.transfer_reach {P : Params} {F : Draws} {s t : State} {b e : Bool} {m : Nat}
    {out inBuf : List Byte} (h : s.transfer P F b e m out inBuf = .next t) :
    Device.Reach P s.dev t.dev := by
  obtain ⟨-, -, -, -, rfl⟩ := State.transfer_next h
  exact State.runCall_reach P F (s.startCall b e (m / 8) out inBuf) _

theorem Device.fifoRead_event (P : Params) (d : Device) : Device.Event P d d.fifoRead.1 :=
  .memRead d 0x24

theorem Device.fifoWrite_event (P : Params) (d : Device) (v : Byte) :
    Device.Event P d (d.fifoWrite P v) := .memWrite d 0x24 v

theorem Device.stsWrite0_event (P : Params) (d : Device) (v : Byte) :
    Device.Event P d (d.stsWrite0 P v) := .memWrite d 0x18 v

theorem Device.accessWrite_event (P : Params) (d : Device) (v : Byte) :
    Device.Event P d (d.accessWrite v) := .memWrite d 0x00 v

theorem Device.grant_event (P : Params) (d : Device) : Device.Event P d d.grant :=
  .memWrite d 0x00 0x02

theorem Device.abort_event (P : Params) (d : Device) : Device.Event P d (d.abort P) :=
  .memWrite d 0x18 0x40

theorem Device.go_event (P : Params) (d : Device) : Device.Event P d (d.go P) :=
  .memWrite d 0x18 0x20

/-- What an instruction does to the device is a run of events. -/
theorem exec_reach {i : Instr} {s t : State} (h : exec i s = .next t) :
    Device.Reach Config.hw s.dev t.dev := by
  cases i
  case xferBE => exact State.transfer_reach h
  case xferB => exact State.transfer_reach h
  case xferC => exact State.transfer_reach h
  case xferE => exact State.transfer_reach h
  all_goals (obtain rfl := Host.Outcome.next.inj h)
  case hdrWrite => exact s.wireBytes_reach _ _ _
  case hdrRead => exact s.wireBytes_reach _ _ _
  case wireBegin => exact .single (.csBegin _)
  case wireEnd => exact .single (.csEnd _)
  case rdFifo => exact .single (Device.fifoRead_event _ _)
  case wrAccess v => exact .single (Device.accessWrite_event _ _ v)
  case wrSts0 v => exact .single (Device.stsWrite0_event _ _ v)
  case wrFifo _ v => exact .single (Device.fifoWrite_event _ _ v)
  case stsAbort => exact .single (Device.abort_event _ _)
  case stsGo => exact .single (Device.go_event _ _)
  case stsAbortGo =>
    exact (Relation.ReflTransGen.single (Device.abort_event _ s.dev)).tail (Device.go_event _ _)
  case accRequestUse => exact .single (Device.grant_event _ _)
  case init => exact .single (.probe _)
  case wireByteUnsel m => exact s.wireBytes_reach _ _ [m]
  case wireByteHdr m => exact s.wireBytes_reach _ _ [m]
  case wireByteDataRd m => exact s.wireBytes_reach _ _ [m]
  case wireByteDataWr m => exact s.wireBytes_reach _ _ [m]
  case wireBytePast m => exact s.wireBytes_reach _ _ [m]
  all_goals exact .refl

/-- The data phase in which an access of the host's is made: selected, the header of one byte at the
access's address decoded, nothing else changed (R50, R97, R101). -/
theorem State.openAccess_eq (P : Params) (F : Draws) (s : State) (dir : Dir) (a : BitVec 16) :
    s.openAccess P F dir a = s.setDev { s.dev with
      sel := true
      hdr := ⟨match dir with | .read => 0x80 | .write => 0x00, 0xD4,
        a.extractLsb' 8 8, a.extractLsb' 0 8⟩
      hdrCnt := 4
      dir := dir
      len := 1
      addr := a
      offset := 0 } := by
  have ha : be16 (a.extractLsb' 8 8) (a.extractLsb' 0 8) = a :=
    (extract_append_extract a 0 8 8).trans (extract_whole a)
  simp only [State.openAccess, headerBytes, hdrWord_byte0, hdrWord_marker, hdrWord_addrHigh,
    hdrWord_addrLow]
  cases dir <;>
    simp [State.wireBytes_cons, State.wireByte, State.wireBegin, Device.csBegin, Device.byte,
      Device.headerByte, HdrBytes.set, Device.headerDecode, decodeHeader, State.setDev, ha]

@[simp] theorem State.openAccess_eng (P : Params) (F : Draws) (s : State) (dir : Dir)
    (a : BitVec 16) : (s.openAccess P F dir a).eng = s.eng := State.wireBytes_eng ..

@[simp] theorem State.openAccess_host (P : Params) (F : Draws) (s : State) (dir : Dir)
    (a : BitVec 16) : (s.openAccess P F dir a).host = s.host := State.wireBytes_host ..

theorem State.openAccess_reach (P : Params) (F : Draws) (s : State) (dir : Dir) (a : BitVec 16) :
    Device.Reach P s.dev (s.openAccess P F dir a).dev :=
  (Relation.ReflTransGen.single (.csBegin s.dev)).trans (s.wireBegin.wireBytes_reach P F _)

@[simp] theorem State.closeAccess_dev (s : State) : s.closeAccess.dev = s.dev.bumpOffset.csEnd := rfl
@[simp] theorem State.closeAccess_eng (s : State) : s.closeAccess.eng = s.eng := rfl
@[simp] theorem State.closeAccess_host (s : State) : s.closeAccess.host = s.host := rfl
@[simp] theorem State.closeAccess_reply (s : State) : s.closeAccess.reply = s.reply := rfl
@[simp] theorem State.closeAccess_misoDraws (s : State) :
    s.closeAccess.misoDraws = s.misoDraws := rfl
@[simp] theorem State.closeAccess_schedDraws (s : State) :
    s.closeAccess.schedDraws = s.schedDraws := rfl

theorem State.closeAccess_reach (P : Params) (s : State) :
    Device.Reach P s.dev s.closeAccess.dev :=
  (Relation.ReflTransGen.single (.count s.dev)).tail (.csEnd _)

/-- An operation of the host's runs as it is, or between the opening and the end of its transaction. -/
theorem State.inDataPhase_cases {P : Params} {F : Draws} {s t : State}
    {access : Option (Dir × BitVec 16)} {run : State → Host.Outcome State Fault Refusal}
    (h : s.inDataPhase P F access run = .next t) :
    (access = none ∧ run s = .next t) ∨
      ∃ dir a u, access = some (dir, a) ∧ run (s.openAccess P F dir a) = .next u ∧
        t = u.closeAccess := by
  unfold State.inDataPhase at h
  split at h
  · exact .inl ⟨rfl, h⟩
  · split at h <;> first | (simp at h; done) | skip
    exact .inr ⟨_, _, _, rfl, ‹_›, (Host.Outcome.next.inj h).symm⟩

/-- The access of a row completes and leaves the parser alone, at every address (R117, R118). -/
theorem exec_accessRow_next (s : State) (dir : Dir) (a : Nat) (v : Byte) :
    ∃ t, exec (accessRow dir a v) s = .next t ∧ t.dev.SameParser s.dev := by
  cases dir
  · simp only [accessRow, readRow]
    repeat' split
    all_goals
      refine ⟨_, rfl, ?_⟩
      first | exact Device.SameParser.refl _ | exact Device.fifoRead_sameParser _
  · simp only [accessRow, writeRow]
    repeat' split
    all_goals
      refine ⟨_, rfl, ?_⟩
      first
        | exact Device.SameParser.refl _
        | exact Device.fifoWrite_sameParser ..
        | exact Device.stsWrite0_sameParser ..
        | exact Device.memWrite_sameParser Config.hw _ 0 _

/-- An operation that stands for an access completes and leaves the parser alone (R50). -/
theorem exec_access_next {r : Request} {bc : ByteCase} {i : Instr} {dir : Dir} {a : BitVec 16}
    (h : decode bc r = .ok i) (ha : r.access = some (dir, a)) (s : State) :
    ∃ t, exec i s = .next t ∧ t.dev.SameParser s.dev := by
  cases r <;> simp only [Request.access, reduceCtorEq] at ha <;>
    simp only [decode, Except.ok.injEq] at h <;> subst h
  case acc w v => exact exec_accessRow_next ..
  case stsw w =>
    unfold decodeStsw
    split <;> refine ⟨_, rfl, ?_⟩
    · simp [Device.SameParser]
    · exact Device.go_sameParser ..
    · simp [Device.SameParser]
    · exact Device.SameParser.refl _
  case accw w =>
    unfold decodeAccw
    split <;> refine ⟨_, rfl, Device.SameParser.refl _⟩

/-- A step is a sequencer step of the running call, a rest, or an operation of the host's list, an
access in its data phase. -/
theorem step_cases {s t : State} (h : step s = .next t) :
    (s.eng.call ≠ none ∧ t = s.tick Config.hw Config.draws) ∨
      (s.eng.call = none ∧ s.host = [] ∧ t = s) ∨
      (s.eng.call = none ∧ ∃ r rest i, s.host = r :: rest ∧ decode s.dev.byteCase r = .ok i ∧
        (s.setHost rest).inDataPhase Config.hw Config.draws r.access (exec i) = .next t) := by
  unfold step State.fetch at h
  split at h
  · rename_i c hc
    exact .inl ⟨by simp [hc], by simpa using h.symm⟩
  · rename_i hc
    cases hh : s.host with
    | nil => simp only [hh] at h; exact .inr (.inl ⟨hc, rfl, by simpa using h.symm⟩)
    | cons r rest =>
      simp only [hh, State.setHost_dev] at h
      cases hd : decode s.dev.byteCase r with
      | ok i => simp only [hd] at h; exact .inr (.inr ⟨hc, r, rest, i, rfl, hd, h⟩)
      | error e => simp [hd] at h

/-- What an operation of the host's does to the device is a run of events. -/
theorem State.inDataPhase_reach {s t : State} {access : Option (Dir × BitVec 16)} {i : Instr}
    (h : s.inDataPhase Config.hw Config.draws access (exec i) = .next t) :
    Device.Reach Config.hw s.dev t.dev := by
  rcases State.inDataPhase_cases h with ⟨-, hx⟩ | ⟨dir, a, u, -, hx, rfl⟩
  · exact exec_reach hx
  · exact (s.openAccess_reach _ _ dir a).trans
      ((exec_reach hx).trans (u.closeAccess_reach Config.hw))

/-- What a step does to the device is a run of events. -/
theorem step_reach {s t : State} (h : step s = .next t) : Device.Reach Config.hw s.dev t.dev := by
  rcases step_cases h with ⟨-, rfl⟩ | ⟨-, -, rfl⟩ | ⟨-, r, rest, i, -, -, hx⟩
  · exact s.tick_reach _ _
  · exact .refl
  · exact (State.inDataPhase_reach hx :)

/-! ### The invariants -/

theorem Device.event_inv {P : Params} {d e : Device} (he : Device.Event P d e) (h : d.Inv P) :
    e.Inv P := by
  cases he with
  | csBegin => exact Device.csBegin_inv h
  | csEnd => exact Device.csEnd_inv h
  | byte m hs => exact Device.byte_inv h m hs
  | memRead a => exact Device.memRead_inv h a
  | memWrite a v => exact Device.memWrite_inv h a v
  | probe => exact Device.probe_inv h
  | count => exact Device.bumpOffset_inv h

theorem Device.reach_inv {P : Params} {d e : Device} (he : Device.Reach P d e) (h : d.Inv P) :
    e.Inv P := he.keeps (fun _ _ he h => Device.event_inv he h) h

/-- DrainRx moves bytes from E.rxq to in[] and loses none (R176). -/
theorem drainLoop_conserved (rxq : List Byte) (room j : Nat) (inBuf : List Byte) :
    (drainLoop rxq room j inBuf).2.1 + (drainLoop rxq room j inBuf).1.length =
      j + rxq.length := by
  induction rxq generalizing room j inBuf with
  | nil => cases room <;> simp [drainLoop]
  | cons b q ih =>
    cases room with
    | zero => simp [drainLoop]
    | succ room => simp [drainLoop, ih]; omega

/-- A shifter step keeps a running call's invariant (R174). -/
theorem State.shifterStep_inv {P : Params} {F : Draws} {s : State} (h : s.Inv P) :
    (s.shifterStep P F).Inv P := by
  have hd := Device.reach_inv (s.shifterStep_reach P F) h.dev
  rcases s.shifterStep_cases P F with ⟨b, q, hq, hr, e⟩ | e
  · rw [e] at hd ⊢
    have ht := h.txq_le
    rw [hq] at ht
    constructor
    case dev => exact hd
    case txq_le => simp at ht ⊢; omega
    case rxq_le => simp; omega
    case idle_queues =>
      intro hc
      have := (h.idle_queues hc).1
      simp [hq] at this
    case running =>
      intro c hc
      have hi := h.running c hc
      have hc' := hi.conserved
      rw [hq] at hc'
      constructor
      case out_le => exact hi.out_le
      case in_le => exact hi.in_le
      case i_le => exact hi.i_le
      case fresh => exact hi.fresh
      case conserved => intro hp; have := hc' hp; simp at this ⊢; omega
      case in_transmit => exact hi.in_transmit
      case in_doneWait => exact hi.in_doneWait
      case in_residual => intro hp; have := (hi.in_residual hp).2; simp [hq] at this
      case in_finish => intro hp; have := (hi.in_finish hp).2.1; simp [hq] at this
  · rwa [e]

theorem State.shifterTurn_inv {P : Params} {F : Draws} {s : State} (h : s.Inv P) :
    (s.shifterTurn P F).Inv P := by
  obtain ⟨m, e⟩ := s.shifterTurn_eq P F
  rw [e]
  exact State.shifterSteps_induct (fun t => t.Inv P) (fun t ht => State.shifterStep_inv ht) m _
    ⟨h.dev, h.txq_le, h.rxq_le, h.idle_queues, h.running⟩

/-- The sequencer's state after a DrainRx: nothing lost, the call's other fields as they were. -/
theorem Call.drain_spec (c : Call) (rxq : List Byte) :
    (c.drain rxq).phase = c.phase ∧ (c.drain rxq).n = c.n ∧ (c.drain rxq).i = c.i ∧
      (c.drain rxq).cnt = c.cnt ∧ (c.drain rxq).out = c.out ∧
      (c.drain rxq).inBuf.length = c.inBuf.length ∧
      (c.drain rxq).j + (c.drainedQueue rxq).length = c.j + rxq.length ∧
      (c.drainedQueue rxq).length ≤ rxq.length ∧
      (c.j + rxq.length ≤ c.n → c.drainedQueue rxq = []) :=
  ⟨rfl, rfl, rfl, rfl, rfl, drainLoop_inBuf_length _ _ _ _, drainLoop_conserved _ _ _ _,
    drainLoop_queue_length _ _ _ _, fun h => (drainLoop_all rxq _ _ _ (by omega)).1⟩

/-- A sequencer step keeps the machine's invariant (R41, R187). -/
theorem State.seqStep_inv {P : Params} {s : State} {c : Call} (h : s.Inv P)
    (hc : s.eng.call = some c) : (s.seqStep P c).Inv P := by
  have hd := Device.reach_inv (s.seqStep_reach P c) h.dev
  have hi := h.running c hc
  obtain ⟨dp, dn, di, dcnt, dout, din, dcons, dle, dnil⟩ := c.drain_spec s.eng.rxq
  have htl := h.txq_le
  have hrl := h.rxq_le
  have htx := txPollLimit_pos P
  have hdone : 0 < P.donePollLimit := by simp [Params.donePollLimit]
  cases hph : c.phase with
  | start =>
    obtain ⟨f1, f2, f3⟩ := hi.fresh hph
    have e : s.seqStep P c = s.engineBegin.setEng
        { s.engineBegin.eng with call := some { c with phase := nextWait c.i c.n } } := by
      simp [State.seqStep, hph]
    rw [e] at hd ⊢
    refine ⟨hd, Nat.zero_le _, Nat.zero_le _, by simp, ?_⟩
    rintro _ ⟨⟩
    constructor
    case out_le => exact hi.out_le
    case in_le => exact hi.in_le
    case i_le => exact hi.i_le
    case conserved => intro _; simp [State.engineBegin, f1, f2]
    all_goals
      show nextWait c.i c.n = _ → _
      unfold nextWait
      split <;> intro hh <;> first | (simp at hh; done) | skip
    · exact ⟨‹_›, by simpa [f3] using htx⟩
    · exact ⟨by have := hi.i_le; simp; omega, by simpa [f3] using hdone⟩
  | transmit =>
    obtain ⟨h1, h2⟩ := hi.in_transmit hph
    have hcons := hi.conserved (by simp [hph])
    have e : s.seqStep P c = (s.drainRx c).transmitPoll P (c.drain s.eng.rxq) := by
      simp [State.seqStep, hph]
    rw [e] at hd ⊢
    unfold State.transmitPoll at hd ⊢
    split at hd <;> rename_i hready <;> simp only [hready, ↓reduceIte] at hd ⊢
    · have hlt : s.eng.txq.length < P.fifoDepth := by
        simp only [Engine.txReady, decide_eq_true_eq] at hready
        exact hready
      refine ⟨hd, ?_, ?_, by simp, ?_⟩
      · simp [State.drainRx]; omega
      · simp [State.drainRx]; omega
      rintro _ ⟨⟩
      constructor
      case out_le => exact hi.out_le
      case in_le => exact din ▸ hi.in_le
      case i_le => exact h1
      case conserved =>
        intro _
        simp [State.drainRx]
        omega
      all_goals
        show nextWait (c.i + 1) c.n = _ → _
        unfold nextWait
        split <;> intro hh <;> first | (simp at hh; done) | skip
      · exact ⟨‹_›, htx⟩
      · exact ⟨show c.i + 1 = c.n by omega, hdone⟩
    · refine ⟨hd, ?_, ?_, by simp, ?_⟩
      · simpa [State.drainRx] using htl
      · simp [State.drainRx]; omega
      rintro _ ⟨⟩
      constructor
      case out_le => exact hi.out_le
      case in_le => exact din ▸ hi.in_le
      case i_le => exact hi.i_le
      case conserved => intro _; simp [State.drainRx]; omega
      all_goals
        show (if c.cnt + 1 = P.txPollLimit then Phase.timeout else Phase.transmit) = _ → _
        split <;> intro hh <;> first | (simp at hh; done) | skip
      exact ⟨h1, show c.cnt + 1 < _ by omega⟩
  | doneWait =>
    obtain ⟨h1, h2⟩ := hi.in_doneWait hph
    have hcons := hi.conserved (by simp [hph])
    have e : s.seqStep P c = (s.drainRx c).donePoll P (c.drain s.eng.rxq) := by
      simp [State.seqStep, hph]
    rw [e] at hd ⊢
    unfold State.donePoll at hd ⊢
    split at hd <;> rename_i hready <;> simp only [hready, ↓reduceIte] at hd ⊢
    · have hq : s.eng.txq = [] := by simpa [Engine.done, State.drainRx] using hready
      refine ⟨hd, ?_, ?_, by simp, ?_⟩
      · simpa [State.drainRx] using htl
      · simp [State.drainRx]; omega
      rintro _ ⟨⟩
      constructor
      case out_le => exact hi.out_le
      case in_le => exact din ▸ hi.in_le
      case i_le => exact hi.i_le
      case conserved => intro _; simp [State.drainRx]; omega
      case in_residual => intro _; exact ⟨h1, hq⟩
      all_goals simp
    · refine ⟨hd, ?_, ?_, by simp, ?_⟩
      · simpa [State.drainRx] using htl
      · simp [State.drainRx]; omega
      rintro _ ⟨⟩
      constructor
      case out_le => exact hi.out_le
      case in_le => exact din ▸ hi.in_le
      case i_le => exact hi.i_le
      case conserved => intro _; simp [State.drainRx]; omega
      all_goals
        show (if c.cnt + 1 = P.donePollLimit then Phase.timeout else Phase.doneWait) = _ → _
        split <;> intro hh <;> first | (simp at hh; done) | skip
      exact ⟨h1, show c.cnt + 1 < _ by omega⟩
  | residual =>
    obtain ⟨h1, h2⟩ := hi.in_residual hph
    have hcons := hi.conserved (by simp [hph])
    have hnil := dnil (by have := hi.i_le; omega)
    have e : s.seqStep P c = (s.drainRx c).setEng
        { (s.drainRx c).eng with call := some { c.drain s.eng.rxq with phase := .finish } } := by
      simp [State.seqStep, hph]
    rw [e] at hd ⊢
    refine ⟨hd, ?_, ?_, by simp, ?_⟩
    · simpa [State.drainRx] using htl
    · simp [State.drainRx]; omega
    rintro _ ⟨⟩
    constructor
    case out_le => exact hi.out_le
    case in_le => exact din ▸ hi.in_le
    case i_le => exact hi.i_le
    case conserved => intro _; simp [State.drainRx]; omega
    case in_finish => intro _; exact ⟨h1, h2, hnil⟩
    all_goals simp
  | finish =>
    obtain ⟨h1, h2, h3⟩ := hi.in_finish hph
    have e : s.seqStep P c = (if c.endFlag then s.engineEnd else s).returnCall c .ok := by
      simp [State.seqStep, hph]
    rw [e] at hd ⊢
    have heng : ((if c.endFlag then s.engineEnd else s).returnCall c .ok).eng.txq = s.eng.txq ∧
        ((if c.endFlag then s.engineEnd else s).returnCall c .ok).eng.rxq = s.eng.rxq := by
      cases c.endFlag <;> exact ⟨rfl, rfl⟩
    exact ⟨hd, heng.1 ▸ htl, heng.2 ▸ hrl, fun _ => ⟨heng.1.trans h2, heng.2.trans h3⟩,
      by simp [State.returnCall]⟩
  | timeout =>
    have hcons := hi.conserved (by simp [hph])
    have hnil := dnil (by have := hi.i_le; omega)
    have e : s.seqStep P c = s.timeoutExit c := by simp [State.seqStep, hph]
    rw [e] at hd ⊢
    refine ⟨hd, Nat.zero_le _, ?_, fun _ => ⟨rfl, hnil⟩, by simp [State.timeoutExit, State.returnCall]⟩
    show (c.drainedQueue s.eng.rxq).length ≤ _
    omega

theorem State.tick_inv {P : Params} {F : Draws} {s : State} (h : s.Inv P) :
    (s.tick P F).Inv P := by
  unfold State.tick
  split
  · exact h
  · rename_i c hc
    split
    · exact State.seqStep_inv h hc
    · exact State.seqStep_inv (State.shifterTurn_inv h) ((s.shifterTurn_frame P F).1.trans hc)

theorem State.runCall_inv {P : Params} {F : Draws} {s : State} (h : s.Inv P) (fuel : Nat) :
    (s.runCall P F fuel).Inv P := by
  induction fuel generalizing s with
  | zero => exact h
  | succ fuel ih =>
    unfold State.runCall
    split
    · exact h
    · exact ih (State.tick_inv h)

/-- A legal call starts in the invariant (R171, R176). -/
theorem State.startCall_inv {P : Params} {s : State} (h : s.Inv P) (hn : s.eng.call = none)
    (b e : Bool) (n : Nat) (out inBuf : List Byte) (ho : n ≤ out.length) (hi : n ≤ inBuf.length) :
    (s.startCall b e n out inBuf).Inv P := by
  obtain ⟨h1, h2⟩ := h.idle_queues hn
  refine ⟨h.dev, h.txq_le, h.rxq_le, by simp [State.startCall], ?_⟩
  rintro _ ⟨⟩
  constructor
  case out_le => exact ho
  case in_le => exact hi
  case i_le => exact Nat.zero_le _
  case fresh => intro _; exact ⟨rfl, rfl, rfl⟩
  case conserved => intro _; simp [State.startCall, Call.initial, h1, h2]
  all_goals
    show (if b then Phase.start else nextWait 0 n) = _ → _
    unfold nextWait
    split
    · simp
    split <;> intro hh <;> first | (simp at hh; done) | skip
  · exact ⟨‹_›, txPollLimit_pos P⟩
  · exact ⟨show 0 = n by omega, by simp [Call.initial, Params.donePollLimit]⟩

/-- Every instruction keeps the machine's invariant. -/
theorem exec_inv {i : Instr} {s t : State} (hi : s.Inv Config.hw) (h : exec i s = .next t) :
    t.Inv Config.hw := by
  have hd := Device.reach_inv (exec_reach h) hi.dev
  have hx : ∀ {b e m out inBuf}, s.transfer Config.hw Config.draws b e m out inBuf = .next t →
      t.Inv Config.hw := by
    intro b e m out inBuf hx
    obtain ⟨-, hn, ho, hb, rfl⟩ := State.transfer_next hx
    exact State.runCall_inv (State.startCall_inv hi hn b e _ out inBuf ho hb) _
  have hrest : t.eng = s.eng → t.Inv Config.hw := fun e =>
    ⟨hd, e ▸ hi.txq_le, e ▸ hi.rxq_le, e ▸ hi.idle_queues, e ▸ hi.running⟩
  cases i
  case xferBE => exact hx h
  case xferB => exact hx h
  case xferC => exact hx h
  case xferE => exact hx h
  all_goals
    obtain rfl := Host.Outcome.next.inj h
    refine hrest ?_
  case hdrWrite => exact s.wireBytes_eng _ _ _
  case hdrRead => exact s.wireBytes_eng _ _ _
  case wireByteUnsel m => exact s.wireBytes_eng _ _ [m]
  case wireByteHdr m => exact s.wireBytes_eng _ _ [m]
  case wireByteDataRd m => exact s.wireBytes_eng _ _ [m]
  case wireByteDataWr m => exact s.wireBytes_eng _ _ [m]
  case wireBytePast m => exact s.wireBytes_eng _ _ [m]
  all_goals rfl

/-- The machine's invariant speaks of the device and the engine alone. -/
theorem State.Inv.of_dev {P : Params} {s t : State} (h : s.Inv P) (he : t.eng = s.eng)
    (hd : t.dev.Inv P) : t.Inv P :=
  ⟨hd, he ▸ h.txq_le, he ▸ h.rxq_le, he ▸ h.idle_queues, he ▸ h.running⟩

/-- An operation of the host's keeps the machine's invariant. -/
theorem State.inDataPhase_inv {s t : State} {access : Option (Dir × BitVec 16)} {i : Instr}
    (hi : s.Inv Config.hw)
    (h : s.inDataPhase Config.hw Config.draws access (exec i) = .next t) : t.Inv Config.hw := by
  rcases State.inDataPhase_cases h with ⟨-, hx⟩ | ⟨dir, a, u, -, hx, rfl⟩
  · exact exec_inv hi hx
  · have ho : (s.openAccess Config.hw Config.draws dir a).Inv Config.hw :=
      hi.of_dev (s.openAccess_eng _ _ dir a)
        (Device.reach_inv (s.openAccess_reach _ _ dir a) hi.dev)
    have hu := exec_inv ho hx
    exact hu.of_dev rfl (Device.reach_inv (u.closeAccess_reach Config.hw) hu.dev)

end Sys2Proof.Machine
end

