-- ==== Sys2Proof/Laws/PerInstr.lean ====
section
/-! SUPPORT. Per instruction: the encoder's word has the width and the fixed bits of the instruction's row
of spec/opcode_table.json. -/

namespace Sys2Proof.Laws

/-- The word of a well-formed instruction has its row's width, and under its row's mask it is its
row's match (spec/opcode_table.json). -/
def FixedBits.Statement (i : Instr) : Prop :=
  i.wellFormed = true →
    (encode i).width = (tableRow i).width ∧
      (encode i).bits &&& (tableRow i).mask = (tableRow i).mtch

/-- A mask that lies above the low part of a word sees the high part alone. -/
theorem append_and_high {m n : Nat} (hi : BitVec m) (lo : BitVec n) (mask : Nat) :
    (hi ++ lo).toNat &&& (mask <<< n) = (hi.toNat &&& mask) <<< n := by
  rw [BitVec.toNat_append]
  apply Nat.eq_of_testBit_eq
  intro i
  simp only [Nat.testBit_and, Nat.testBit_or, Nat.testBit_shiftLeft]
  by_cases h : n ≤ i
  · have : lo.toNat.testBit i = false :=
      Nat.testBit_lt_two_pow (Nat.lt_of_lt_of_le lo.isLt (Nat.pow_le_pow_right (by omega) h))
    simp [h, this]
  · simp [h]

/-- Bits above a field, through a field more. -/
theorem append_and_step {m n p : Nat} (hi : BitVec m) (lo : BitVec n) (mask big v : Nat)
    (hp : hi.toNat &&& mask = v) (hb : mask <<< n = big) (hv : v <<< n = p) :
    (hi ++ lo).toNat &&& big = p := by
  rw [← hb, append_and_high, hp, hv]

/-- The direction bit of a header word (R71). -/
theorem hdrWord_and (dir : Dir) (rsv : BitVec 1) (lenm1 : BitVec 6) (marker : Byte)
    (addr : BitVec 16) :
    (hdrWord dir rsv lenm1 marker addr).toNat &&& 0x80000000 =
      match dir with | .read => 0x80000000 | .write => 0 := by
  cases dir
  · exact append_and_step _ addr 0x8000 _ 0x8000 (append_and_step _ marker 0x80 _ 0x80
      (append_and_step _ lenm1 0x2 _ 0x2 (append_and_step _ rsv 1 _ 1 rfl rfl rfl) rfl rfl)
      rfl rfl) rfl rfl
  · exact append_and_step _ addr 0x8000 _ 0 (append_and_step _ marker 0x80 _ 0
      (append_and_step _ lenm1 0x2 _ 0 (append_and_step _ rsv 1 _ 0 rfl rfl rfl) rfl rfl)
      rfl rfl) rfl rfl

/-- The direction bit of an access word (R80). -/
theorem accWord_and (dir : Dir) (a : Nat) :
    (accWord dir a).toNat &&& 0x10000 = match dir with | .read => 0x10000 | .write => 0 := by
  have h := append_and_high (match dir with | .read => 1#1 | .write => 0#1) (BitVec.ofNat 16 a) 1
  refine Eq.trans h ?_
  cases dir <;> decide

/-- The kind of an event word (R86). -/
theorem wireWord_and (kind : BitVec 2) (mosi : Byte) :
    (wireWord kind mosi).toNat &&& 0x300 = (kind.toNat &&& 3) <<< 8 :=
  append_and_high kind mosi 3

theorem FixedBits.hdrWrite (rsv : BitVec 1) (lenm1 : BitVec 6) (marker : Byte) (addr : BitVec 16) :
    FixedBits.Statement (.hdrWrite rsv lenm1 marker addr) :=
  fun _ => ⟨rfl, hdrWord_and .write rsv lenm1 marker addr⟩

theorem FixedBits.hdrRead (rsv : BitVec 1) (lenm1 : BitVec 6) (marker : Byte) (addr : BitVec 16) :
    FixedBits.Statement (.hdrRead rsv lenm1 marker addr) :=
  fun _ => ⟨rfl, hdrWord_and .read rsv lenm1 marker addr⟩

theorem FixedBits.rdAccess : FixedBits.Statement (.rdAccess) :=
  fun _ => ⟨rfl, by decide⟩

theorem FixedBits.rdRid : FixedBits.Statement (.rdRid) :=
  fun _ => ⟨rfl, by decide⟩

theorem FixedBits.rdInten (k : BitVec 2) : FixedBits.Statement (.rdInten k) :=
  fun _ => ⟨rfl, by revert k; decide⟩

theorem FixedBits.rdCaps (k : BitVec 2) : FixedBits.Statement (.rdCaps k) :=
  fun _ => ⟨rfl, by revert k; decide⟩

theorem FixedBits.rdSts (k : BitVec 2) : FixedBits.Statement (.rdSts k) :=
  fun _ => ⟨rfl, by revert k; decide⟩

theorem FixedBits.rdDidvid (k : BitVec 2) : FixedBits.Statement (.rdDidvid k) :=
  fun _ => ⟨rfl, by revert k; decide⟩

theorem FixedBits.rdFifo (addr : Nat) : FixedBits.Statement (.rdFifo addr) :=
  fun _ => ⟨rfl, accWord_and .read addr⟩

theorem FixedBits.rdUnknown (addr : Nat) : FixedBits.Statement (.rdUnknown addr) :=
  fun _ => ⟨rfl, accWord_and .read addr⟩

theorem FixedBits.wrAccess (v : Byte) : FixedBits.Statement (.wrAccess v) :=
  fun _ => ⟨rfl, (by decide : (accWord .write 0x0000).toNat &&& 0x1FFFF = 0x0000)⟩

theorem FixedBits.wrSts0 (v : Byte) : FixedBits.Statement (.wrSts0 v) :=
  fun _ => ⟨rfl, (by decide : (accWord .write 0x0018).toNat &&& 0x1FFFF = 0x0018)⟩

theorem FixedBits.wrRid (v : Byte) : FixedBits.Statement (.wrRid v) :=
  fun _ => ⟨rfl, (by decide : (accWord .write 0x0F04).toNat &&& 0x1FFFF = 0x0F04)⟩

theorem FixedBits.wrInten (k : BitVec 2) (v : Byte) : FixedBits.Statement (.wrInten k v) :=
  fun _ => ⟨rfl, (by decide :
    ∀ k : BitVec 2, (accWord .write (0x0008 + k.toNat)).toNat &&& 0x1FFFC = 0x0008) k⟩

theorem FixedBits.wrCaps (k : BitVec 2) (v : Byte) : FixedBits.Statement (.wrCaps k v) :=
  fun _ => ⟨rfl, (by decide :
    ∀ k : BitVec 2, (accWord .write (0x0014 + k.toNat)).toNat &&& 0x1FFFC = 0x0014) k⟩

theorem FixedBits.wrDidvid (k : BitVec 2) (v : Byte) : FixedBits.Statement (.wrDidvid k v) :=
  fun _ => ⟨rfl, (by decide :
    ∀ k : BitVec 2, (accWord .write (0x0F00 + k.toNat)).toNat &&& 0x1FFFC = 0x0F00) k⟩

theorem FixedBits.wrStsHi (k : BitVec 2) (v : Byte) : FixedBits.Statement (.wrStsHi k v) :=
  fun _ => ⟨rfl, accWord_and .write (0x0018 + k.toNat)⟩

theorem FixedBits.wrFifo (addr : Nat) (v : Byte) : FixedBits.Statement (.wrFifo addr v) :=
  fun _ => ⟨rfl, accWord_and .write addr⟩

theorem FixedBits.wrUnknown (addr : Nat) (v : Byte) : FixedBits.Statement (.wrUnknown addr v) :=
  fun _ => ⟨rfl, accWord_and .write addr⟩

theorem FixedBits.stsAbort (b7 : BitVec 1) (lo : BitVec 5) :
    FixedBits.Statement (.stsAbort b7 lo) :=
  fun _ => ⟨rfl, by revert b7 lo; decide⟩

theorem FixedBits.stsGo (b7 : BitVec 1) (lo : BitVec 5) : FixedBits.Statement (.stsGo b7 lo) :=
  fun _ => ⟨rfl, by revert b7 lo; decide⟩

theorem FixedBits.stsAbortGo (b7 : BitVec 1) (lo : BitVec 5) :
    FixedBits.Statement (.stsAbortGo b7 lo) :=
  fun _ => ⟨rfl, by revert b7 lo; decide⟩

theorem FixedBits.stsNop (b7 : BitVec 1) (lo : BitVec 5) : FixedBits.Statement (.stsNop b7 lo) :=
  fun _ => ⟨rfl, by revert b7 lo; decide⟩

theorem FixedBits.accRequestUse (hi : BitVec 6) (b0 : BitVec 1) :
    FixedBits.Statement (.accRequestUse hi b0) :=
  fun _ => ⟨rfl, by revert hi b0; decide⟩

theorem FixedBits.accNop (hi : BitVec 6) (b0 : BitVec 1) : FixedBits.Statement (.accNop hi b0) :=
  fun _ => ⟨rfl, by revert hi b0; decide⟩

theorem FixedBits.xferBE (n : Nat) (out inBuf : List Byte) :
    FixedBits.Statement (.xferBE n out inBuf) :=
  fun _ => ⟨rfl, (by decide : (3 : Nat) &&& 3 = 3)⟩

theorem FixedBits.xferB (n : Nat) (out inBuf : List Byte) :
    FixedBits.Statement (.xferB n out inBuf) :=
  fun _ => ⟨rfl, (by decide : (2 : Nat) &&& 3 = 2)⟩

theorem FixedBits.xferC (n : Nat) (out inBuf : List Byte) :
    FixedBits.Statement (.xferC n out inBuf) :=
  fun _ => ⟨rfl, (by decide : (0 : Nat) &&& 3 = 0)⟩

theorem FixedBits.xferE (n : Nat) (out inBuf : List Byte) :
    FixedBits.Statement (.xferE n out inBuf) :=
  fun _ => ⟨rfl, (by decide : (1 : Nat) &&& 3 = 1)⟩

theorem FixedBits.wireBegin : FixedBits.Statement (.wireBegin) :=
  fun _ => ⟨rfl, by decide⟩

theorem FixedBits.wireEnd : FixedBits.Statement (.wireEnd) :=
  fun _ => ⟨rfl, by decide⟩

theorem FixedBits.init : FixedBits.Statement (.init) :=
  fun _ => ⟨rfl, by decide⟩

theorem FixedBits.wireByteUnsel (mosi : Byte) : FixedBits.Statement (.wireByteUnsel mosi) :=
  fun _ => ⟨rfl, wireWord_and 1 mosi⟩

theorem FixedBits.wireByteHdr (mosi : Byte) : FixedBits.Statement (.wireByteHdr mosi) :=
  fun _ => ⟨rfl, wireWord_and 1 mosi⟩

theorem FixedBits.wireByteDataRd (mosi : Byte) : FixedBits.Statement (.wireByteDataRd mosi) :=
  fun _ => ⟨rfl, wireWord_and 1 mosi⟩

theorem FixedBits.wireByteDataWr (mosi : Byte) : FixedBits.Statement (.wireByteDataWr mosi) :=
  fun _ => ⟨rfl, wireWord_and 1 mosi⟩

theorem FixedBits.wireBytePast (mosi : Byte) : FixedBits.Statement (.wireBytePast mosi) :=
  fun _ => ⟨rfl, wireWord_and 1 mosi⟩

end Sys2Proof.Laws
end

