-- ==== Sys2Proof/Tests/Slice0.lean ====
section
/-! SUPPORT. Tests: ill-formed terms are refused, words written out from the formats decode, one step of
each instruction on a small state (expected values from spec/95_test_vectors.md and the rules'
examples), and for each statement with hypotheses a state and operands that meet them. -/

namespace Sys2Proof.Tests

open Sys2Proof.Machine

/-! ### Helpers -/

/-- The state an outcome goes to; reset where it does not go on. -/
def after (o : Host.Outcome State Fault Refusal) : State :=
  match o with
  | .next t => t
  | .fault _ => State.reset
  | .refused _ => State.reset

/-- Whether an outcome is a next state. -/
def goesOn (o : Host.Outcome State Fault Refusal) : Bool :=
  match o with
  | .next _ => true
  | .fault _ => false
  | .refused _ => false

/-- Ready: reset, then INIT (95_test_vectors.md, Conventions). -/
def ready : State :=
  { State.reset with dev := { Device.reset with state := .ready, cmdReady := true } }

/-- A state with RC1's burst count. -/
def rc1Burst (s : State) : State := { s with dev := { s.dev with burst := 0x40 } }

/-- Ready under RC1. -/
def readyRc1 : State := rc1Burst ready

/-- A transaction with `k` header bytes received, the header being `05 D4 00 18`. -/
def inHeader (k : Nat) : State :=
  { ready with dev := { ready.dev with sel := true, hdrCnt := k, hdr := ⟨0x05, 0xD4, 0x00, 0x18⟩ } }

/-- The data phase of a transaction, `offset` data bytes in. -/
def inData (dir : Dir) (len : Nat) (addr : BitVec 16) (offset : Nat) : State :=
  { ready with
    dev := { ready.dev with
      sel := true, hdrCnt := 4, dir := dir, len := len, addr := addr, offset := offset } }

/-- Reception with the given bytes received. -/
def receiving (cmd : List Byte) (expect : Bool) : State :=
  { ready with
    dev := { ready.dev with
      state := .reception, cmdReady := false, dataExpect := expect, cmd := cmd } }

/-- Completion with the given response and cursor. -/
def completed (rsp : List Byte) (cursor : Nat) : State :=
  { ready with
    dev := { ready.dev with
      state := .completion, cmdReady := false, dataAvail := true, rsp := rsp, rspCursor := cursor } }

/-- A command of 6 bytes whose declared length is 6. -/
def cmd6 : List Byte := [0x80, 0x01, 0x00, 0x00, 0x00, 0x06]

/-- CMD10 (95_test_vectors.md, Conventions). -/
def cmd10 : List Byte := [0x80, 0x01, 0x00, 0x00, 0x00, 0x0A, 0x11, 0x22, 0x33, 0x44]

/-- A call's answer. -/
def answer (s : State) : Option (Status × Nat × List Byte) :=
  match s.reply with
  | .transfer status j inBuf => some (status, j, inBuf)
  | .bytes _ => none
  | .silent => none

/-- RC1 with poll limits of 1, so that a timeout takes few steps. -/
def rc1Fast : Params := { Params.rc1 with doneExtra := 0, txExtra := 0 }

/-! ### Ill-formed terms are refused -/

theorem test_wf_rdFifo_below : (Instr.rdFifo 0x0023).wellFormed = false := by decide
theorem test_wf_rdFifo_above : (Instr.rdFifo 0x0F00).wellFormed = false := by decide
theorem test_wf_wrFifo_below : (Instr.wrFifo 0x0023 0).wellFormed = false := by decide
theorem test_wf_wrFifo_above : (Instr.wrFifo 0x0F00 0).wellFormed = false := by decide
theorem test_wf_rdUnknown_register :
    (Instr.rdUnknown 0x0000).wellFormed = false ∧ (Instr.rdUnknown 0x000B).wellFormed = false ∧
    (Instr.rdUnknown 0x0014).wellFormed = false ∧ (Instr.rdUnknown 0x001B).wellFormed = false ∧
    (Instr.rdUnknown 0x0024).wellFormed = false ∧ (Instr.rdUnknown 0x0F03).wellFormed = false ∧
    (Instr.rdUnknown 0x0F04).wellFormed = false := by decide
theorem test_wf_wrUnknown_register : (Instr.wrUnknown 0x0018 0).wellFormed = false := by decide
theorem test_wf_unknown_wide :
    (Instr.rdUnknown 0x10000).wellFormed = false ∧
    (Instr.wrUnknown 0x10000 0).wellFormed = false ∧
    (Instr.rdUnknown 0xFFFF).wellFormed = true := by decide
theorem test_wf_wrStsHi_byte0 : (Instr.wrStsHi 0 0xFF).wellFormed = false := by decide
theorem test_wf_xfer_bits : (Instr.xferBE 12 [0, 0] [0, 0]).wellFormed = false := by decide
theorem test_wf_xfer_out : (Instr.xferB 16 [0] [0, 0]).wellFormed = false := by decide
theorem test_wf_xfer_in : (Instr.xferC 16 [0, 0] [0]).wellFormed = false := by decide
theorem test_wf_xferE : (Instr.xferE 8 [] [0]).wellFormed = false := by decide

/-! ### Words written out from the formats decode (30_encoding.md, R89, spec/opcode_table.json) -/

theorem test_decode_hdrWrite :
    decode .unsel (.hdr 0b00000101110101000000000000011000) = .ok (.hdrWrite 0 5 0xD4 0x0018) := by
  decide
theorem test_decode_hdrRead :
    decode .unsel (.hdr 0b11000000000000000000000000000000) = .ok (.hdrRead 1 0 0x00 0x0000) := by
  decide
theorem test_decode_header_rows :
    decode .unsel (.hdr 0x80D40018) = .ok (.hdrRead 0 0 0xD4 0x0018) ∧
    decode .unsel (.hdr 0xBFD40F00) = .ok (.hdrRead 0 63 0xD4 0x0F00) ∧
    decode .unsel (.hdr 0x3FD4FFFF) = .ok (.hdrWrite 0 63 0xD4 0xFFFF) := by decide
theorem test_decode_reads :
    decode .unsel (.acc 0b10000000000000000 0) = .ok .rdAccess ∧
    decode .unsel (.acc 0b10000000000001011 0) = .ok (.rdInten 3) ∧
    decode .unsel (.acc 0b10000000000010110 0) = .ok (.rdCaps 2) ∧
    decode .unsel (.acc 0b10000000000011001 0) = .ok (.rdSts 1) ∧
    decode .unsel (.acc 0b10000000000100100 0) = .ok (.rdFifo 0x0024) ∧
    decode .unsel (.acc 0b10000111011111111 0) = .ok (.rdFifo 0x0EFF) ∧
    decode .unsel (.acc 0b10000111100000011 0) = .ok (.rdDidvid 3) ∧
    decode .unsel (.acc 0b10000111100000100 0) = .ok .rdRid ∧
    decode .unsel (.acc 0b10000000000100011 0) = .ok (.rdUnknown 0x0023) ∧
    decode .unsel (.acc 0b10001000000011000 0) = .ok (.rdUnknown 0x1018) := by decide
theorem test_decode_writes :
    decode .unsel (.acc 0b00000000000000000 0x02) = .ok (.wrAccess 0x02) ∧
    decode .unsel (.acc 0b00000000000001000 0x01) = .ok (.wrInten 0 0x01) ∧
    decode .unsel (.acc 0b00000000000010101 0x11) = .ok (.wrCaps 1 0x11) ∧
    decode .unsel (.acc 0b00000000000011000 0x40) = .ok (.wrSts0 0x40) ∧
    decode .unsel (.acc 0b00000000000011001 0xFF) = .ok (.wrStsHi 1 0xFF) ∧
    decode .unsel (.acc 0b00000000000011011 0xFF) = .ok (.wrStsHi 3 0xFF) ∧
    decode .unsel (.acc 0b00000000000100100 0x80) = .ok (.wrFifo 0x0024 0x80) ∧
    decode .unsel (.acc 0b00000111100000010 0x00) = .ok (.wrDidvid 2 0x00) ∧
    decode .unsel (.acc 0b00000111100000100 0x00) = .ok (.wrRid 0x00) ∧
    decode .unsel (.acc 0b00000000000011100 0x40) = .ok (.wrUnknown 0x001C 0x40) := by decide
theorem test_decode_stsw :
    decode .unsel (.stsw 0b01000000) = .ok (.stsAbort 0 0) ∧
    decode .unsel (.stsw 0b10111111) = .ok (.stsGo 1 0b11111) ∧
    decode .unsel (.stsw 0b01100000) = .ok (.stsAbortGo 0 0) ∧
    decode .unsel (.stsw 0b10010101) = .ok (.stsNop 1 0b10101) := by decide
theorem test_decode_accw :
    decode .unsel (.accw 0b00000010) = .ok (.accRequestUse 0 0) ∧
    decode .unsel (.accw 0b11111101) = .ok (.accNop 0b111111 1) := by decide
theorem test_decode_xfer :
    decode .unsel (.xfer 0b11 8 [1] [2]) = .ok (.xferBE 8 [1] [2]) ∧
    decode .unsel (.xfer 0b10 8 [1] [2]) = .ok (.xferB 8 [1] [2]) ∧
    decode .unsel (.xfer 0b00 8 [1] [2]) = .ok (.xferC 8 [1] [2]) ∧
    decode .unsel (.xfer 0b01 8 [1] [2]) = .ok (.xferE 8 [1] [2]) := by decide
theorem test_decode_wire :
    decode .unsel (.wire 0b0000000000) = .ok .wireBegin ∧
    decode .unsel (.wire 0b1000000000) = .ok .wireEnd ∧
    decode .unsel (.wire 0b1100000000) = .ok .init ∧
    decode .unsel (.wire 0b0110000000) = .ok (.wireByteUnsel 0x80) ∧
    decode .hdr (.wire 0b0110000000) = .ok (.wireByteHdr 0x80) ∧
    decode .dataRd (.wire 0b0100000000) = .ok (.wireByteDataRd 0x00) ∧
    decode .dataWr (.wire 0b0101000000) = .ok (.wireByteDataWr 0x40) ∧
    decode .past (.wire 0b0100010001) = .ok (.wireBytePast 0x11) := by decide
theorem test_decode_wire_rejects :
    decode .unsel (.wire 0b0000000001) = .error .beginWithMosi ∧
    decode .unsel (.wire 0b1000000001) = .error .endWithMosi ∧
    decode .unsel (.wire 0b1100000001) = .error .initWithMosi := by decide
theorem test_decodeTableWord :
    decodeTableWord 32 0x80D40018 = some (.hdrRead 0 0 0xD4 0x0018) ∧
    decodeTableWord 24 0x00018 = some (.wrSts0 0) ∧
    decodeTableWord 16 0x300 = some .init ∧
    decodeTableWord 8 0x20 = some (.stsGo 0 0) ∧
    decodeTableWord 8 0x03 = some (.xferBE 0 [] []) := by decide

/-! ### The first step after reset runs the word placed -/

theorem test_fetch_hdr :
    goesOn (step (State.reset.withFetchWord 32 0x80D40018)) = true := by decide
theorem test_fetch_init :
    (after (step (State.reset.withFetchWord 16 0x300))).dev.state = .ready := by decide
/-- V-RF-12: the read runs as a one-byte read transaction (R50), after which none is open. -/
theorem test_fetch_rdUnknown :
    (after (step (State.reset.withFetchWord 24 0x11018))).reply = .bytes [0xFF] ∧
    (after (step (State.reset.withFetchWord 24 0x11018))).dev.addr = 0x1018 ∧
    (after (step (State.reset.withFetchWord 24 0x11018))).dev.sel = false := by decide

/-! ### The framing parser (R97 to R105, V-PAR) -/

theorem test_hdrWrite : (after (exec (.hdrWrite 0 5 0xD4 0x0018) (inHeader 0))).dev.len = 6 := by
  decide
theorem test_hdrRead :
    (after (exec (.hdrRead 1 0 0xD4 0x0018) (inHeader 0))).dev.dir = .read ∧
    (after (exec (.hdrRead 1 0 0xD4 0x0018) (inHeader 0))).dev.addr = 0x0018 := by decide
theorem test_wireBegin : (after (exec .wireBegin (inHeader 2))).dev.hdrCnt = 0 ∧
    (after (exec .wireBegin (inHeader 2))).dev.sel = true := by decide
theorem test_wireEnd : (after (exec .wireEnd (inHeader 3))).dev.sel = false := by decide
theorem test_wireByteUnsel : (after (exec (.wireByteUnsel 0x80) ready)).dev = ready.dev := by rfl
theorem test_wireByteHdr : (after (exec (.wireByteHdr 0x18) (inHeader 3))).dev.len = 6 := by decide
theorem test_wireByteHdr_miso :
    ((inHeader 3).dev.byte Params.rc1 0x18).2 = 0x01 ∧
    ((inHeader 2).dev.byte Params.rc1 0x00).2 = 0x00 := by decide
theorem test_wireByteDataRd :
    ((inData .read 4 0x0F02 2).dev.byte Params.rc1 0x00).2 = 0x99 := by decide
theorem test_wireByteDataRd_offset :
    (after (exec (.wireByteDataRd 0) (inData .read 4 0x0018 1))).dev.offset = 2 := by decide
theorem test_wireByteDataWr :
    (after (exec (.wireByteDataWr 0x22) (inData .write 2 0x0023 1))).dev.cmd = [0x22] := by decide
theorem test_wireByteDataWr_wide :
    (after (exec (.wireByteDataWr 0x02) (inData .write 2 0xFFFF 1))).dev.access = 0x00 := by decide
theorem test_wireBytePast :
    ((inData .read 2 0x0018 2).dev.byte Params.rc1 0x00).2 = 0x00 ∧
    (after (exec (.wireBytePast 0) (inData .read 2 0x0018 2))).dev.offset = 3 := by decide

/-! ### The register file (R117 to R132, V-RF) -/

theorem test_rdAccess : (readyRc1.dev.memRead Params.rc1 0x0000).2 = 0x00 := by decide
theorem test_rdInten : (after (exec (.rdInten 3) ready)).reply = .bytes [0xFF] := by decide
theorem test_rdCaps : (readyRc1.dev.memRead Params.rc1 0x0015).2 = 0x22 := by decide
theorem test_rdSts :
    (readyRc1.dev.memRead Params.rc1 0x0018).2 = 0xC0 ∧
    (readyRc1.dev.memRead Params.rc1 0x0019).2 = 0x40 ∧
    (readyRc1.dev.memRead Params.rc1 0x001A).2 = 0x00 := by decide
theorem test_rdSts_states :
    (after (exec (.rdSts 0) (rc1Burst State.reset))).reply = .bytes [0x80] ∧
    (after (exec (.rdSts 0) (rc1Burst (receiving [0x80] true)))).reply = .bytes [0x88] ∧
    (after (exec (.rdSts 0) (rc1Burst (completed [0x80] 0)))).reply = .bytes [0x90] := by decide
theorem test_rdFifo : (after (exec (.rdFifo 0x0500) (completed [0x80, 0x01] 1))).reply =
    .bytes [0x01] ∧
    (after (exec (.rdFifo 0x0500) (completed [0x80, 0x01] 1))).dev.state = .ready := by decide
theorem test_rdFifo_empty : (after (exec (.rdFifo 0x0024) ready)).reply = .bytes [0xFF] := by decide
theorem test_rdDidvid : (readyRc1.dev.memRead Params.rc1 0x0F03).2 = 0x88 := by decide
theorem test_rdRid : (readyRc1.dev.memRead Params.rc1 0x0F04).2 = 0x99 := by decide
theorem test_rdUnknown : (after (exec (.rdUnknown 0x1018) ready)).reply = .bytes [0xFF] := by decide
theorem test_wrAccess :
    (after (exec (.wrAccess 0x02) ready)).dev.access = 0xA0 ∧
    (after (exec (.wrAccess 0xFD) ready)).dev.access = 0x00 := by decide
theorem test_wrInten : (after (exec (.wrInten 0 0x01) ready)).dev = ready.dev := by rfl
theorem test_wrCaps : (after (exec (.wrCaps 0 0x00) ready)).dev = ready.dev := by rfl
theorem test_wrSts0 :
    (after (exec (.wrSts0 0x60) (receiving cmd10 false))).dev.state = .ready ∧
    (after (exec (.wrSts0 0x9F) (receiving cmd10 false))).dev.state = .reception := by decide
theorem test_wrStsHi : (after (exec (.wrStsHi 1 0xFF) ready)).dev = ready.dev := by rfl
theorem test_wrFifo :
    (after (exec (.wrFifo 0x0024 0x80) ready)).dev.cmd = [0x80] ∧
    (after (exec (.wrFifo 0x0024 0x80) ready)).dev.cmdReady = false := by decide
theorem test_wrDidvid : (after (exec (.wrDidvid 0 0x00) ready)).dev = ready.dev := by rfl
theorem test_wrRid : (after (exec (.wrRid 0x00) ready)).dev = ready.dev := by rfl
theorem test_wrUnknown : (after (exec (.wrUnknown 0x1018 0x40) (receiving [0x80] true))).dev.cmd =
    [0x80] := by decide

/-! ### The command state machine (R142 to R155, V-SM) -/

theorem test_append_completes :
    ((receiving (cmd10.take 9) true).dev.fifoWrite Params.rc1 0x44).dataExpect = false ∧
    ((receiving (cmd10.take 8) true).dev.fifoWrite Params.rc1 0x33).dataExpect = true := by decide
theorem test_append_at_capacity :
    ((receiving [0x80, 1, 0, 0, 0, 9, 1, 2] true).dev.fifoWrite Params.rc2 3).cmd =
      [0x80, 1, 0, 0, 0, 9, 1, 2] := by decide
theorem test_stsAbort :
    (after (exec (.stsAbort 0 0) (completed [0x80, 0x01] 1))).dev.rsp = [] ∧
    (after (exec (.stsAbort 0 0) (completed [0x80, 0x01] 1))).dev.dataAvail = false := by decide
theorem test_stsGo :
    (after (exec (.stsGo 0 0) (receiving cmd10 false))).dev.state = .completion := by decide
theorem test_stsGo_incomplete :
    (after (exec (.stsGo 0 0) (receiving (cmd10.take 9) true))).dev.state = .reception := by decide
theorem test_go_response :
    ((receiving cmd10 false).dev.go Params.rc1).rsp =
      [0x80, 0x01, 0x00, 0x00, 0x00, 0x0A, 0x00, 0x00, 0x00, 0x00] := by decide
theorem test_stsAbortGo :
    (after (exec (.stsAbortGo 0 0) (receiving cmd10 false))).dev.state = .ready := by decide
theorem test_stsNop : (after (exec (.stsNop 1 0x18) (receiving [0x80] true))).dev.state =
    .reception := by decide
theorem test_accRequestUse : (after (exec (.accRequestUse 0 0) ready)).dev.access = 0xA0 := by
  decide
theorem test_accNop : (after (exec (.accNop 0x3F 1) ready)).dev.access = 0x00 := by decide
theorem test_init :
    (after (exec .init State.reset)).dev.state = .ready ∧
    (after (exec .init (receiving [0x80] true))).dev.state = .reception := by decide

/-! ### The transfer call (R170 to R188, V-ENG), under RC1 and the schedules of the vectors -/

/-- V-ENG-1. -/
theorem test_xferBE :
    answer (after (readyRc1.transfer Params.rc1 (Draws.eager Params.rc1 0xEE) true true 40
      [0x80, 0xD4, 0x00, 0x18, 0x00] [7, 7, 7, 7, 7])) =
      some (.ok, 5, [0x00, 0x00, 0x00, 0x01, 0xC0]) := by decide +kernel
/-- V-ENG-3 with poll limits of 1: a shifter that never steps. -/
theorem test_xferBE_timeout :
    answer (after (ready.transfer rc1Fast (Draws.stopped 0xEE) true true 16 [0x80, 0xD4] [7, 8])) =
      some (.timeout, 0, [7, 8]) := by decide +kernel
/-- V-ENG-9. -/
theorem test_xferB :
    (after (exec (.xferB 0 [] []) ready)).eng.cs = true ∧
    (after (exec (.xferB 0 [] []) ready)).dev.sel = true := by decide
/-- V-ENG-5. -/
theorem test_xferC :
    answer (after (ready.transfer Params.rc1 (Draws.eager Params.rc1 0xEE) false false 8 [0x80] [7])) =
      some (.ok, 1, [0xEE]) := by decide +kernel
/-- V-ENG-11, its second call. -/
theorem test_xferE :
    ((after ((inData .write 6 0x0018 0).transfer Params.rc1 (Draws.eager Params.rc1 0xEE) false true
      8 [0x40] [7])).dev.sel = false) := by decide +kernel

/-! ### States and operands that meet the hypotheses of the statements -/

/-- With the engine as reset leaves it, the device's invariants are the machine's. -/
theorem inv_at_rest (s : State) (h : s.eng = Engine.reset) (hd : s.dev.Inv Config.hw) :
    s.Inv Config.hw := by
  constructor
  case dev => exact hd
  all_goals simp [h, Engine.reset]

theorem ready_inv : ready.Inv Config.hw := by
  refine inv_at_rest _ rfl ?_
  constructor <;> simp [ready, State.reset, Device.reset]

/-- Idle with the locality granted before INIT. -/
def idleGranted : State := { State.reset with dev := { Device.reset with access := 0xA0 } }

theorem idleGranted_inv : idleGranted.Inv Config.hw := by
  refine inv_at_rest _ rfl ?_
  constructor <;> simp [idleGranted, State.reset, Device.reset, accGranted]

theorem receiving_open_inv : (receiving [0x80] true).Inv Config.hw := by
  refine inv_at_rest _ rfl ?_
  constructor <;>
    simp [receiving, ready, State.reset, Device.reset, Params.cmdCapacity, commandComplete,
      declaredLength]

theorem receiving_done_inv : (receiving cmd6 false).Inv Config.hw := by
  refine inv_at_rest _ rfl ?_
  constructor <;>
    simp [receiving, ready, State.reset, Device.reset, Params.cmdCapacity, commandComplete,
      declaredLength, cmd6, be32]

theorem completed_inv : (completed [0x80] 0).Inv Config.hw := by
  refine inv_at_rest _ rfl ?_
  constructor <;> simp [completed, ready, State.reset, Device.reset, Params.rspCapacity]

theorem cmd6_complete : CommandComplete cmd6 := ⟨by decide, by decide⟩
theorem at_rest : ready.eng.AtRest := ⟨rfl, rfl, rfl⟩

theorem witness_EncodedInstructionDecodesToItself :
    (Instr.wrStsHi 3 0xFF).wellFormed = true ∧ (Instr.wrStsHi 3 0xFF).fitsCase .unsel = true ∧
    (Instr.rdFifo 0x0EFF).wellFormed = true ∧ (Instr.rdFifo 0x0EFF).fitsCase .past = true ∧
    (Instr.wireBytePast 0x11).wellFormed = true ∧
    (Instr.wireBytePast 0x11).fitsCase .past = true ∧
    (Instr.xferBE 8 [1] [2]).wellFormed = true ∧
    (Instr.xferBE 8 [1] [2]).fitsCase .hdr = true := by decide
theorem witness_DecodedWordEncodesToItself :
    decode .unsel (.stsw 0xFF) = .ok (.stsAbortGo 1 0x1F) ∧
    ∀ w n out inBuf, Request.stsw 0xFF ≠ .xfer w n out inBuf :=
  ⟨by decide, by simp⟩
theorem witness_HeaderDecodeRecoversItsFields :
    (1 ≤ 1 ∧ 1 ≤ 64) ∧ (1 ≤ 64 ∧ 64 ≤ 64) := by decide
theorem witness_StepRunsTheDecodedInstruction :
    (∃ s : State, s.eng.call = none ∧ s.host = [.wire 0x300] ∧
      decode s.dev.byteCase (.wire 0x300) = .ok .init ∧ (Request.wire 0x300).access = none) ∧
    ∃ s : State, s.eng.call = none ∧ s.host = [.accw 0x02] ∧
      decode s.dev.byteCase (.accw 0x02) = .ok (.accRequestUse 0 0) ∧
      (Request.accw 0x02).access = some (.write, 0x0000) :=
  ⟨⟨{ ready with host := [.wire 0x300] }, by decide⟩,
    { ready with host := [.accw 0x02] }, by decide⟩
theorem witness_StepRestsTicksOrFaults :
    (ready.eng.call = none ∧ ready.host = []) ∧
    (ready.startCall true true 1 [0] [0]).eng.call = some (Call.initial true true 1 [0] [0]) ∧
    ∃ s : State, s.eng.call = none ∧ s.host = [.wire 0x001] ∧
      decode s.dev.byteCase (.wire 0x001) = .error .beginWithMosi :=
  ⟨by decide, by decide, { ready with host := [.wire 0x001] }, by decide⟩
theorem witness_EveryStepKeepsTheInvariants :
    (∃ s t : State, s.Inv Config.hw ∧ step s = .next t ∧ t.dev.state = .reception) ∧
    ∃ s t : State, s.Integrated ∧ s.host ≠ [] ∧ step s = .next t ∧ t.dev.sel = true :=
  ⟨⟨{ ready with host := [.acc 0x00024 0x80] }, _,
    ⟨ready_inv.dev, ready_inv.txq_le, ready_inv.rxq_le, ready_inv.idle_queues,
      ready_inv.running⟩, rfl, by decide⟩,
    { ready with host := [.xfer 0b10 0 [] []] }, _, ⟨rfl, fun _ h => .inr (by simp_all)⟩, by decide,
    rfl, by rfl⟩
theorem witness_CsEndClosesTheTransaction :
    ready.Inv Config.hw ∧ ready.dev.sel = false := ⟨ready_inv, by decide⟩
theorem witness_UnselectedByteIsADraw : ready.dev.sel = false := by decide
theorem witness_HeaderBytesAreStoredAndAnswered :
    ((inHeader 0).dev.sel = true ∧ (inHeader 0).dev.hdrCnt = 0) ∧
    ((inHeader 1).dev.sel = true ∧ (inHeader 1).dev.hdrCnt = 1) ∧
    ((inHeader 2).dev.sel = true ∧ (inHeader 2).dev.hdrCnt = 2) ∧
    ((inHeader 3).dev.sel = true ∧ (inHeader 3).dev.hdrCnt = 3) := by decide
theorem witness_FourthHeaderByteDecodesTheHeader :
    ((inHeader 3).dev.sel = true ∧ (inHeader 3).dev.hdrCnt = 3) ∧
    ∃ t, (inData .read 1 0x0018 0).dev.sel = true ∧ (inData .read 1 0x0018 0).dev.hdrCnt = 4 ∧
      exec (decodeByte (inData .read 1 0x0018 0).dev.byteCase 0) (inData .read 1 0x0018 0) =
        .next t :=
  ⟨by decide, _, by decide, by decide, rfl⟩
theorem witness_HeaderWordOpensTheDataPhase :
    (inHeader 0).dev.sel = true ∧ (inHeader 0).dev.hdrCnt = 0 := by decide
theorem witness_HeaderWordIsFourByteEvents :
    ∃ i : Instr, i = .hdrRead 0 5 0xD4 0x0018 ∨ i = .hdrWrite 0 5 0xD4 0x0018 := ⟨_, .inl rfl⟩
theorem witness_DataReadByteIsOneReadAccess :
    let s := inData .read 64 0x0018 63
    s.dev.sel = true ∧ s.dev.hdrCnt = 4 ∧ s.dev.offset < s.dev.len ∧ s.dev.dir = .read := by decide
theorem witness_DataWriteByteIsOneWriteAccess :
    let s := inData .write 1 0x0024 0
    s.dev.sel = true ∧ s.dev.hdrCnt = 4 ∧ s.dev.offset < s.dev.len ∧ s.dev.dir = .write := by
  decide
theorem witness_BytePastTheLengthMakesNoAccess :
    let s := inData .read 2 0x0018 2
    s.dev.sel = true ∧ s.dev.hdrCnt = 4 ∧ s.dev.len ≤ s.dev.offset := by decide
theorem witness_PartialHeaderChangesNothingElse : [0x05, 0xD4, (0x00 : Byte)].length < 4 := by
  decide
theorem witness_StatusByteTellsTheCommandState :
    (idleGranted.Inv Config.hw ∧ idleGranted.dev.state = .idle) ∧
    (ready.Inv Config.hw ∧ ready.dev.state = .ready) ∧
    ((receiving [0x80] true).Inv Config.hw ∧ (receiving [0x80] true).dev.state = .reception ∧
      ¬ CommandComplete (receiving [0x80] true).dev.cmd) ∧
    ((receiving cmd6 false).Inv Config.hw ∧ (receiving cmd6 false).dev.state = .reception ∧
      CommandComplete (receiving cmd6 false).dev.cmd) ∧
    ((completed [0x80] 0).Inv Config.hw ∧ (completed [0x80] 0).dev.state = .completion) :=
  ⟨⟨idleGranted_inv, rfl⟩, ⟨ready_inv, rfl⟩,
    ⟨receiving_open_inv, rfl, fun h => absurd h.1 (by decide)⟩,
    ⟨receiving_done_inv, rfl, cmd6_complete⟩, ⟨completed_inv, rfl⟩⟩
theorem witness_UnknownReadReturnsAllOnes :
    decodeAddr 0x0001 = .unmapped ∧ decodeAddr 0x0023 = .unmapped ∧
    decodeAddr 0x0F05 = .unmapped ∧ decodeAddr 0x1018 = .unmapped ∧
    decodeAddr 0x10000 = .unmapped := by decide
theorem witness_OnlyFifoReadsChangeState :
    (0x0023 < 0x0024) ∧ (0x0EFF < 0x0F00) ∧
    ((completed [0x80] 0).dev.state = .completion ∧
      (completed [0x80] 0).dev.rspCursor < (completed [0x80] 0).dev.rsp.length) ∧
    ready.dev.state ≠ .completion ∧
    (completed [0x80] 1).dev.rsp.length ≤ (completed [0x80] 1).dev.rspCursor := by decide
theorem witness_UnknownWriteHasNoEffect : decodeAddr 0x0023 = .unmapped ∧
    decodeAddr 0x1018 = .unmapped := by decide
theorem witness_AddressesAboveTheWindowAreUnknown :
    let r := inData .read 2 0xFFFF 1
    let w := inData .write 1 0x1000 0
    (r.dev.sel = true ∧ r.dev.hdrCnt = 4 ∧ r.dev.offset < r.dev.len ∧
      0x1000 ≤ r.dev.addr.toNat + r.dev.offset ∧ r.dev.dir = .read) ∧
    (w.dev.sel = true ∧ w.dev.hdrCnt = 4 ∧ w.dev.offset < w.dev.len ∧
      0x1000 ≤ w.dev.addr.toNat + w.dev.offset ∧ w.dev.dir = .write) := by decide
theorem witness_OnlyTheDataPhaseReachesTheRegisters :
    (ready.dev.byteCase ≠ .dataRd ∧ ready.dev.byteCase ≠ .dataWr) ∧
    ((inHeader 3).dev.byteCase ≠ .dataRd ∧ (inHeader 3).dev.byteCase ≠ .dataWr) ∧
    ∃ s1 s2 s3 : State, s1.eng.call = none ∧ s1.host = [.acc 0x10018 0x00] ∧
      s2.eng.call = none ∧ s2.host = [.stsw 0x40] ∧ s3.eng.call = none ∧ s3.host = [.accw 0x02] :=
  ⟨by decide, by decide, { ready with host := [.acc 0x10018 0x00] },
    { ready with host := [.stsw 0x40] }, { ready with host := [.accw 0x02] }, by decide⟩
theorem witness_AccessesNeedNoGrant :
    ∃ (t : State) (i : Instr), (∃ a v, a ≠ 0 ∧ (i = accessRow .read a v ∨ i = accessRow .write a v)) ∧
      exec i ready = .next t :=
  ⟨_, accessRow .write 0x24 0x80, ⟨0x24, 0x80, by decide, .inr rfl⟩, rfl⟩
theorem witness_GoNeedsACompleteCommand :
    ((receiving cmd6 false).dev.state = .reception ∧
      CommandComplete (receiving cmd6 false).dev.cmd) ∧
    ¬ (ready.dev.state = .reception ∧ CommandComplete ready.dev.cmd) :=
  ⟨⟨rfl, cmd6_complete⟩, fun h => absurd h.1 (by decide)⟩
theorem witness_InitMovesIdleToReady :
    State.reset.dev.state = .idle ∧ ready.dev.state ≠ .idle := by decide
theorem witness_FifoWriteInReadyStartsReception : ready.dev.state = .ready := by decide
theorem witness_FifoWriteInReceptionAppends :
    (∃ s : State, ∃ v, s.dev.state = .reception ∧ s.dev.dataExpect = true ∧
      s.dev.cmd.length ≠ Config.hw.cmdCapacity ∧ CommandComplete (s.dev.cmd ++ [v])) ∧
    (∃ s : State, ∃ v, s.dev.state = .reception ∧ s.dev.dataExpect = true ∧
      s.dev.cmd.length ≠ Config.hw.cmdCapacity ∧ ¬ CommandComplete (s.dev.cmd ++ [v])) ∧
    ∃ s : State, s.dev.state = .reception ∧ s.dev.dataExpect = true ∧
      s.dev.cmd.length = Config.hw.cmdCapacity := by
  refine ⟨⟨receiving (cmd6.take 5) true, 0x06, rfl, rfl, ?_, cmd6_complete⟩,
    ⟨receiving [0x80] true, 0x01, rfl, rfl, ?_, fun h => absurd h.1 (by decide)⟩,
    receiving (List.replicate Config.hw.cmdCapacity 0) true, rfl, rfl, ?_⟩
  · show 5 ≠ _; simp [Params.cmdCapacity]
  · show 1 ≠ _; simp [Params.cmdCapacity]
  · exact List.length_replicate
theorem witness_OtherFifoWritesAreIgnored :
    State.reset.dev.state = .idle ∧ (completed [0x80] 0).dev.state = .completion ∧
    (receiving cmd6 false).dev.state = .reception ∧ (receiving cmd6 false).dev.dataExpect = false ∧
    ∃ s : State, s.dev.state = .execution :=
  ⟨rfl, rfl, rfl, rfl, { ready with dev := { ready.dev with state := .execution } }, rfl⟩
theorem witness_FifoReadDrainsTheResponse :
    (let s := completed [0x80, 0x01] 0
     s.dev.rspCursor < s.dev.rsp.length ∧ s.dev.state = .completion ∧
      s.dev.rspCursor + 1 ≠ s.dev.rsp.length) ∧
    (let s := completed [0x80, 0x01] 1
     s.dev.rspCursor < s.dev.rsp.length ∧ s.dev.state = .completion ∧
      s.dev.rspCursor + 1 = s.dev.rsp.length) ∧
    ready.dev.state ≠ .completion ∧
    (completed [0x80] 1).dev.rsp.length ≤ (completed [0x80] 1).dev.rspCursor ∧
    ((completed [0x80] 0).Inv Config.hw ∧ (completed [0x80] 0).dev.state = .completion) :=
  ⟨by decide, by decide, by decide, by decide, completed_inv, rfl⟩
theorem witness_FifoAddressDoesNotMatter :
    0x0024 ≤ 0x0024 ∧ 0x0024 ≤ 0x0EFF ∧ 0x0024 ≤ 0x0EFF ∧ 0x0EFF ≤ 0x0EFF := by decide
theorem witness_ReceptionBuffersTheCommand :
    ∃ ps : List (Nat × Byte), ready.dev.state = .ready ∧ ps ≠ [] ∧
      ps.length ≤ Config.hw.cmdCapacity ∧
      (6 ≤ ps.length ∧ ps.length ≤ max 6 (declaredNat (ps.map Prod.snd))) :=
  ⟨cmd6.map fun b => (0x24, b), rfl, by decide, by
    show 6 ≤ _; simp [Params.cmdCapacity], by decide⟩
theorem witness_CommandCycleReturnsTheResponse :
    ∃ (ps : List (Nat × Byte)) (reads : List Nat), ready.dev.state = .ready ∧
      ps.length ≤ Config.hw.cmdCapacity ∧ CommandComplete (ps.map Prod.snd) ∧
      ps.length ≤ max 6 (declaredNat (ps.map Prod.snd)) ∧
      reads.length = (Config.hw.respond (ps.map Prod.snd)).length :=
  ⟨cmd6.map fun b => (0x24, b), List.replicate (Config.hw.respond cmd6).length 0x24, rfl, by
    show 6 ≤ _; simp [Params.cmdCapacity], cmd6_complete, by decide, List.length_replicate⟩
theorem witness_OneEventFollowsTheTransitionTable :
    ∃ t, oneEvent (.wrFifo 0x24 0x80) = true ∧ exec (.wrFifo 0x24 0x80) ready = .next t ∧
      t.dev.state = .reception := ⟨_, rfl, rfl, by decide⟩
theorem witness_NoStepEntersIdleOrExecution :
    (∃ s t : State, step s = .next t ∧ t.dev.state = .idle ∧ s.host ≠ []) ∧
    ∃ s t : State, step s = .next t ∧ t.dev.state = .execution ∧ s.host ≠ [] :=
  ⟨⟨{ State.reset with host := [.accw 0x02] }, _, rfl, by decide, by decide⟩,
    { State.reset with
      dev := { State.reset.dev with state := .execution }
      host := [.accw 0x02] }, _, rfl, by decide, by decide⟩
theorem witness_NoStepRevokesTheGrant :
    ∃ s t : State, step s = .next t ∧ t.dev.access = s.dev.access ||| 0xA0 ∧
      t.dev.access ≠ s.dev.access :=
  ⟨{ State.reset with host := [.accw 0x02] }, _, rfl, by decide, by decide⟩
theorem witness_EveryCallReturnsWithinItsPollBudget :
    ready.eng.AtRest ∧ 2 ≤ [0x80, (0xD4 : Byte)].length ∧ 2 ≤ [(0 : Byte), 0].length :=
  ⟨at_rest, by decide⟩
theorem witness_CallLeavesOneOfItsTwoResults :
    ready.eng.AtRest ∧ 1 ≤ [(0x80 : Byte)].length ∧ 1 ≤ [(0 : Byte), 7].length :=
  ⟨at_rest, by decide⟩
theorem witness_ZeroLengthCallsOnlyMoveChipSelect :
    ({ ready with eng := { ready.eng with cs := true } } : State).eng.AtRest := ⟨rfl, rfl, rfl⟩
theorem witness_ScheduleDoesNotShowInAnOkCall :
    ∃ (F G : Draws) (t u : State), F.misoIdle = G.misoIdle ∧ ready.eng.AtRest ∧
      ready.transfer Params.rc1 F true false (8 * 1) [0x80] [7] = .next t ∧
      ready.transfer Params.rc1 G true false (8 * 1) [0x80] [7] = .next u ∧ t.CallOk ∧ u.CallOk :=
  ⟨Draws.eager Params.rc1 0xEE, { Draws.eager Params.rc1 0xEE with shifterSteps := fun k => k },
    _, _, rfl, at_rest, rfl, rfl, ⟨1, [0x00], by decide +kernel⟩, ⟨1, [0x00], by decide +kernel⟩⟩
theorem witness_StoppedShifterTimesOut :
    (∀ k, (Draws.stopped 0xEE).shifterSteps k = 0) ∧ ready.eng.AtRest ∧ 0 < 1 ∧
      1 ≤ [(0x80 : Byte)].length ∧ 1 ≤ [(7 : Byte)].length :=
  ⟨fun _ => rfl, at_rest, by decide⟩
theorem witness_EagerShifterReturnsOk :
    (∀ k, Params.rc1.fifoDepth ≤ (Draws.eager Params.rc1 0xEE).shifterSteps k) ∧
      ready.eng.AtRest ∧ 1 ≤ [(0x80 : Byte)].length ∧ 1 ≤ [(7 : Byte)].length :=
  ⟨fun _ => Nat.le_refl _, at_rest, by decide⟩
theorem witness_TimeoutDeselectsAndKeepsTheRestOfIn :
    (∃ t, ready.transfer rc1Fast (Draws.stopped 0xEE) true false (8 * 1) [0x80] [7] = .next t ∧
      t.reply = .transfer .timeout 0 [7]) ∧
    ∃ t, ready.transfer rc1Fast (Draws.eager rc1Fast 0xEE) true false (8 * 1) [0x80] [7, 8] =
      .next t ∧ t.reply = .transfer .ok 1 [0x00, 8] :=
  ⟨⟨_, rfl, by decide +kernel⟩, _, rfl, by decide +kernel⟩
theorem witness_IllegalCallsAreRefused :
    12 % 8 ≠ 0 ∧ (8 % 8 = 0 ∧ (ready.startCall true true 1 [0] [0]).eng.call ≠ none) ∧
    (8 % 8 = 0 ∧ ready.eng.call = none ∧ ([] : List Byte).length < 8 / 8) ∧
    (8 % 8 = 0 ∧ ready.eng.call = none ∧ ¬ [(0 : Byte)].length < 8 / 8 ∧
      ([] : List Byte).length < 8 / 8) := by decide
theorem witness_CallWithoutBeginReachesNoDevice :
    ready.Inv Config.hw ∧ ready.eng.call = none ∧ ready.dev.sel = false ∧
      1 ≤ [(0x80 : Byte)].length ∧ 1 ≤ [(7 : Byte)].length := ⟨ready_inv, by decide⟩
/-- V-ENG-11, and the same with a second call that leaves the transaction open. -/
theorem witness_SplitTransactionActsAsOneCall (e : Bool) :
    ∃ t1 t2 t3 : State, ready.eng.AtRest ∧
      ready.transfer rc1Fast (Draws.eager rc1Fast 0xEE) true false (8 * 4)
        [0x05, 0xD4, 0x00, 0x18] [7, 7, 7, 7] = .next t1 ∧ t1.CallOk ∧
      t1.transfer rc1Fast (Draws.eager rc1Fast 0xEE) false e (8 * 1) [0x40] [7] = .next t2 ∧
      t2.CallOk ∧
      ready.transfer rc1Fast (Draws.eager rc1Fast 0xEE) true e (8 * (4 + 1))
        [0x05, 0xD4, 0x00, 0x18, 0x40] [7, 7, 7, 7, 7] = .next t3 ∧ t3.CallOk := by
  refine ⟨_, _, _, at_rest, rfl, ⟨4, [0, 0, 0, 1], by decide +kernel⟩, rfl, ⟨1, [0], ?_⟩, rfl,
    ⟨5, [0, 0, 0, 1, 0], ?_⟩⟩ <;> cases e <;> decide +kernel

end Sys2Proof.Tests
end

section
/-! One BYTE event at the device port, and what it is while no device is selected (R99). -/

namespace Sys2Proof.Machine

/-- A BYTE event is one byte exchange on the wire, and its answer is that exchange's miso byte. -/
theorem State.byteEvent_eq_wireByte (P : Params) (F : Draws) (s : State) (m : Byte) :
    s.byteEvent P F m =
      .next ((s.wireByte P F m).1.setReply (.bytes [(s.wireByte P F m).2])) := by
  simp [State.byteEvent, State.answer, State.wireBytes_cons]

/-- R99: the exchange with no device selected is one MISO_IDLE draw. -/
theorem State.wireByte_of_unselected (P : Params) (F : Draws) {s : State} (h : s.dev.sel = false)
    (m : Byte) : s.wireByte P F m = (s.countMiso, F.misoIdle s.misoDraws) := by
  rcases s.wireByte_cases P F m with ⟨hsel, -⟩ | ⟨-, e⟩
  · simp [h] at hsel
  · exact e

/-- The row WIRE_BYTE_UNSEL is the BYTE event. -/
theorem exec_wireByteUnsel (m : Byte) (s : State) :
    exec (.wireByteUnsel m) s = s.byteEvent Config.hw Config.draws m := rfl

/-- Settles O13: the row is one byte exchange, and with no device selected that exchange is one
MISO_IDLE draw (R99). -/
theorem unselectedByteIsADraw : Obligations.UnselectedByteIsADraw := by
  intro s m h
  rw [exec_wireByteUnsel, State.byteEvent_eq_wireByte, State.wireByte_of_unselected _ _ h]
  rfl

end Sys2Proof.Machine
end

section
/-! The invariants of R41 at reset and under every step, and in the integrated block of R95 the device's
selection, which follows chip-select (R35, R174). -/

namespace Sys2Proof.Machine

/-! ### Reset -/

/-- R225: DeviceReset leaves the device's invariants. -/
theorem Device.reset_inv : Device.reset.Inv Config.hw := by
  constructor <;> simp [Device.reset]

/-- R226: after reset no call runs, so nothing of a running call is to be shown. -/
theorem State.reset_inv : State.reset.Inv Config.hw where
  dev := Device.reset_inv
  txq_le := Nat.zero_le _
  rxq_le := Nat.zero_le _
  idle_queues _ := ⟨rfl, rfl⟩
  running _ hc := nomatch hc

/-- R226: the device is not selected, chip-select is not asserted, and there is nothing to issue. -/
theorem State.reset_integrated : State.reset.Integrated where
  sel_eq := rfl
  calls _ hr := nomatch hr

/-- Settles O9: the base case of the invariant, for the machine and for the integrated block. -/
theorem resetSatisfiesTheInvariants : Obligations.ResetSatisfiesTheInvariants :=
  ⟨State.reset_inv, State.reset_integrated⟩

/-! ### Every step keeps the invariants -/

/-- The invariants do not speak of the host's list. -/
theorem State.Inv.setHost {P : Params} {s : State} (h : s.Inv P) (rest : List Request) :
    (s.setHost rest).Inv P :=
  h.of_dev rfl h.dev

/-- R41: a sequencer step of the running call, a rest and an operation of the host's all keep the
invariants. -/
theorem step_inv {s t : State} (hi : s.Inv Config.hw) (h : step s = .next t) :
    t.Inv Config.hw := by
  rcases step_cases h with ⟨-, rfl⟩ | ⟨-, -, rfl⟩ | ⟨-, r, rest, i, -, -, hx⟩
  · exact State.tick_inv hi
  · exact hi
  · exact State.inDataPhase_inv (hi.setHost rest) hx

/-! ### INIT at the device -/

/-- INIT moves Idle to Ready and does nothing elsewhere (R142). -/
theorem Device.probe_cases (d : Device) :
    (d.state = .idle ∧ d.probe = { d with state := .ready, cmdReady := true }) ∨
      (d.state ≠ .idle ∧ d.probe = d) := by
  unfold Device.probe
  cases hs : d.state <;> simp

theorem Device.probe_sameParser (d : Device) : d.probe.SameParser d := by
  rcases d.probe_cases with ⟨-, e⟩ | ⟨-, e⟩ <;> simp [e, Device.SameParser]

/-! ### The integrated block: D.sel follows E.cs -/

/-- What moves neither the selection nor chip-select, and leaves the host's list alone, keeps the
block integrated. -/
theorem State.Integrated.of_frame {s t : State} (h : s.Integrated)
    (hsel : t.dev.sel = s.dev.sel) (hcs : t.eng.cs = s.eng.cs) (hhost : t.host = s.host) :
    t.Integrated where
  sel_eq := by rw [hsel, hcs, h.sel_eq]
  calls := by rw [hhost]; exact h.calls

/-- Taking an operation off the host's list leaves only INIT and calls in it. -/
theorem State.Integrated.tail {s : State} {r : Request} {rest : List Request}
    (h : s.Integrated) (hh : s.host = r :: rest) : (s.setHost rest).Integrated where
  sel_eq := h.sel_eq
  calls q hq := h.calls q (hh ▸ List.mem_cons_of_mem r hq)

/-- R172: Begin selects the device and asserts chip-select together. -/
theorem State.engineBegin_integrated {s : State} (h : s.Integrated) : s.engineBegin.Integrated :=
  ⟨rfl, h.calls⟩

/-- R180: End deselects the device and drops chip-select together. -/
theorem State.engineEnd_integrated {s : State} (h : s.Integrated) : s.engineEnd.Integrated :=
  ⟨rfl, h.calls⟩

theorem State.shifterStep_integrated {P : Params} {F : Draws} {s : State} (h : s.Integrated) :
    (s.shifterStep P F).Integrated := by
  rcases s.shifterStep_cases P F with ⟨b, q, -, -, e⟩ | e <;> rw [e]
  · exact h.of_frame (s.wireByte_sel P F b) rfl (s.wireByte_host P F b)
  · exact h

theorem State.shifterTurn_integrated {P : Params} {F : Draws} {s : State} (h : s.Integrated) :
    (s.shifterTurn P F).Integrated := by
  obtain ⟨k, e⟩ := s.shifterTurn_eq P F
  rw [e]
  exact State.shifterSteps_induct State.Integrated (fun _ => State.shifterStep_integrated) k _
    (h.of_frame rfl rfl rfl)

/-- A sequencer step moves chip-select only by Begin, End and TimeoutExit, and the device's selection
with it (R172, R180, R181). -/
theorem State.seqStep_integrated {P : Params} {s : State} (h : s.Integrated) (c : Call) :
    (s.seqStep P c).Integrated := by
  unfold State.seqStep
  cases c.phase <;> dsimp only
  case start => exact (State.engineBegin_integrated h).of_frame rfl rfl rfl
  case transmit => unfold State.transmitPoll; split <;> exact h.of_frame rfl rfl rfl
  case doneWait => unfold State.donePoll; split <;> exact h.of_frame rfl rfl rfl
  case residual => exact h.of_frame rfl rfl rfl
  case finish =>
    split
    · exact (State.engineEnd_integrated h).of_frame rfl rfl rfl
    · exact h.of_frame rfl rfl rfl
  case timeout => exact (State.engineEnd_integrated h).of_frame rfl rfl rfl

theorem State.tick_integrated {P : Params} {F : Draws} {s : State} (h : s.Integrated) :
    (s.tick P F).Integrated := by
  unfold State.tick
  split
  · exact h
  · split
    · exact State.seqStep_integrated h _
    · exact State.seqStep_integrated (State.shifterTurn_integrated h) _

theorem State.runCall_integrated {P : Params} {F : Draws} {s : State} (h : s.Integrated)
    (fuel : Nat) : (s.runCall P F fuel).Integrated := by
  induction fuel generalizing s with
  | zero => exact h
  | succ fuel ih =>
    unfold State.runCall
    split
    · exact h
    · exact ih (State.tick_integrated h)

theorem State.transfer_integrated {P : Params} {F : Draws} {s t : State} {b e : Bool} {m : Nat}
    {out inBuf : List Byte} (hi : s.Integrated)
    (h : s.transfer P F b e m out inBuf = .next t) : t.Integrated := by
  obtain ⟨-, -, -, -, rfl⟩ := State.transfer_next h
  have hs : (s.startCall b e (m / 8) out inBuf).Integrated := hi.of_frame rfl rfl rfl
  exact State.runCall_integrated hs _

/-- R85: an XFER word is the transfer call with the word's two flags. -/
theorem exec_decodeXfer (w : BitVec 2) (m : Nat) (out inBuf : List Byte) (s : State) :
    exec (decodeXfer w m out inBuf) s =
      s.transfer Config.hw Config.draws (w.getLsbD 1) (w.getLsbD 0) m out inBuf := by
  unfold decodeXfer
  cases w.getLsbD 1 <;> cases w.getLsbD 0 <;> rfl

/-- R86, R142: the word 0x300 is INIT in every device state, and INIT is the probe at the device. -/
theorem exec_of_decode_init {bc : ByteCase} {i : Instr} (h : decode bc (.wire 0x300) = .ok i)
    (s : State) : exec i s = .next ((s.setDev s.dev.probe).setReply .silent) := by
  obtain rfl : Instr.init = i := Except.ok.inj h
  rfl

/-- R174: from an integrated block a step makes no wire event but through the engine. -/
theorem step_integrated {s t : State} (hi : s.Integrated) (h : step s = .next t) :
    t.Integrated := by
  rcases step_cases h with ⟨-, rfl⟩ | ⟨-, -, rfl⟩ | ⟨-, r, rest, i, hh, hd, hx⟩
  · exact State.tick_integrated hi
  · exact hi
  · have ht := hi.tail hh
    rcases hi.calls r (by simp [hh]) with rfl | ⟨w, m, out, inBuf, rfl⟩
    · obtain rfl := Host.Outcome.next.inj ((exec_of_decode_init hd _).symm.trans hx)
      exact ht.of_frame (Device.probe_sameParser _).1 rfl rfl
    · obtain rfl := Except.ok.inj hd
      exact State.transfer_integrated ht ((exec_decodeXfer w m out inBuf _).symm.trans hx)

/-- Settles O10: the invariants by cases on the step; the integrated block by following chip-select
through the sequencer. -/
theorem everyStepKeepsTheInvariants : Obligations.EveryStepKeepsTheInvariants :=
  ⟨fun _ _ => step_inv, fun _ _ => step_integrated⟩

end Sys2Proof.Machine
end

section
/-! The access register (R28, R119, R124): what a write to it does, and that nothing else in the machine
changes it. -/

namespace Sys2Proof.Machine

/-! ### A write to the access register -/

/-- A mask of one bit tests that bit. -/
theorem hasBit_twoPow (v : Byte) (k : Nat) (hk : k < 8) :
    hasBit v (BitVec.twoPow 8 k) = v.getLsbD k := by
  have hne : BitVec.twoPow 8 k ≠ 0#8 := fun e => by
    have := congrArg (fun x => x.getLsbD k) e
    simp [hk] at this
  cases h : v.getLsbD k <;> simp [hasBit, BitVec.and_twoPow, h, hne]

/-- R84: bit 1 of the value is the request-use. -/
theorem hasBit_requestUse (v : Byte) : hasBit v accRequestUseBit = v.getLsbD 1 :=
  hasBit_twoPow v 1 (by decide)

/-- R124: AccessWrite grants on a request-use, and otherwise does nothing. -/
theorem Device.accessWrite_eq (d : Device) (v : Byte) :
    d.accessWrite v =
      { d with access := if v.getLsbD 1 then d.access ||| accGranted else d.access } := by
  unfold Device.accessWrite Device.grant
  rw [hasBit_requestUse]
  split <;> rfl

theorem exec_wrAccess (v : Byte) (s : State) :
    exec (.wrAccess v) s = .next { s with dev := s.dev.accessWrite v, reply := .silent } := rfl

theorem exec_accRequestUse (hi : BitVec 6) (b0 : BitVec 1) (s : State) :
    exec (.accRequestUse hi b0) s = .next { s with dev := s.dev.grant, reply := .silent } := rfl

/-- Settles O30: a write is AccessWrite of its value, a request-use the grant (R124). -/
theorem requestUseGrantsLocality : Obligations.RequestUseGrantsLocality := by
  intro s v hi b0
  constructor
  · rw [exec_wrAccess, Device.accessWrite_eq]; rfl
  · rw [exec_accRequestUse]; rfl

/-! ### What leaves the access register alone -/

@[simp] theorem Device.append_access (P : Params) (d : Device) (b : Byte) :
    (d.append P b).access = d.access := by
  rcases d.append_cases P b with ⟨-, e⟩ | ⟨-, e⟩ <;> rw [e]

@[simp] theorem Device.fifoWrite_access (P : Params) (d : Device) (b : Byte) :
    (d.fifoWrite P b).access = d.access := by
  rcases d.fifoWrite_cases P b with ⟨-, e⟩ | ⟨-, -, e⟩ | ⟨-, -, e⟩ <;> simp [e]

@[simp] theorem Device.fifoRead_access (d : Device) : d.fifoRead.1.access = d.access := by
  rcases d.fifoRead_cases with ⟨-, -, e⟩ | ⟨-, -, e⟩ | ⟨-, e⟩ <;> simp [e]

@[simp] theorem Device.go_access (P : Params) (d : Device) : (d.go P).access = d.access := by
  rcases d.go_cases P with ⟨-, -, e⟩ | ⟨-, e⟩ <;> rw [e]

@[simp] theorem Device.stsWrite0_access (P : Params) (d : Device) (v : Byte) :
    (d.stsWrite0 P v).access = d.access := by
  rcases d.stsWrite0_cases P v with e | e | e <;> simp [e]

@[simp] theorem Device.memRead_access (P : Params) (d : Device) (a : Nat) :
    (d.memRead P a).1.access = d.access := by
  rcases d.memRead_cases P a with e | e <;> simp [e]

@[simp] theorem Device.probe_access (d : Device) : d.probe.access = d.access := by
  rcases d.probe_cases with ⟨-, e⟩ | ⟨-, e⟩ <;> rw [e]

@[simp] theorem Device.headerByte_access (P : Params) (d : Device) (m : Byte) :
    (d.headerByte P m).1.access = d.access := by
  unfold Device.headerByte
  dsimp only
  split <;> rfl

/-! ### No event revokes the grant (D18) -/

/-- From `d` to `e` the access register is kept or gains the two grant bits. -/
def Device.KeepsGrant (d e : Device) : Prop :=
  e.access = d.access ∨ e.access = d.access ||| accGranted

theorem Device.KeepsGrant.trans {d e f : Device} (hde : d.KeepsGrant e) (hef : e.KeepsGrant f) :
    d.KeepsGrant f := by
  rcases hde with h | h <;> rcases hef with h' | h' <;>
    simp [Device.KeepsGrant, h, h', BitVec.or_assoc]

/-- A register write grants or leaves the access register alone (R118, R124). -/
theorem Device.memWrite_keepsGrant (P : Params) (d : Device) (a : Nat) (v : Byte) :
    d.KeepsGrant (d.memWrite P a v) := by
  rcases d.memWrite_cases P a v with e | e | e | e <;> rw [e]
  · exact .inl (d.stsWrite0_access P v)
  · exact .inr rfl
  · exact .inl (d.fifoWrite_access P v)
  · exact .inl rfl

/-- A byte of a transaction reaches the access register by a write of its data phase alone (R100). -/
theorem Device.byte_keepsGrant (P : Params) (d : Device) (m : Byte) :
    d.KeepsGrant (d.byte P m).1 := by
  rcases d.byte_cases P m with ⟨-, e⟩ | ⟨-, -, -, e⟩ | ⟨-, -, -, e⟩ | ⟨-, -, e⟩ <;> rw [e]
  · exact .inl (d.headerByte_access P m)
  · exact .inl (d.memRead_access P d.accessAddr)
  · exact d.memWrite_keepsGrant P d.accessAddr m
  · exact .inl rfl

theorem Device.event_keepsGrant {P : Params} {d e : Device} (h : Device.Event P d e) :
    d.KeepsGrant e := by
  cases h with
  | csBegin => exact .inl rfl
  | csEnd => exact .inl rfl
  | byte m _ => exact d.byte_keepsGrant P m
  | memRead a => exact .inl (d.memRead_access P a)
  | memWrite a v => exact d.memWrite_keepsGrant P a v
  | probe => exact .inl d.probe_access
  | count => exact .inl rfl

theorem Device.reach_keepsGrant {P : Params} {d e : Device} (h : Device.Reach P d e) :
    d.KeepsGrant e :=
  h.keeps (K := d.KeepsGrant) (fun _ _ he hd => hd.trans (Device.event_keepsGrant he)) (.inl rfl)

/-- Settles O49: a step is a run of device events, and no event clears a bit of the register. -/
theorem noStepRevokesTheGrant : Obligations.NoStepRevokesTheGrant :=
  fun _ _ h => Device.reach_keepsGrant (step_reach h)

end Sys2Proof.Machine
end

section
/-! The status register (R120, R121): the bytes of its packed word, and what the invariants make of them in
each command state. -/

namespace Sys2Proof.Machine

/-! ### The bytes of the packed word -/

/-- Bits 7:0 are the flags (R120). -/
@[simp] theorem Device.stsRead_zero (d : Device) : d.stsRead 0 = d.statusFlags :=
  (extract_append_low _ d.statusFlags 0 8 (by omega)).trans (extract_whole d.statusFlags)

/-- Bits 15:8 are the burst count (R120). -/
@[simp] theorem Device.stsRead_one (d : Device) : d.stsRead 1 = d.burst :=
  (extract_append_high _ d.statusFlags 0 8).trans
    ((extract_append_low _ d.burst 0 8 (by omega)).trans (extract_whole d.burst))

/-- RD_STS answers the byte and changes nothing (R121). -/
theorem exec_rdSts (k : BitVec 2) (s : State) :
    exec (.rdSts k) s = .next { s with reply := .bytes [s.dev.stsRead k] } := rfl

/-! ### The flags under the invariants (R41) -/

/-- R41.4. -/
theorem Device.Inv.cmdReady_eq {P : Params} {d : Device} (h : d.Inv P) :
    d.cmdReady = decide (d.state = .ready) := by
  simp [h.ready_iff]

/-- R41.3. -/
theorem Device.Inv.dataAvail_eq {P : Params} {d : Device} (h : d.Inv P) :
    d.dataAvail = decide (d.state = .completion) := by
  simp [h.avail_iff]

/-- R41.5, R148: data-expect tells of a reception whose command is incomplete. -/
theorem Device.Inv.dataExpect_eq {P : Params} {d : Device} (h : d.Inv P) :
    d.dataExpect = (decide (d.state = .reception) && !commandComplete d.cmd) := by
  cases he : d.dataExpect with
  | false => simpa using fun hs => (h.complete_iff hs).1 he
  | true =>
    have hs := h.expect_reception he
    have hc : commandComplete d.cmd ≠ true := by simp [← h.complete_iff hs, he]
    simp [hs, hc]

/-- R120 under R41: the command state and Complete() give the flags. -/
theorem Device.Inv.statusFlags_eq {P : Params} {d : Device} (h : d.Inv P) :
    d.statusFlags = stsValid ||| flagBit (decide (d.state = .ready)) stsCmdReady
      ||| flagBit (decide (d.state = .completion)) stsDataAvail
      ||| flagBit (decide (d.state = .reception) && !commandComplete d.cmd) stsDataExpect := by
  rw [← h.cmdReady_eq, ← h.dataAvail_eq, ← h.dataExpect_eq]
  rfl

/-- Settles O25: byte 0 is the flags, which the invariants tie to the command state; byte 1 is the burst
count, which never leaves BURST_DEFAULT (R156). -/
theorem statusByteTellsTheCommandState : Obligations.StatusByteTellsTheCommandState := by
  intro s h
  simp only [exec_rdSts, Device.stsRead_zero, Device.stsRead_one, h.dev.burst_eq,
    h.dev.statusFlags_eq, ← commandComplete_iff]
  refine ⟨?idle, ?ready, ?incomplete, ?complete, ?completion, trivial⟩
  case idle => intro hs; simp [hs, flagBit, stsValid]
  case ready => intro hs; simp [hs, flagBit, stsValid, stsCmdReady]
  case incomplete => intro hs hc; simp [hs, hc, flagBit, stsValid, stsDataExpect]
  case complete => intro hs hc; simp [hs, hc, flagBit, stsValid]
  case completion => intro hs; simp [hs, flagBit, stsValid, stsDataAvail]

end Sys2Proof.Machine
end

section
/-! The rows of an access (R80, R81) and the register map (R115): one access of the register file is the
row's meaning. -/

namespace Sys2Proof.Machine

/-! ### The row of a region -/

/-- The row that reads address `a` of a region. -/
def Region.readRow (a : Nat) : Region → Instr
  | .access => .rdAccess
  | .inten => .rdInten (low2 a)
  | .caps k => .rdCaps k
  | .sts k => .rdSts k
  | .fifo => .rdFifo a
  | .didvid k => .rdDidvid k
  | .rid => .rdRid
  | .unmapped => .rdUnknown a

/-- The row that writes `v` to address `a` of a region; the status register's bytes 1 to 3 have a row of
their own (R123). -/
def Region.writeRow (a : Nat) (v : Byte) : Region → Instr
  | .access => .wrAccess v
  | .inten => .wrInten (low2 a) v
  | .caps k => .wrCaps k v
  | .sts k => if k = 0 then .wrSts0 v else .wrStsHi k v
  | .fifo => .wrFifo a v
  | .didvid k => .wrDidvid k v
  | .rid => .wrRid v
  | .unmapped => .wrUnknown a v

/-- A mask that leaves the two low bits free is a range of four addresses (R81, R115). -/
theorem div_four_eq_iff (a q : Nat) : a / 4 = q ↔ 4 * q ≤ a ∧ a ≤ 4 * q + 3 := by
  omega

/-- The low two bits of an address count from any multiple of 4. -/
theorem low2_eq_ofNat_sub {a : Nat} (q : Nat) (h : 4 * q ≤ a) :
    low2 a = BitVec.ofNat 2 (a - 4 * q) := by
  apply BitVec.eq_of_toNat_eq
  simp only [low2, BitVec.toNat_ofNat]
  omega

/-- R81, R115: the read row of an address is its region's. -/
theorem readRow_eq (a : Nat) : readRow a = (decodeAddr a).readRow a := by
  unfold readRow decodeAddr
  simp only [div_four_eq_iff, fifoAddr, decide_eq_true_eq]
  split_ifs with access inten caps sts fifo didvid rid
  case pos => rfl
  case pos => rfl
  case pos => exact congrArg Instr.rdCaps (low2_eq_ofNat_sub 5 caps.1)
  case pos => exact congrArg Instr.rdSts (low2_eq_ofNat_sub 6 sts.1)
  case pos => rfl
  case pos => exact congrArg Instr.rdDidvid (low2_eq_ofNat_sub 0x3C0 didvid.1)
  case pos => rfl
  case neg => rfl

/-- R81, R115: the write row of an address is its region's. -/
theorem writeRow_eq (a : Nat) (v : Byte) : writeRow a v = (decodeAddr a).writeRow a v := by
  by_cases sts : 0x0018 ≤ a ∧ a ≤ 0x001B
  · obtain ⟨lo, hi⟩ := sts
    interval_cases a <;> rfl
  · have hfirst : a ≠ 0x0018 := by omega
    have hlater : ¬ (0x0019 ≤ a ∧ a ≤ 0x001B) := by omega
    unfold writeRow decodeAddr
    simp only [div_four_eq_iff, fifoAddr, decide_eq_true_eq, if_neg hfirst, if_neg hlater,
      if_neg sts]
    split_ifs with access inten caps fifo didvid rid
    case pos => rfl
    case pos => rfl
    case pos => exact congrArg (Instr.wrCaps · v) (low2_eq_ofNat_sub 5 caps.1)
    case pos => rfl
    case pos => exact congrArg (Instr.wrDidvid · v) (low2_eq_ofNat_sub 0x3C0 didvid.1)
    case pos => rfl
    case neg => rfl

/-! ### The meaning of a row (R117, R118) -/

/-- R117: the read row of an address answers MemRead's byte and leaves MemRead's device. -/
theorem exec_accessRow_read (s : State) (a : Nat) (v : Byte) :
    exec (accessRow .read a v) s = s.readAnswer (s.dev.memRead Config.hw a) := by
  rw [accessRow, readRow_eq]
  unfold Device.memRead
  cases decodeAddr a <;> rfl

/-- R118: the write row of an address leaves MemWrite's device. -/
theorem exec_accessRow_write (s : State) (a : Nat) (v : Byte) :
    exec (accessRow .write a v) s = s.writeAnswer (s.dev.memWrite Config.hw a v) := by
  rw [accessRow, writeRow_eq]
  unfold Device.memWrite
  cases decodeAddr a
  case sts k =>
    dsimp only [Region.writeRow]
    split <;> rfl
  all_goals rfl

/-- R83: abort is bit 6 of a status value. -/
theorem hasBit_abort (v : Byte) : hasBit v stsCmdReady = v.getLsbD 6 :=
  hasBit_twoPow v 6 (by decide)

/-- R83: go is bit 5 of a status value. -/
theorem hasBit_go (v : Byte) : hasBit v stsGo = v.getLsbD 5 :=
  hasBit_twoPow v 5 (by decide)

/-- R83: a status value is the write of its byte to 0x0018. -/
theorem exec_decodeStsw (v : Byte) (s : State) :
    exec (decodeStsw v) s = exec (accessRow .write 0x0018 v) s := by
  rw [exec_accessRow_write]
  change _ = s.writeAnswer (s.dev.stsWrite0 Config.hw v)
  unfold decodeStsw Device.stsWrite0
  rw [hasBit_abort, hasBit_go]
  cases v.getLsbD 6 <;> cases v.getLsbD 5 <;> rfl

/-- R84: an access value is the write of its byte to 0x0000. -/
theorem exec_decodeAccw (v : Byte) (s : State) :
    exec (decodeAccw v) s = exec (accessRow .write 0x0000 v) s := by
  rw [exec_accessRow_write]
  change _ = s.writeAnswer (s.dev.accessWrite v)
  unfold decodeAccw Device.accessWrite
  rw [hasBit_requestUse]
  cases v.getLsbD 1 <;> rfl

end Sys2Proof.Machine
end

section
/-! The data phase: which BYTE events reach the registers (R50, R99 to R105), and an access of the host's as
a transaction on the wire (log 11). -/

namespace Sys2Proof.Machine

/-! ### A BYTE event by the row that the device's state selects -/

/-- The exchange of one byte in each of the five cases (R99, R100). -/
def State.exchange (P : Params) (F : Draws) (s : State) (m : Byte) : ByteCase → State × Byte
  | .unsel => (s.countMiso, F.misoIdle s.misoDraws)
  | .hdr => (s.setDev (s.dev.headerByte P m).1, (s.dev.headerByte P m).2)
  | .dataRd => (s.setDev (s.dev.dataRead P).1, (s.dev.dataRead P).2)
  | .dataWr => (s.setDev (s.dev.dataWrite P m).1, (s.dev.dataWrite P m).2)
  | .past => (s.setDev (s.dev.pastByte P).1, (s.dev.pastByte P).2)

/-- The wire's exchange is the one of the device's own case. -/
theorem State.wireByte_eq_exchange (P : Params) (F : Draws) (s : State) (m : Byte) :
    s.wireByte P F m = s.exchange P F m s.dev.byteCase := by
  unfold State.wireByte Device.byte Device.byteCase
  cases hsel : s.dev.sel
  case false => rfl
  case true =>
    by_cases hcnt : s.dev.hdrCnt < 4
    · simp [hcnt, State.exchange]
    · by_cases hoff : s.dev.offset < s.dev.len
      · cases hdir : s.dev.dir <;> simp [hcnt, hoff, State.exchange]
      · simp [hcnt, hoff, State.exchange]

/-- The row of every case is the BYTE event (log 9). -/
theorem exec_decodeByte (bc : ByteCase) (m : Byte) (s : State) :
    exec (decodeByte bc m) s = s.byteEvent Config.hw Config.draws m := by
  cases bc <;> rfl

/-- The data phase of a read selects the row WIRE_BYTE_DATA_RD (R103). -/
theorem Device.byteCase_eq_dataRd {d : Device} (hsel : d.sel = true) (hcnt : d.hdrCnt = 4)
    (hoff : d.offset < d.len) (hdir : d.dir = .read) : d.byteCase = .dataRd := by
  simp [Device.byteCase, hsel, hcnt, hoff, hdir]

/-- The data phase of a write selects the row WIRE_BYTE_DATA_WR (R104). -/
theorem Device.byteCase_eq_dataWr {d : Device} (hsel : d.sel = true) (hcnt : d.hdrCnt = 4)
    (hoff : d.offset < d.len) (hdir : d.dir = .write) : d.byteCase = .dataWr := by
  simp [Device.byteCase, hsel, hcnt, hoff, hdir]

/-! ### Outside the data phase -/

/-- From `d` to `e` the registers, the command state and both buffers are kept: only the framing parser's
fields move (R32, R33). -/
def Device.KeepsRegisters (d e : Device) : Prop :=
  e = { d with
    sel := e.sel, hdr := e.hdr, hdrCnt := e.hdrCnt, dir := e.dir, len := e.len, addr := e.addr
    offset := e.offset }

theorem Device.headerByte_keepsRegisters (P : Params) (d : Device) (m : Byte) :
    d.KeepsRegisters (d.headerByte P m).1 := by
  unfold Device.headerByte
  dsimp only
  split <;> rfl

/-- R50: a byte outside the data phase keeps the registers. -/
theorem State.exchange_keepsRegisters (P : Params) (F : Draws) (s : State) (m : Byte)
    {bc : ByteCase} (hr : bc ≠ .dataRd) (hw : bc ≠ .dataWr) :
    s.dev.KeepsRegisters (s.exchange P F m bc).1.dev := by
  cases bc
  case unsel => rfl
  case hdr => exact s.dev.headerByte_keepsRegisters P m
  case dataRd => exact absurd rfl hr
  case dataWr => exact absurd rfl hw
  case past => rfl

/-- R50: a BYTE event outside the data phase completes and keeps the registers and the engine. -/
theorem State.byteEvent_keepsRegisters (P : Params) (F : Draws) (s : State) (m : Byte)
    (hr : s.dev.byteCase ≠ .dataRd) (hw : s.dev.byteCase ≠ .dataWr) :
    ∃ t, s.byteEvent P F m = .next t ∧ t.eng = s.eng ∧ s.dev.KeepsRegisters t.dev := by
  refine ⟨_, s.byteEvent_eq_wireByte P F m, s.wireByte_eng P F m, ?_⟩
  rw [State.setReply_dev, State.wireByte_eq_exchange]
  exact s.exchange_keepsRegisters P F m hr hw

/-! ### A data byte -/

theorem State.wireByte_of_dataRd (P : Params) (F : Draws) {s : State} (h : s.dev.byteCase = .dataRd)
    (m : Byte) :
    s.wireByte P F m = (s.setDev (s.dev.memRead P s.dev.accessAddr).1.bumpOffset,
      (s.dev.memRead P s.dev.accessAddr).2) := by
  rw [State.wireByte_eq_exchange, h]
  rfl

theorem State.wireByte_of_dataWr (P : Params) (F : Draws) {s : State} (h : s.dev.byteCase = .dataWr)
    (m : Byte) :
    s.wireByte P F m =
      (s.setDev (s.dev.memWrite P s.dev.accessAddr m).bumpOffset, P.fillByte) := by
  rw [State.wireByte_eq_exchange, h]
  rfl

/-! ### An access of the host's (log 11) -/

/-- What an access answers: the byte of a read, nothing for a write. -/
def accessReply (m : Byte) : Dir → Reply
  | .read => .bytes [m]
  | .write => .silent

/-- A request of the host's that stands for an access decodes to a row with the meaning of that access
(R80, R83, R84). -/
theorem decode_of_access {r : Request} {dir : Dir} {a : BitVec 16} {v : Byte}
    (h : (∃ w, r = .acc w v ∧ dir = (if w.getLsbD 16 then .read else .write) ∧
        a = w.extractLsb' 0 16) ∨
      (r = .stsw v ∧ dir = .write ∧ a = 0x0018) ∨ (r = .accw v ∧ dir = .write ∧ a = 0x0000))
    (bc : ByteCase) :
    r.access = some (dir, a) ∧ ∃ i, decode bc r = .ok i ∧
      ∀ s, exec i s = exec (accessRow dir a.toNat v) s := by
  rcases h with ⟨w, rfl, rfl, rfl⟩ | ⟨rfl, rfl, rfl⟩ | ⟨rfl, rfl, rfl⟩
  · exact ⟨rfl, _, rfl, fun _ => rfl⟩
  · exact ⟨rfl, _, rfl, exec_decodeStsw v⟩
  · exact ⟨rfl, _, rfl, exec_decodeAccw v⟩

/-- The row's access in the open data phase, closed, is the data byte's exchange and CS_END, with the
access's own answer (R103, R104). -/
theorem exec_accessRow_openAccess (F : Draws) (s : State) (dir : Dir) (a : BitVec 16) (v : Byte) :
    ∃ u, exec (accessRow dir a.toNat v) (s.openAccess Config.hw F dir a) = .next u ∧
      u.closeAccess =
        (((s.openAccess Config.hw F dir a).wireByte Config.hw F v).1.wireEnd).setReply
          (accessReply ((s.openAccess Config.hw F dir a).wireByte Config.hw F v).2 dir) := by
  rw [State.openAccess_eq]
  cases dir
  case read =>
    refine ⟨_, exec_accessRow_read .., ?_⟩
    rw [State.wireByte_of_dataRd _ _ (Device.byteCase_eq_dataRd rfl rfl Nat.one_pos rfl)]
    rfl
  case write =>
    refine ⟨_, exec_accessRow_write .., ?_⟩
    rw [State.wireByte_of_dataWr _ _ (Device.byteCase_eq_dataWr rfl rfl Nat.one_pos rfl)]
    rfl

/-- A step whose next operation stands for an access opens the data phase, runs the row and closes the
transaction. -/
theorem step_of_access {s u : State} {r : Request} {rest : List Request} {i : Instr} {dir : Dir}
    {a : BitVec 16} (hcall : s.eng.call = none) (hhost : s.host = r :: rest)
    (hd : decode s.dev.byteCase r = .ok i) (ha : r.access = some (dir, a))
    (hx : exec i ((s.setHost rest).openAccess Config.hw Config.draws dir a) = .next u) :
    step s = .next u.closeAccess := by
  simp only [step, hcall, State.fetch, hhost, State.setHost_dev, hd, State.inDataPhase, ha, hx]

/-- Settles O60: outside the data phase by the cases of a BYTE event; an access of the host's by its row,
which its data byte exchanges (R50). -/
theorem onlyTheDataPhaseReachesTheRegisters : Obligations.OnlyTheDataPhaseReachesTheRegisters := by
  refine ⟨fun s i h => ?_, fun s r rest dir a v hcall hhost h => ?_⟩
  · rcases h with rfl | rfl | ⟨m, rfl, hr, hw⟩
    · exact ⟨_, rfl, rfl, rfl⟩
    · exact ⟨_, rfl, rfl, rfl⟩
    · rw [exec_decodeByte]
      exact s.byteEvent_keepsRegisters _ _ m hr hw
  · obtain ⟨ha, i, hd, hi⟩ := decode_of_access h s.dev.byteCase
    obtain ⟨u, hx, hu⟩ := exec_accessRow_openAccess Config.draws (s.setHost rest) dir a v
    refine ⟨_, _, _, _, _, _, rfl, ?_⟩
    rw [step_of_access hcall hhost hd ha ((hi _).trans hx), hu]
    rfl

end Sys2Proof.Machine
end

section
/-! Register reads: the bytes that the constant and the status registers answer (R53, R119 to R127), which
reads change the device (R58), and addresses above the window (R51). -/

namespace Sys2Proof.Machine

/-! ### The bytes of a 32-bit register -/

/-- Byte k of a register, least significant first (R53). -/
theorem leByte_eq_ofNat (w : Word32) (k : BitVec 2) :
    leByte w k = BitVec.ofNat 8 (w.toNat / 256 ^ k.toNat) := by
  apply BitVec.eq_of_toNat_eq
  rw [leByte, BitVec.extractLsb'_toNat, BitVec.toNat_ofNat, Nat.shiftRight_eq_div_pow, Nat.pow_mul]

/-- Settles O23: each of these rows leaves the device and answers its byte; the 32-bit parameters are read
least significant byte first (R53). -/
theorem fixedRegistersReadTheirByte : Obligations.FixedRegistersReadTheirByte := by
  intro s k
  rw [← leByte_eq_ofNat, ← leByte_eq_ofNat]
  exact ⟨rfl, rfl, rfl, rfl, rfl⟩

/-! ### The status register -/

/-- Bits 23:16 read 0 (R120). -/
@[simp] theorem Device.stsRead_two (d : Device) : d.stsRead 2 = 0 :=
  (extract_append_high _ d.statusFlags 8 8).trans (extract_append_high (0 : BitVec 16) d.burst 0 8)

/-- Bits 31:24 read 0 (R120). -/
@[simp] theorem Device.stsRead_three (d : Device) : d.stsRead 3 = 0 :=
  (extract_append_high _ d.statusFlags 16 8).trans (extract_append_high (0 : BitVec 16) d.burst 8 8)

/-- R120: the flags' bits do not overlap, so the byte is their sum. -/
theorem Device.statusFlags_eq_sum (d : Device) :
    d.statusFlags = BitVec.ofNat 8 (128 + (if d.cmdReady then 64 else 0) +
      (if d.dataAvail then 16 else 0) + (if d.dataExpect then 8 else 0)) := by
  unfold Device.statusFlags
  cases d.cmdReady <;> cases d.dataAvail <;> cases d.dataExpect <;> rfl

/-- Settles O24: RD_STS answers its byte of the packed word, whose fields are R120's. -/
theorem statusBytesAreLive : Obligations.StatusBytesAreLive := by
  intro s
  refine ⟨?flags, ?burst, ?byte2, ?byte3⟩
  case flags => rw [exec_rdSts, Device.stsRead_zero, Device.statusFlags_eq_sum]
  case burst => rw [exec_rdSts, Device.stsRead_one]
  case byte2 => rw [exec_rdSts, Device.stsRead_two]
  case byte3 => rw [exec_rdSts, Device.stsRead_three]

/-! ### The FIFO window and the rest of the map -/

/-- The FIFO endpoint is the window 0x0024 to 0x0EFF (R115). -/
theorem decodeAddr_eq_fifo_iff (a : Nat) : decodeAddr a = .fifo ↔ 0x0024 ≤ a ∧ a ≤ 0x0EFF := by
  unfold decodeAddr
  split_ifs <;> simp <;> omega

/-- R51, R116: no address from 0x1000 up has a register. -/
theorem decodeAddr_of_above {a : Nat} (h : 0x1000 ≤ a) : decodeAddr a = .unmapped := by
  unfold decodeAddr
  split_ifs <;> first | rfl | omega

/-- R117: outside the FIFO endpoint MemRead leaves the device. -/
theorem Device.memRead_of_not_fifo (P : Params) (d : Device) {a : Nat} (h : decodeAddr a ≠ .fifo) :
    d.memRead P a = (d, (d.memRead P a).2) := by
  unfold Device.memRead
  cases hr : decodeAddr a <;> first | rfl | exact absurd hr h

/-- R117: in the FIFO endpoint MemRead is FifoRead. -/
theorem Device.memRead_of_fifo (P : Params) (d : Device) {a : Nat} (h : decodeAddr a = .fifo) :
    d.memRead P a = d.fifoRead := by
  simp [Device.memRead, h]

/-- R131. -/
theorem Device.memRead_of_unmapped (P : Params) (d : Device) {a : Nat}
    (h : decodeAddr a = .unmapped) : d.memRead P a = (d, sentinel) := by
  simp [Device.memRead, h]

/-- R132. -/
theorem Device.memWrite_of_unmapped (P : Params) (d : Device) {a : Nat} (v : Byte)
    (h : decodeAddr a = .unmapped) : d.memWrite P a v = d := by
  simp [Device.memWrite, h]

/-- R154, R155: a FIFO read of a response byte moves the cursor or leaves Completion. -/
theorem Device.fifoRead_ne {d : Device} (hs : d.state = .completion)
    (hl : d.rspCursor < d.rsp.length) : d.fifoRead.1 ≠ d := by
  intro same
  rcases d.fifoRead_cases with ⟨-, -, e⟩ | ⟨-, -, e⟩ | ⟨hn, -⟩
  · have := congrArg Device.rspCursor same
    simp [e] at this
  · have := congrArg Device.state same
    simp [e, hs] at this
  · exact absurd hn (by simp [hs]; omega)

/-- R154: with no response byte left a FIFO read answers the sentinel and does nothing. -/
theorem Device.fifoRead_of_empty {d : Device}
    (h : d.state ≠ .completion ∨ d.rsp.length ≤ d.rspCursor) : d.fifoRead = (d, sentinel) := by
  rcases d.fifoRead_cases with ⟨hs, hl, -⟩ | ⟨hs, hl, -⟩ | ⟨-, e⟩
  · exact absurd h (by simp [hs]; omega)
  · exact absurd h (by simp [hs]; omega)
  · exact e

/-- Settles O27: a read row is MemRead, which leaves the device outside the FIFO window and is FifoRead
in it (R58, R117). -/
theorem onlyFifoReadsChangeState : Obligations.OnlyFifoReadsChangeState := by
  intro s a v
  simp only [exec_accessRow_read]
  refine ⟨fun h => ?_, fun lo hi hs hl => ?_, fun lo hi h => ?_⟩
  · have hf : decodeAddr a ≠ .fifo := by
      rw [Ne, decodeAddr_eq_fifo_iff]
      omega
    refine ⟨(s.dev.memRead Config.hw a).2, ?_, fun r => ?_⟩
    all_goals
      rw [Device.memRead_of_not_fifo _ _ hf]
      rfl
  · have hf : decodeAddr a = .fifo := (decodeAddr_eq_fifo_iff a).2 ⟨lo, hi⟩
    refine ⟨_, rfl, ?_⟩
    rw [Device.memRead_of_fifo _ _ hf]
    exact Device.fifoRead_ne hs hl
  · have hf : decodeAddr a = .fifo := (decodeAddr_eq_fifo_iff a).2 ⟨lo, hi⟩
    rw [Device.memRead_of_fifo _ _ hf, Device.fifoRead_of_empty h]
    rfl

/-- Settles O34: the data byte is one access at the natural sum, which no register has (R116). -/
theorem addressesAboveTheWindowAreUnknown : Obligations.AddressesAboveTheWindowAreUnknown := by
  intro s m hsel hcnt hoff habove
  have hnone : decodeAddr s.dev.accessAddr = .unmapped := decodeAddr_of_above habove
  refine ⟨fun hdir => ?_, fun hdir => ?_⟩
  · refine (exec_decodeByte .dataRd m s).trans ?_
    rw [State.byteEvent_eq_wireByte,
      State.wireByte_of_dataRd _ _ (Device.byteCase_eq_dataRd hsel hcnt hoff hdir),
      Device.memRead_of_unmapped _ _ hnone]
    rfl
  · refine (exec_decodeByte .dataWr m s).trans ?_
    rw [State.byteEvent_eq_wireByte,
      State.wireByte_of_dataWr _ _ (Device.byteCase_eq_dataWr hsel hcnt hoff hdir),
      Device.memWrite_of_unmapped _ _ _ hnone]
    rfl

end Sys2Proof.Machine
end

section
/-! The words of the formats (R71, R80, R83 to R86): each word is the word of its own fields, and decoding
reads the fields back. -/

namespace Sys2Proof

/-! ### Bits and fields -/

/-- A field of one bit is that bit. -/
theorem extract_bit {n : Nat} (x : BitVec n) (k : Nat) :
    x.extractLsb' k 1 = BitVec.ofBool (x.getLsbD k) := by
  ext i hi
  obtain rfl : i = 0 := by omega
  simp

/-- The lowest bit of a word whose low part is one bit. -/
theorem getLsbD_append_ofBool {n : Nat} (x : BitVec n) (b : Bool) :
    (x ++ BitVec.ofBool b).getLsbD 0 = b := by
  rw [BitVec.getLsbD_append]
  simp

/-- The direction of a direction bit, 1 for a read (R72, R80). -/
def Dir.ofBit (b : Bool) : Dir := if b then .read else .write

/-- The direction bit. -/
def Dir.bit : Dir → BitVec 1
  | .read => 1#1
  | .write => 0#1

theorem Dir.ofBit_beq_read (dir : Dir) : Dir.ofBit (dir == .read) = dir := by
  cases dir <;> rfl

theorem Dir.bit_ofBit (b : Bool) : (Dir.ofBit b).bit = BitVec.ofBool b := by
  cases b <;> rfl

/-! ### HDR (R71) -/

/-- The row of a header word. -/
def hdrRow (dir : Dir) (rsv : BitVec 1) (lenm1 : BitVec 6) (marker : Byte) (addr : BitVec 16) :
    Instr :=
  match dir with
  | .read => .hdrRead rsv lenm1 marker addr
  | .write => .hdrWrite rsv lenm1 marker addr

theorem encode_hdrRow (dir : Dir) (rsv : BitVec 1) (lenm1 : BitVec 6) (marker : Byte)
    (addr : BitVec 16) :
    encode (hdrRow dir rsv lenm1 marker addr) = .hdr (hdrWord dir rsv lenm1 marker addr) := by
  cases dir <;> rfl

theorem hdrRow_wellFormed (dir : Dir) (rsv : BitVec 1) (lenm1 : BitVec 6) (marker : Byte)
    (addr : BitVec 16) : (hdrRow dir rsv lenm1 marker addr).wellFormed = true := by
  cases dir <;> rfl

theorem decodeHdr_eq_hdrRow (w : BitVec 32) :
    decodeHdr w = hdrRow (.ofBit (w.getLsbD 31)) (w.extractLsb' 30 1) (w.extractLsb' 24 6)
      (w.extractLsb' 16 8) (w.extractLsb' 0 16) := by
  unfold decodeHdr
  cases w.getLsbD 31 <;> rfl

theorem decodeHdr_hdrWord (dir : Dir) (rsv : BitVec 1) (lenm1 : BitVec 6) (marker : Byte)
    (addr : BitVec 16) :
    decodeHdr (hdrWord dir rsv lenm1 marker addr) = hdrRow dir rsv lenm1 marker addr := by
  rw [decodeHdr_eq_hdrRow, hdrWord_dir, hdrWord_rsv, hdrWord_lenm1, hdrWord_marker, hdrWord_addr,
    Dir.ofBit_beq_read]

theorem hdrWord_eq (dir : Dir) (rsv : BitVec 1) (lenm1 : BitVec 6) (marker : Byte)
    (addr : BitVec 16) :
    hdrWord dir rsv lenm1 marker addr = dir.bit ++ rsv ++ lenm1 ++ marker ++ addr := by
  cases dir <;> rfl

/-- A 32-bit word is the header word of its fields. -/
theorem hdrWord_of_fields (w : BitVec 32) :
    hdrWord (.ofBit (w.getLsbD 31)) (w.extractLsb' 30 1) (w.extractLsb' 24 6)
      (w.extractLsb' 16 8) (w.extractLsb' 0 16) = w := by
  have htop := extract_append_extract w 30 1 1
  have hbyte0 := extract_append_extract w 24 6 2
  have hhalf := extract_append_extract w 16 8 8
  have hall := extract_append_extract w 0 16 16
  rw [hdrWord_eq, Dir.bit_ofBit, ← extract_bit, htop, hbyte0, hhalf, hall, extract_whole]

/-! ### ACC (R80) -/

theorem decodeAcc_accWord (dir : Dir) {a : Nat} (ha : a < 0x10000) (v : Byte) :
    decodeAcc (accWord dir a) v = accessRow dir a v := by
  have hdir : (if (dir == .read) = true then Dir.read else Dir.write) = dir :=
    Dir.ofBit_beq_read dir
  rw [decodeAcc, accWord_dir, accWord_addr, hdir, BitVec.toNat_ofNat, Nat.mod_eq_of_lt ha]

theorem accWord_eq (dir : Dir) (a : Nat) : accWord dir a = dir.bit ++ BitVec.ofNat 16 a := by
  cases dir <;> rfl

/-- A 17-bit word is the access word of its fields. -/
theorem accWord_of_fields (w : BitVec 17) :
    accWord (.ofBit (w.getLsbD 16)) (w.extractLsb' 0 16).toNat = w := by
  have hall := extract_append_extract w 0 16 1
  rw [accWord_eq, Dir.bit_ofBit, ← extract_bit, BitVec.ofNat_toNat, BitVec.setWidth_eq, hall,
    extract_whole]

/-! ### STSW (R83) -/

/-- The row of a status value, by its two requests. -/
def stswRow (b7 : BitVec 1) (abort go : Bool) (lo : BitVec 5) : Instr :=
  match abort, go with
  | true, false => .stsAbort b7 lo
  | false, true => .stsGo b7 lo
  | true, true => .stsAbortGo b7 lo
  | false, false => .stsNop b7 lo

theorem encode_stswRow (b7 : BitVec 1) (abort go : Bool) (lo : BitVec 5) :
    encode (stswRow b7 abort go lo) = .stsw (stswWord b7 (.ofBool abort) (.ofBool go) lo) := by
  cases abort <;> cases go <;> rfl

theorem stswRow_wellFormed (b7 : BitVec 1) (abort go : Bool) (lo : BitVec 5) :
    (stswRow b7 abort go lo).wellFormed = true := by
  cases abort <;> cases go <;> rfl

theorem decodeStsw_eq_stswRow (v : BitVec 8) :
    decodeStsw v = stswRow (v.extractLsb' 7 1) (v.getLsbD 6) (v.getLsbD 5) (v.extractLsb' 0 5) := by
  unfold decodeStsw
  cases v.getLsbD 6 <;> cases v.getLsbD 5 <;> rfl

theorem decodeStsw_stswWord (b7 : BitVec 1) (abort go : Bool) (lo : BitVec 5) :
    decodeStsw (stswWord b7 (.ofBool abort) (.ofBool go) lo) = stswRow b7 abort go lo := by
  have hb7 : (stswWord b7 (.ofBool abort) (.ofBool go) lo).extractLsb' 7 1 = b7 :=
    (extract_append_high _ lo 2 1).trans <| (extract_append_high _ (.ofBool go) 1 1).trans <|
      (extract_append_high _ (.ofBool abort) 0 1).trans (extract_whole b7)
  have habort : (stswWord b7 (.ofBool abort) (.ofBool go) lo).getLsbD 6 = abort :=
    (getLsbD_append_high _ lo 1).trans <| (getLsbD_append_high _ (.ofBool go) 0).trans <|
      getLsbD_append_ofBool b7 abort
  have hgo : (stswWord b7 (.ofBool abort) (.ofBool go) lo).getLsbD 5 = go :=
    (getLsbD_append_high _ lo 0).trans (getLsbD_append_ofBool _ go)
  have hlo : (stswWord b7 (.ofBool abort) (.ofBool go) lo).extractLsb' 0 5 = lo :=
    (extract_append_low _ lo 0 5 (by omega)).trans (extract_whole lo)
  rw [decodeStsw_eq_stswRow, hb7, habort, hgo, hlo]

/-- An 8-bit value is the status value of its fields. -/
theorem stswWord_of_fields (v : BitVec 8) :
    stswWord (v.extractLsb' 7 1) (.ofBool (v.getLsbD 6)) (.ofBool (v.getLsbD 5))
      (v.extractLsb' 0 5) = v := by
  have htop := extract_append_extract v 6 1 1
  have hhigh := extract_append_extract v 5 1 2
  have hall := extract_append_extract v 0 5 3
  unfold stswWord
  rw [← extract_bit, ← extract_bit, htop, hhigh, hall, extract_whole]

/-! ### ACCW (R84) -/

/-- The row of an access value, by its request. -/
def accwRow (hi : BitVec 6) (requestUse : Bool) (b0 : BitVec 1) : Instr :=
  if requestUse then .accRequestUse hi b0 else .accNop hi b0

theorem encode_accwRow (hi : BitVec 6) (requestUse : Bool) (b0 : BitVec 1) :
    encode (accwRow hi requestUse b0) = .accw (accwWord hi (.ofBool requestUse) b0) := by
  cases requestUse <;> rfl

theorem accwRow_wellFormed (hi : BitVec 6) (requestUse : Bool) (b0 : BitVec 1) :
    (accwRow hi requestUse b0).wellFormed = true := by
  cases requestUse <;> rfl

theorem decodeAccw_eq_accwRow (v : BitVec 8) :
    decodeAccw v = accwRow (v.extractLsb' 2 6) (v.getLsbD 1) (v.extractLsb' 0 1) := rfl

theorem decodeAccw_accwWord (hi : BitVec 6) (requestUse : Bool) (b0 : BitVec 1) :
    decodeAccw (accwWord hi (.ofBool requestUse) b0) = accwRow hi requestUse b0 := by
  have hhi : (accwWord hi (.ofBool requestUse) b0).extractLsb' 2 6 = hi :=
    (extract_append_high _ b0 1 6).trans <|
      (extract_append_high _ (.ofBool requestUse) 0 6).trans (extract_whole hi)
  have huse : (accwWord hi (.ofBool requestUse) b0).getLsbD 1 = requestUse :=
    (getLsbD_append_high _ b0 0).trans (getLsbD_append_ofBool hi requestUse)
  have hb0 : (accwWord hi (.ofBool requestUse) b0).extractLsb' 0 1 = b0 :=
    (extract_append_low _ b0 0 1 (by omega)).trans (extract_whole b0)
  rw [decodeAccw_eq_accwRow, hhi, huse, hb0]

/-- An 8-bit value is the access value of its fields. -/
theorem accwWord_of_fields (v : BitVec 8) :
    accwWord (v.extractLsb' 2 6) (.ofBool (v.getLsbD 1)) (v.extractLsb' 0 1) = v := by
  have hhigh := extract_append_extract v 1 1 6
  have hall := extract_append_extract v 0 1 7
  unfold accwWord
  rw [← extract_bit, hhigh, hall, extract_whole]

/-! ### XFER (R85) -/

/-- A 2-bit field has four values. -/
theorem twoBits_cases (w : BitVec 2) : w = 0 ∨ w = 1 ∨ w = 2 ∨ w = 3 := by
  revert w
  decide

/-- The four words of a call are its rows' words. -/
theorem encode_decodeXfer (w : BitVec 2) (n : Nat) (out inBuf : List Byte) :
    encode (decodeXfer w n out inBuf) = .xfer w n out inBuf := by
  rcases twoBits_cases w with rfl | rfl | rfl | rfl <;> rfl

/-! ### WIRE and HOST (R86) -/

theorem encode_decodeByte (bc : ByteCase) (m : Byte) :
    encode (decodeByte bc m) = .wire (wireWord 1 m) := by
  cases bc <;> rfl

theorem decodeByte_fitsCase (bc : ByteCase) (m : Byte) : (decodeByte bc m).fitsCase bc = true := by
  cases bc <;> rfl

theorem decodeByte_wellFormed (bc : ByteCase) (m : Byte) : (decodeByte bc m).wellFormed = true := by
  cases bc <;> rfl

theorem decodeWire_begin (bc : ByteCase) (m : Byte) :
    decodeWire bc (wireWord 0 m) = if m = 0 then .ok .wireBegin else .error .beginWithMosi := by
  rw [decodeWire, wireWord_kind1, wireWord_kind0, wireWord_mosi]
  simp

theorem decodeWire_byte (bc : ByteCase) (m : Byte) :
    decodeWire bc (wireWord 1 m) = .ok (decodeByte bc m) := by
  rw [decodeWire, wireWord_kind1, wireWord_kind0, wireWord_mosi]
  simp

theorem decodeWire_end (bc : ByteCase) (m : Byte) :
    decodeWire bc (wireWord 2 m) = if m = 0 then .ok .wireEnd else .error .endWithMosi := by
  rw [decodeWire, wireWord_kind1, wireWord_kind0, wireWord_mosi]
  simp

theorem decodeWire_init (bc : ByteCase) (m : Byte) :
    decodeWire bc (wireWord 3 m) = if m = 0 then .ok .init else .error .initWithMosi := by
  rw [decodeWire, wireWord_kind1, wireWord_kind0, wireWord_mosi]
  simp

/-- A 10-bit word is the event word of its fields. -/
theorem wireWord_of_fields (w : BitVec 10) :
    wireWord (w.extractLsb' 8 2) (w.extractLsb' 0 8) = w := by
  have hall := extract_append_extract w 0 8 2
  unfold wireWord
  rw [hall, extract_whole]

/-- An event word that decodes is a BYTE word, or one of the other three events with no MOSI byte. -/
theorem decodeWire_cases {bc : ByteCase} {w : BitVec 10} {i : Instr}
    (h : decodeWire bc w = .ok i) :
    (∃ m, w = wireWord 1 m ∧ i = decodeByte bc m) ∨ (w = wireWord 0 0 ∧ i = .wireBegin) ∨
      (w = wireWord 2 0 ∧ i = .wireEnd) ∨ (w = wireWord 3 0 ∧ i = .init) := by
  obtain ⟨kind, m, rfl⟩ : ∃ kind m, w = wireWord kind m := ⟨_, _, (wireWord_of_fields w).symm⟩
  rcases twoBits_cases kind with rfl | rfl | rfl | rfl
  · rw [decodeWire_begin, ite_eq_iff] at h
    simp at h
    simp [h]
  · rw [decodeWire_byte] at h
    exact .inl ⟨m, rfl, (Except.ok.inj h).symm⟩
  · rw [decodeWire_end, ite_eq_iff] at h
    simp at h
    simp [h]
  · rw [decodeWire_init, ite_eq_iff] at h
    simp at h
    simp [h]

end Sys2Proof
end

section
/-! The rows of an access (R80, R81, R115): the addresses of each region, and the word of an access as the
word of its row. -/

namespace Sys2Proof.Machine

/-! ### The addresses of a region -/

/-- The addresses of R115's row for a region. -/
def Region.Covers (a : Nat) : Region → Prop
  | .access => a = 0x0000
  | .inten => 0x0008 ≤ a ∧ a ≤ 0x000B
  | .caps k => a = 0x0014 + k.toNat
  | .sts k => a = 0x0018 + k.toNat
  | .fifo => 0x0024 ≤ a ∧ a ≤ 0x0EFF
  | .didvid k => a = 0x0F00 + k.toNat
  | .rid => a = 0x0F04
  | .unmapped =>
    a ≠ 0x0000 ∧ a / 4 ≠ 0x0008 / 4 ∧ a / 4 ≠ 0x0014 / 4 ∧ a / 4 ≠ 0x0018 / 4 ∧
      ¬ (0x0024 ≤ a ∧ a ≤ 0x0EFF) ∧ a / 4 ≠ 0x0F00 / 4 ∧ a ≠ 0x0F04

/-- A byte of a register is its base and the byte's index. -/
theorem eq_base_add_index {a base : Nat} (lo : base ≤ a) (hi : a ≤ base + 3) :
    a = base + (BitVec.ofNat 2 (a - base)).toNat := by
  rw [BitVec.toNat_ofNat]
  omega

/-- R115: every address lies in its region. -/
theorem covers_decodeAddr (a : Nat) : (decodeAddr a).Covers a := by
  unfold decodeAddr
  split_ifs with access inten caps sts fifo didvid rid
  case pos => exact access
  case pos => exact inten
  case pos => exact eq_base_add_index caps.1 caps.2
  case pos => exact eq_base_add_index sts.1 sts.2
  case pos => exact fifo
  case pos => exact eq_base_add_index didvid.1 didvid.2
  case pos => exact rid
  case neg =>
    simp only [Region.Covers, div_four_eq_iff, ne_eq]
    exact ⟨access, inten, caps, sts, fifo, didvid, rid⟩

/-- R115: the regions do not overlap. -/
theorem Region.Covers.unique {a : Nat} {r q : Region} (hr : r.Covers a) (hq : q.Covers a) :
    r = q := by
  cases r <;> cases q <;> simp only [Region.Covers] at hr hq
  case caps.caps k l => rw [BitVec.eq_of_toNat_eq (by omega : k.toNat = l.toNat)]
  case sts.sts k l => rw [BitVec.eq_of_toNat_eq (by omega : k.toNat = l.toNat)]
  case didvid.didvid k l => rw [BitVec.eq_of_toNat_eq (by omega : k.toNat = l.toNat)]
  case access.access | inten.inten | fifo.fifo | rid.rid | unmapped.unmapped => rfl
  all_goals omega

theorem decodeAddr_of_covers {a : Nat} {r : Region} (h : r.Covers a) : decodeAddr a = r :=
  (covers_decodeAddr a).unique h

theorem readRow_of_covers {a : Nat} {r : Region} (h : r.Covers a) : readRow a = r.readRow a := by
  rw [readRow_eq, decodeAddr_of_covers h]

theorem writeRow_of_covers {a : Nat} {r : Region} (h : r.Covers a) (v : Byte) :
    writeRow a v = r.writeRow a v := by
  rw [writeRow_eq, decodeAddr_of_covers h]

theorem covers_inten (k : BitVec 2) : Region.inten.Covers (0x0008 + k.toNat) := by
  simp only [Region.Covers]
  omega

/-- The index that the rows of the interrupt-enable register carry is the byte's. -/
theorem low2_inten (k : BitVec 2) : low2 (0x0008 + k.toNat) = k := by
  apply BitVec.eq_of_toNat_eq
  simp only [low2, BitVec.toNat_ofNat]
  omega

theorem eq_inten_add_low2 {a : Nat} (h : Region.inten.Covers a) :
    a = 0x0008 + (low2 a).toNat := by
  rw [low2_eq_ofNat_sub 2 h.1]
  exact eq_base_add_index h.1 h.2

/-! ### Well-formed rows -/

theorem fifoAddr_iff (a : Nat) : fifoAddr a = true ↔ Region.fifo.Covers a :=
  decide_eq_true_iff

theorem unknownAddr_iff (a : Nat) :
    unknownAddr a = true ↔ a < 0x10000 ∧ Region.unmapped.Covers a := by
  simp only [unknownAddr, Region.Covers, fifoAddr, Bool.and_eq_true, Bool.not_eq_true',
    decide_eq_true_eq, decide_eq_false_iff_not, and_assoc]

/-- The row of a 16-bit address is well formed. -/
theorem accessRow_wellFormed (dir : Dir) {a : Nat} (ha : a < 0x10000) (v : Byte) :
    (accessRow dir a v).wellFormed = true := by
  have hc := covers_decodeAddr a
  cases dir
  case read =>
    rw [accessRow, readRow_eq]
    cases hr : decodeAddr a <;> rw [hr] at hc
    case fifo => exact (fifoAddr_iff a).2 hc
    case unmapped => exact (unknownAddr_iff a).2 ⟨ha, hc⟩
    all_goals rfl
  case write =>
    rw [accessRow, writeRow_eq]
    cases hr : decodeAddr a <;> rw [hr] at hc
    case fifo => exact (fifoAddr_iff a).2 hc
    case unmapped => exact (unknownAddr_iff a).2 ⟨ha, hc⟩
    case sts k =>
      by_cases hk : k = 0
      · rw [Region.writeRow, if_pos hk]
        rfl
      · rw [Region.writeRow, if_neg hk]
        exact decide_eq_true hk
    all_goals rfl

/-- A row of a sum above 0xFFFF has no word. -/
theorem lt_of_accessRow_wellFormed {dir : Dir} {a : Nat} {v : Byte}
    (h : (accessRow dir a v).wellFormed = true) : a < 0x10000 := by
  by_contra hlt
  have hnone : decodeAddr a = .unmapped := decodeAddr_of_above (by omega)
  have hu : unknownAddr a = true := by
    cases dir
    · rwa [accessRow, readRow_eq, hnone] at h
    · rwa [accessRow, writeRow_eq, hnone] at h
  exact hlt ((unknownAddr_iff a).1 hu).1

/-! ### The word of a row -/

theorem encode_readRow (a : Nat) : encode (readRow a) = .acc (accWord .read a) 0 := by
  have hc := covers_decodeAddr a
  rw [readRow_eq]
  cases hr : decodeAddr a <;> rw [hr] at hc
  case inten =>
    rw [eq_inten_add_low2 hc]
    exact congrArg (fun k => encode (.rdInten k)) (low2_inten _)
  case fifo => rfl
  case unmapped => rfl
  all_goals
    subst hc
    rfl

theorem encode_writeRow (a : Nat) (v : Byte) :
    encode (writeRow a v) = .acc (accWord .write a) v := by
  have hc := covers_decodeAddr a
  rw [writeRow_eq]
  cases hr : decodeAddr a <;> rw [hr] at hc
  case inten =>
    rw [eq_inten_add_low2 hc]
    exact congrArg (fun k => encode (.wrInten k v)) (low2_inten _)
  case fifo => rfl
  case unmapped => rfl
  case sts k =>
    subst hc
    by_cases hk : k = 0
    · subst hk
      rfl
    · rw [Region.writeRow, if_neg hk]
      rfl
  all_goals
    subst hc
    rfl

/-- R80: the word of an access's row is the access's word; only the data byte of a read is not kept. -/
theorem encode_accessRow (dir : Dir) (a : Nat) (v : Byte) :
    ∃ u, encode (accessRow dir a v) = .acc (accWord dir a) u ∧
      accessRow dir a u = accessRow dir a v := by
  cases dir
  · exact ⟨0, encode_readRow a, rfl⟩
  · exact ⟨v, encode_writeRow a v, rfl⟩

/-- R80, R81: the word of an access's well-formed row decodes to that row. -/
theorem decode_encode_accessRow (bc : ByteCase) (dir : Dir) (a : Nat) (v : Byte)
    (hwf : (accessRow dir a v).wellFormed = true) :
    decode bc (encode (accessRow dir a v)) = .ok (accessRow dir a v) := by
  obtain ⟨u, henc, hu⟩ := encode_accessRow dir a v
  rw [henc, decode, decodeAcc_accWord dir (lt_of_accessRow_wellFormed hwf), hu]

theorem decode_encode_readRow (bc : ByteCase) {a : Nat} {r : Region} (h : r.Covers a)
    (hwf : (r.readRow a).wellFormed = true) :
    decode bc (encode (r.readRow a)) = .ok (r.readRow a) := by
  rw [← readRow_of_covers h] at hwf ⊢
  exact decode_encode_accessRow bc .read a 0 hwf

theorem decode_encode_writeRow (bc : ByteCase) {a : Nat} {v : Byte} {r : Region} (h : r.Covers a)
    (hwf : (r.writeRow a v).wellFormed = true) :
    decode bc (encode (r.writeRow a v)) = .ok (r.writeRow a v) := by
  rw [← writeRow_of_covers h] at hwf ⊢
  exact decode_encode_accessRow bc .write a v hwf

end Sys2Proof.Machine
end

section
/-! Decoding and encoding are inverse (R70 to R86), and the device state selects the row of a BYTE word. -/

namespace Sys2Proof.Machine

/-! ### Decoding an encoded instruction -/

theorem decode_encode_hdrRow (bc : ByteCase) (dir : Dir) (rsv : BitVec 1) (lenm1 : BitVec 6)
    (marker : Byte) (addr : BitVec 16) :
    decode bc (encode (hdrRow dir rsv lenm1 marker addr)) =
      .ok (hdrRow dir rsv lenm1 marker addr) := by
  rw [encode_hdrRow, decode, decodeHdr_hdrWord]

theorem decode_encode_stswRow (bc : ByteCase) (b7 : BitVec 1) (abort go : Bool) (lo : BitVec 5) :
    decode bc (encode (stswRow b7 abort go lo)) = .ok (stswRow b7 abort go lo) := by
  rw [encode_stswRow, decode, decodeStsw_stswWord]

theorem decode_encode_accwRow (bc : ByteCase) (hi : BitVec 6) (requestUse : Bool)
    (b0 : BitVec 1) :
    decode bc (encode (accwRow hi requestUse b0)) = .ok (accwRow hi requestUse b0) := by
  rw [encode_accwRow, decode, decodeAccw_accwWord]

/-- R86: a BYTE row decodes to itself in the device state that it fits. -/
theorem decode_encode_byteRow {bc c : ByteCase} {m : Byte}
    (hfit : (decodeByte c m).fitsCase bc = true) :
    decode bc (encode (decodeByte c m)) = .ok (decodeByte c m) := by
  obtain rfl : bc = c := by cases c <;> exact of_decide_eq_true hfit
  rw [encode_decodeByte, decode, decodeWire_byte]

/-- Settles O1, by the row's format: an access's row through the region of its address (R81), the others
through the fields of their word. -/
theorem encodedInstructionDecodesToItself : Obligations.EncodedInstructionDecodesToItself := by
  intro bc i hwf hfit
  cases i
  case hdrWrite => exact decode_encode_hdrRow bc .write ..
  case hdrRead => exact decode_encode_hdrRow bc .read ..
  case rdAccess => exact decode_encode_readRow bc (r := .access) rfl hwf
  case rdInten k =>
    have hrow : Region.inten.readRow (0x0008 + k.toNat) = .rdInten k :=
      congrArg Instr.rdInten (low2_inten k)
    exact hrow ▸ decode_encode_readRow bc (covers_inten k) rfl
  case rdCaps k => exact decode_encode_readRow bc (r := .caps k) rfl hwf
  case rdSts k => exact decode_encode_readRow bc (r := .sts k) rfl hwf
  case rdFifo a => exact decode_encode_readRow bc (r := .fifo) ((fifoAddr_iff a).1 hwf) hwf
  case rdDidvid k => exact decode_encode_readRow bc (r := .didvid k) rfl hwf
  case rdRid => exact decode_encode_readRow bc (r := .rid) rfl hwf
  case rdUnknown a =>
    exact decode_encode_readRow bc (r := .unmapped) ((unknownAddr_iff a).1 hwf).2 hwf
  case wrAccess => exact decode_encode_writeRow bc (r := .access) rfl hwf
  case wrInten k v =>
    have hrow : Region.inten.writeRow (0x0008 + k.toNat) v = .wrInten k v :=
      congrArg (Instr.wrInten · v) (low2_inten k)
    exact hrow ▸ decode_encode_writeRow bc (covers_inten k) rfl
  case wrCaps k v => exact decode_encode_writeRow bc (r := .caps k) rfl hwf
  case wrSts0 => exact decode_encode_writeRow bc (r := .sts 0) rfl hwf
  case wrStsHi k v =>
    have hrow : (Region.sts k).writeRow (0x0018 + k.toNat) v = .wrStsHi k v :=
      if_neg (of_decide_eq_true hwf)
    exact hrow ▸ decode_encode_writeRow bc rfl (hrow ▸ hwf)
  case wrFifo a v => exact decode_encode_writeRow bc (r := .fifo) ((fifoAddr_iff a).1 hwf) hwf
  case wrDidvid k v => exact decode_encode_writeRow bc (r := .didvid k) rfl hwf
  case wrRid => exact decode_encode_writeRow bc (r := .rid) rfl hwf
  case wrUnknown a v =>
    exact decode_encode_writeRow bc (r := .unmapped) ((unknownAddr_iff a).1 hwf).2 hwf
  case stsAbort b7 lo => exact decode_encode_stswRow bc b7 true false lo
  case stsGo b7 lo => exact decode_encode_stswRow bc b7 false true lo
  case stsAbortGo b7 lo => exact decode_encode_stswRow bc b7 true true lo
  case stsNop b7 lo => exact decode_encode_stswRow bc b7 false false lo
  case accRequestUse hi b0 => exact decode_encode_accwRow bc hi true b0
  case accNop hi b0 => exact decode_encode_accwRow bc hi false b0
  case xferBE | xferB | xferC | xferE => rfl
  case wireBegin => exact decodeWire_begin bc 0
  case wireEnd => exact decodeWire_end bc 0
  case init => exact decodeWire_init bc 0
  case wireByteUnsel m => exact decode_encode_byteRow (c := .unsel) hfit
  case wireByteHdr m => exact decode_encode_byteRow (c := .hdr) hfit
  case wireByteDataRd m => exact decode_encode_byteRow (c := .dataRd) hfit
  case wireByteDataWr m => exact decode_encode_byteRow (c := .dataWr) hfit
  case wireBytePast m => exact decode_encode_byteRow (c := .past) hfit

/-! ### Encoding a decoded word -/

theorem encode_decodeHdr (w : BitVec 32) : encode (decodeHdr w) = .hdr w := by
  rw [decodeHdr_eq_hdrRow, encode_hdrRow, hdrWord_of_fields]

/-- Only the data byte of a read is not kept. -/
theorem encode_decodeAcc (w : BitVec 17) (v : Byte) : ∃ u, encode (decodeAcc w v) = .acc w u := by
  obtain ⟨u, henc, -⟩ := encode_accessRow (.ofBit (w.getLsbD 16)) (w.extractLsb' 0 16).toNat v
  exact ⟨u, by rwa [accWord_of_fields] at henc⟩

theorem encode_decodeStsw (w : BitVec 8) : encode (decodeStsw w) = .stsw w := by
  rw [decodeStsw_eq_stswRow, encode_stswRow, stswWord_of_fields]

theorem encode_decodeAccw (w : BitVec 8) : encode (decodeAccw w) = .accw w := by
  rw [decodeAccw_eq_accwRow, encode_accwRow, accwWord_of_fields]

theorem encode_decodeWire {bc : ByteCase} {w : BitVec 10} {i : Instr}
    (h : decodeWire bc w = .ok i) : encode i = .wire w := by
  rcases decodeWire_cases h with ⟨m, rfl, rfl⟩ | ⟨rfl, rfl⟩ | ⟨rfl, rfl⟩ | ⟨rfl, rfl⟩
  · exact encode_decodeByte bc m
  all_goals rfl

/-- No bit of a word is lost. -/
theorem encode_of_decode {bc : ByteCase} {r : Request} {i : Instr} (h : decode bc r = .ok i) :
    (encode i).width = r.width ∧ (encode i).bits = r.bits := by
  cases r
  case wire w =>
    rw [encode_decodeWire h]
    exact ⟨rfl, rfl⟩
  all_goals obtain rfl := Except.ok.inj h
  case hdr w =>
    rw [encode_decodeHdr]
    exact ⟨rfl, rfl⟩
  case acc w v =>
    obtain ⟨u, henc⟩ := encode_decodeAcc w v
    rw [henc]
    exact ⟨rfl, rfl⟩
  case stsw w =>
    rw [encode_decodeStsw]
    exact ⟨rfl, rfl⟩
  case accw w =>
    rw [encode_decodeAccw]
    exact ⟨rfl, rfl⟩
  case xfer w n out inBuf =>
    rw [encode_decodeXfer]
    exact ⟨rfl, rfl⟩

/-- R86: only an event word's row depends on the device state. -/
theorem fitsCase_of_width {i : Instr} (h : (encode i).width ≠ 10) (bc : ByteCase) :
    i.fitsCase bc = true := by
  cases i
  case wireByteUnsel | wireByteHdr | wireByteDataRd | wireByteDataWr | wireBytePast =>
    exact absurd rfl h
  all_goals rfl

theorem fitsCase_of_decode {bc : ByteCase} {r : Request} {i : Instr} (h : decode bc r = .ok i) :
    i.fitsCase bc = true := by
  cases r
  case wire w =>
    rcases decodeWire_cases h with ⟨m, -, rfl⟩ | ⟨-, rfl⟩ | ⟨-, rfl⟩ | ⟨-, rfl⟩
    · exact decodeByte_fitsCase bc m
    all_goals rfl
  all_goals exact fitsCase_of_width ((encode_of_decode h).1.trans_ne (by simp [Request.width])) bc

theorem wellFormed_of_decode {bc : ByteCase} {r : Request} {i : Instr} (h : decode bc r = .ok i)
    (hx : ∀ w n out inBuf, r ≠ .xfer w n out inBuf) : i.wellFormed = true := by
  cases r
  case xfer w n out inBuf => exact absurd rfl (hx w n out inBuf)
  case wire w =>
    rcases decodeWire_cases h with ⟨m, -, rfl⟩ | ⟨-, rfl⟩ | ⟨-, rfl⟩ | ⟨-, rfl⟩
    · exact decodeByte_wellFormed bc m
    all_goals rfl
  all_goals obtain rfl := Except.ok.inj h
  case hdr w => exact decodeHdr_eq_hdrRow w ▸ hdrRow_wellFormed ..
  case acc w v => exact accessRow_wellFormed _ (w.extractLsb' 0 16).isLt v
  case stsw w => exact decodeStsw_eq_stswRow w ▸ stswRow_wellFormed ..
  case accw w => exact accwRow_wellFormed ..

/-- Settles O2: each format's decoder reads all fields of its word, and the encoder puts them back. -/
theorem decodedWordEncodesToItself : Obligations.DecodedWordEncodesToItself := by
  intro bc r i h
  obtain ⟨hwidth, hbits⟩ := encode_of_decode h
  exact ⟨hwidth, hbits, fitsCase_of_decode h, wellFormed_of_decode h⟩

/-! ### The row of a BYTE word -/

/-- Settles O5: the word is of kind 1, whose row the device state selects (R86, R99, R100). -/
theorem deviceStateSelectsTheByteRow : Obligations.DeviceStateSelectsTheByteRow := by
  intro d m
  refine (decodeWire_byte d.byteCase m).trans (congrArg Except.ok ?_)
  unfold Device.byteCase
  split_ifs with hsel hcnt hoff
  · rfl
  · rfl
  · cases d.dir <;> rfl
  · rfl

/-! ### Words written out from their layouts -/

/-- Settles O4, by evaluation. -/
theorem writtenOutWordsDecode : Obligations.WrittenOutWordsDecode := by
  unfold Obligations.WrittenOutWordsDecode
  decide

end Sys2Proof.Machine
end

section
/-! Header decode (R78), and a header word sent at the start of a transaction (R101, R102). -/

namespace Sys2Proof.Machine

/-! ### The fields of a decoded header -/

/-- R74: the length field is the low six bits. -/
theorem and_lengthMask_toNat (h0 : Byte) : (h0 &&& 0x3F).toNat = h0.toNat % 64 :=
  (BitVec.toNat_and h0 0x3F).trans (Nat.and_two_pow_sub_one_eq_mod h0.toNat 6)

theorem be16_toNat (h2 h3 : Byte) : (be16 h2 h3).toNat = h2.toNat * 256 + h3.toNat := by
  rw [be16, BitVec.toNat_append, ← Nat.shiftLeft_add_eq_or_of_lt h3.isLt, Nat.shiftLeft_eq]

/-- R76: bit 6 of byte 0 is no length bit. -/
theorem xor_bit6_and_lengthMask (h0 : Byte) : (h0 ^^^ 0x40) &&& 0x3F = h0 &&& 0x3F := by
  ext i hi
  simp only [BitVec.getElem_and, BitVec.getElem_xor]
  interval_cases i <;> simp

/-- R73, R76: the marker and bit 6 of byte 0 are not used. -/
theorem decodeHeader_ignores (h0 h1 h2 h3 h1' : Byte) :
    decodeHeader (h0 ^^^ 0x40) h1' h2 h3 = decodeHeader h0 h1 h2 h3 := by
  have hdir : (h0 ^^^ 0x40).getLsbD 7 = h0.getLsbD 7 := by simp
  rw [decodeHeader, decodeHeader, hdir, xor_bit6_and_lengthMask]

/-- R78: a header is decoded from the value of its first byte and of its address bytes. -/
theorem decodeHeader_eq {h0 h2 h3 : Byte} {dir : Dir} {bit6 lenm1 : Nat} {addr : BitVec 16}
    (hbyte0 : h0.toNat = 128 * dir.bit.toNat + 64 * bit6 + lenm1) (hbit6 : bit6 < 2)
    (hlen : lenm1 < 64) (haddr : be16 h2 h3 = addr) (h1 : Byte) :
    decodeHeader h0 h1 h2 h3 = ⟨dir, lenm1 + 1, addr⟩ := by
  have hmod : (h0 &&& 0x3F).toNat = lenm1 := by
    rw [and_lengthMask_toNat]
    omega
  have hdir : (if h0.getLsbD 7 then Dir.read else Dir.write) = dir := by
    have hmsb : h0.getLsbD 7 = decide (128 ≤ h0.toNat) := h0.msb_eq_decide
    rw [hmsb, hbyte0]
    cases dir
    · exact if_pos (decide_eq_true (by simp [Dir.bit]; omega))
    · exact if_neg (by simp [Dir.bit]; omega)
  rw [decodeHeader, hmod, hdir, haddr]

/-- The two address bytes, most significant first (R71). -/
theorem be16_ofNat (addr : BitVec 16) :
    be16 (BitVec.ofNat 8 (addr.toNat / 256)) (BitVec.ofNat 8 (addr.toNat % 256)) = addr := by
  apply BitVec.eq_of_toNat_eq
  rw [be16_toNat]
  simp only [BitVec.toNat_ofNat]
  omega

/-- A value below 64 fills the low six bits of a byte and leaves the high two. -/
theorem or_low6_toNat {k n : Nat} (hk : k < 4) (hn : n < 64) :
    (BitVec.ofNat 8 (64 * k) ||| BitVec.ofNat 8 n).toNat = 64 * k + n := by
  rw [BitVec.toNat_or, BitVec.toNat_ofNat, BitVec.toNat_ofNat, Nat.mod_eq_of_lt (by omega),
    Nat.mod_eq_of_lt (by omega), Nat.mul_comm, ← Nat.shiftLeft_eq k 6,
    Nat.shiftLeft_add_eq_or_of_lt hn]

/-- The first byte of R78's encoder. -/
def headerByte0 (dir : Dir) (len : Nat) (bit6 : Bool) : Byte :=
  (match dir with | .read => 0x80 | .write => 0x00) ||| BitVec.ofNat 8 (len - 1) |||
    (if bit6 then 0x40 else 0x00)

theorem headerByte0_toNat (dir : Dir) {len : Nat} (bit6 : Bool) (hle : len ≤ 64) :
    (headerByte0 dir len bit6).toNat = 128 * dir.bit.toNat + 64 * bit6.toNat + (len - 1) := by
  have hn : len - 1 < 64 := by omega
  unfold headerByte0
  rw [BitVec.or_assoc, BitVec.or_comm (BitVec.ofNat 8 _), ← BitVec.or_assoc]
  cases dir <;> cases bit6
  · exact or_low6_toNat (k := 2) (by omega) hn
  · exact or_low6_toNat (k := 3) (by omega) hn
  · exact or_low6_toNat (k := 0) (by omega) hn
  · exact or_low6_toNat (k := 1) (by omega) hn

/-- Settles O3: the formula by its parts, and the round trip through the first byte's value (R78). -/
theorem headerDecodeRecoversItsFields : Obligations.HeaderDecodeRecoversItsFields := by
  refine ⟨fun h0 h1 h2 h3 h1' => ⟨rfl, ?len, be16_toNat h2 h3, decodeHeader_ignores ..⟩,
    fun dir len m addr bit6 hpos hle => ?roundTrip⟩
  case len => exact congrArg (· + 1) (and_lengthMask_toNat h0)
  case roundTrip =>
    have h := decodeHeader_eq (headerByte0_toNat dir bit6 hle) (Bool.toNat_lt bit6) (by omega)
      (be16_ofNat addr) m
    rwa [Nat.sub_add_cancel hpos] at h

/-! ### A header word at the start of a transaction -/

/-- R71: the value of a header word's first wire byte, the sum of its fields. -/
theorem hdrByte0_toNat (dir : Dir) (rsv : BitVec 1) (lenm1 : BitVec 6) :
    (dir.bit ++ rsv ++ lenm1).toNat = 128 * dir.bit.toNat + 64 * rsv.toNat + lenm1.toNat := by
  rw [BitVec.toNat_append, BitVec.toNat_append, ← Nat.shiftLeft_add_eq_or_of_lt rsv.isLt,
    ← Nat.shiftLeft_add_eq_or_of_lt lenm1.isLt, Nat.shiftLeft_eq, Nat.shiftLeft_eq]
  omega

/-- The wire bytes of a header word (R71). -/
theorem headerBytes_hdrWord (dir : Dir) (rsv : BitVec 1) (lenm1 : BitVec 6) (marker : Byte)
    (addr : BitVec 16) :
    headerBytes (hdrWord dir rsv lenm1 marker addr) =
      [dir.bit ++ rsv ++ lenm1, marker, addr.extractLsb' 8 8, addr.extractLsb' 0 8] := by
  rw [headerBytes, hdrWord_byte0, hdrWord_marker, hdrWord_addrHigh, hdrWord_addrLow]
  cases dir <;> rfl

/-- R78: the wire bytes of a header word decode to its fields. -/
theorem decodeHeader_headerBytes (dir : Dir) (rsv : BitVec 1) (lenm1 : BitVec 6) (marker : Byte)
    (addr : BitVec 16) :
    decodeHeader (dir.bit ++ rsv ++ lenm1) marker (addr.extractLsb' 8 8) (addr.extractLsb' 0 8) =
      ⟨dir, lenm1.toNat + 1, addr⟩ :=
  decodeHeader_eq (hdrByte0_toNat dir rsv lenm1) rsv.isLt lenm1.isLt
    ((extract_append_extract addr 0 8 8).trans (extract_whole addr)) marker

/-- The device with a header received and the data phase open (R101). -/
def Device.headerReceived (d : Device) (hdr : HdrBytes) (h : Header) : Device :=
  { d with hdr := hdr, hdrCnt := 4, dir := h.dir, len := h.len, addr := h.addr, offset := 0 }

/-- R100 to R102: four bytes from the start of a transaction are its header. -/
theorem State.wireBytes_header (P : Params) (F : Draws) {s : State} (hsel : s.dev.sel = true)
    (hcnt : s.dev.hdrCnt = 0) (b0 b1 b2 b3 : Byte) :
    s.wireBytes P F [b0, b1, b2, b3] =
      (s.setDev (s.dev.headerReceived ⟨b0, b1, b2, b3⟩ (decodeHeader b0 b1 b2 b3)),
        [P.fillByte, P.fillByte, P.fillByte, P.readyMarker]) := by
  simp [State.wireBytes_cons, State.wireByte, Device.byte, Device.headerByte, HdrBytes.set,
    Device.headerDecode, headerMiso, Device.headerReceived, State.setDev, hsel, hcnt]

/-- R71, R101, R102: a header word from the start of a transaction leaves its fields in the parser. -/
theorem State.wireBytes_hdrWord (P : Params) (F : Draws) {s : State} (hsel : s.dev.sel = true)
    (hcnt : s.dev.hdrCnt = 0) (dir : Dir) (rsv : BitVec 1) (lenm1 : BitVec 6) (marker : Byte)
    (addr : BitVec 16) :
    s.wireBytes P F (headerBytes (hdrWord dir rsv lenm1 marker addr)) =
      (s.setDev (s.dev.headerReceived
          ⟨dir.bit ++ rsv ++ lenm1, marker, addr.extractLsb' 8 8, addr.extractLsb' 0 8⟩
          ⟨dir, lenm1.toNat + 1, addr⟩),
        [P.fillByte, P.fillByte, P.fillByte, P.readyMarker]) := by
  rw [headerBytes_hdrWord, State.wireBytes_header P F hsel hcnt, decodeHeader_headerBytes]

/-- Settles O16: a HDR row sends its word's four bytes (log 10), which the device decodes (R101). -/
theorem headerWordOpensTheDataPhase : Obligations.HeaderWordOpensTheDataPhase := by
  intro s rsv lenm1 marker addr hsel hcnt
  exact ⟨congrArg State.answer (s.wireBytes_hdrWord _ _ hsel hcnt .read rsv lenm1 marker addr),
    congrArg State.answer (s.wireBytes_hdrWord _ _ hsel hcnt .write rsv lenm1 marker addr)⟩

end Sys2Proof.Machine
end

section
/-! A data byte is one access of the register file (R103, R104), and the rows of an access are its entry
points MemRead and MemWrite (R117, R118). -/

namespace Sys2Proof.Machine

/-! ### A data byte -/

/-- R100: after an access, which leaves the parser alone, the offset is the old one plus 1. -/
theorem Device.SameParser.bumpOffset_eq {d e : Device} (h : e.SameParser d) :
    e.bumpOffset = { e with offset := d.offset + 1 } := by
  obtain ⟨-, -, -, -, -, -, hoffset⟩ := h
  rw [Device.bumpOffset, hoffset]

/-- R103: a data byte of a read is MemRead at D.addr + D.offset. -/
theorem exec_wireByteDataRd {s : State} (h : s.dev.byteCase = .dataRd) (m : Byte) :
    exec (.wireByteDataRd m) s = s.readAnswer
      ((s.dev.memRead Config.hw s.dev.accessAddr).1.bumpOffset,
        (s.dev.memRead Config.hw s.dev.accessAddr).2) := by
  refine (exec_decodeByte .dataRd m s).trans ?_
  rw [State.byteEvent_eq_wireByte, State.wireByte_of_dataRd _ _ h]
  rfl

/-- R104: a data byte of a write is MemWrite at D.addr + D.offset, answered with FILL_BYTE. -/
theorem exec_wireByteDataWr {s : State} (h : s.dev.byteCase = .dataWr) (m : Byte) :
    exec (.wireByteDataWr m) s = s.readAnswer
      ((s.dev.memWrite Config.hw s.dev.accessAddr m).bumpOffset, Config.hw.fillByte) := by
  refine (exec_decodeByte .dataWr m s).trans ?_
  rw [State.byteEvent_eq_wireByte, State.wireByte_of_dataWr _ _ h]
  rfl

/-- Settles O19: the data byte and the table's row are the same MemRead (R103, R117). -/
theorem dataReadByteIsOneReadAccess : Obligations.DataReadByteIsOneReadAccess := by
  intro s m v hsel hcnt hoff hdir
  refine ⟨_, exec_accessRow_read s s.dev.accessAddr v, ?_⟩
  rw [exec_wireByteDataRd (Device.byteCase_eq_dataRd hsel hcnt hoff hdir),
    (Device.memRead_sameParser _ _ _).bumpOffset_eq]
  rfl

/-- Settles O20: the data byte and the table's row are the same MemWrite (R104, R118). -/
theorem dataWriteByteIsOneWriteAccess : Obligations.DataWriteByteIsOneWriteAccess := by
  intro s m hsel hcnt hoff hdir
  refine ⟨_, exec_accessRow_write s s.dev.accessAddr m, ?_⟩
  rw [exec_wireByteDataWr (Device.byteCase_eq_dataWr hsel hcnt hoff hdir),
    (Device.memWrite_sameParser _ _ _ _).bumpOffset_eq]
  rfl

/-! ### The rows of an access -/

/-- Settles O32: both sides are the write of the value to the register's address, 0x0018 or 0x0000. -/
theorem subDecodesAreTheirWrites : Obligations.SubDecodesAreTheirWrites :=
  fun s v => ⟨exec_decodeStsw v s, exec_decodeAccw v s⟩

/-- Settles O33, by the row of the address's region (R115). -/
theorem accessRowsAgreeWithTheRegisterMap : Obligations.AccessRowsAgreeWithTheRegisterMap :=
  fun s a v => ⟨exec_accessRow_read s a v, exec_accessRow_write s a v⟩

end Sys2Proof.Machine
end

section
/-! The framing parser (R97 to R106): CS_BEGIN and CS_END, a BYTE event in the header phase and past it, and a
transaction that ends before its header is complete. -/

namespace Sys2Proof.Machine

/-! ### Chip-select -/

/-- The row WIRE_BEGIN is CS_BEGIN at the device (R97). -/
theorem exec_wireBegin (s : State) :
    exec .wireBegin s = .next ((s.setDev s.dev.csBegin).setReply .silent) := rfl

/-- The row WIRE_END is CS_END at the device (R98). -/
theorem exec_wireEnd (s : State) :
    exec .wireEnd s = .next ((s.setDev s.dev.csEnd).setReply .silent) := rfl

/-- R98's corner case: CS_END changes nothing where no transaction is open. -/
theorem Device.csEnd_of_unselected {P : Params} {d : Device} (hinv : d.Inv P)
    (hsel : d.sel = false) : d.csEnd = d := by
  have hcnt : d.hdrCnt = 0 := hinv.deselected hsel
  ext1 <;> simp [hsel, hcnt]

/-- Settles O11: the row is CS_BEGIN (R97). -/
theorem csBeginOpensATransaction : Obligations.CsBeginOpensATransaction :=
  fun s => ⟨_, exec_wireBegin s⟩

/-- Settles O12: the row is CS_END, which the invariants make idle on a deselected device (R98, R41.8). -/
theorem csEndClosesTheTransaction : Obligations.CsEndClosesTheTransaction := by
  refine fun s => ⟨⟨_, exec_wireEnd s⟩, fun hinv hsel => ⟨.silent, ?_⟩⟩
  rw [exec_wireEnd, Device.csEnd_of_unselected hinv.dev hsel]
  rfl

/-! ### A BYTE event while selected -/

/-- R100: a selected device takes the byte. -/
theorem State.wireByte_of_selected (P : Params) (F : Draws) {s : State} (h : s.dev.sel = true)
    (m : Byte) : s.wireByte P F m = (s.setDev (s.dev.byte P m).1, (s.dev.byte P m).2) := by
  rcases s.wireByte_cases P F m with ⟨-, e⟩ | ⟨hsel, -⟩
  · exact e
  · simp [h] at hsel

/-- R100: while selected, every BYTE row is the device's BYTE and answers its miso. -/
theorem exec_decodeByte_of_selected {s : State} (h : s.dev.sel = true) (bc : ByteCase) (m : Byte) :
    exec (decodeByte bc m) s = s.readAnswer (s.dev.byte Config.hw m) := by
  rw [exec_decodeByte, State.byteEvent_eq_wireByte, State.wireByte_of_selected _ _ h]
  rfl

/-! ### The header phase -/

theorem Device.byte_of_header (P : Params) {d : Device} (h : d.hdrCnt < 4) (m : Byte) :
    d.byte P m = d.headerByte P m := if_pos h

/-- The device with one header byte more (R100). -/
def Device.storeHeaderByte (d : Device) (m : Byte) : Device :=
  { d with hdr := d.hdr.set d.hdrCnt m, hdrCnt := d.hdrCnt + 1 }

/-- R100, R102: each of the first three header bytes is stored, counted and answered FILL_BYTE. -/
theorem Device.byte_of_hdrCnt_lt_three (P : Params) {d : Device} (h : d.hdrCnt < 3) (m : Byte) :
    d.byte P m = (d.storeHeaderByte m, P.fillByte) := by
  have hlast : d.hdrCnt + 1 ≠ 4 := by omega
  have hmarker : d.hdrCnt ≠ 3 := by omega
  rw [d.byte_of_header P (by omega)]
  simp [Device.headerByte, Device.storeHeaderByte, headerMiso, hlast, hmarker]

/-- R101, R102: the fourth header byte completes the header and is answered READY_MARKER. -/
theorem Device.byte_of_hdrCnt_eq_three (P : Params) {d : Device} (h : d.hdrCnt = 3) (m : Byte) :
    d.byte P m =
      (d.headerReceived { d.hdr with b3 := m } (decodeHeader d.hdr.b0 d.hdr.b1 d.hdr.b2 m),
        P.readyMarker) := by
  rw [d.byte_of_header P (by omega)]
  simp [Device.headerByte, headerMiso, HdrBytes.set, Device.headerDecode, Device.headerReceived, h]

/-- Settles O14, by the index of the header byte (R100, R102). -/
theorem headerBytesAreStoredAndAnswered : Obligations.HeaderBytesAreStoredAndAnswered := by
  intro s m hsel
  have hrow := exec_decodeByte_of_selected hsel .hdr m
  have early : ∀ k, k < 3 → s.dev.hdrCnt = k → exec (.wireByteHdr m) s = s.readAnswer
      ({ s.dev with hdr := s.dev.hdr.set k m, hdrCnt := k + 1 }, Config.hw.fillByte) := by
    rintro k hk rfl
    exact hrow.trans (congrArg _ (Device.byte_of_hdrCnt_lt_three _ hk m))
  refine ⟨early 0 (by omega), early 1 (by omega), early 2 (by omega), fun h3 => ?_⟩
  exact ⟨_, hrow.trans (congrArg _ (Device.byte_of_hdrCnt_eq_three _ h3 m)), rfl⟩

/-! ### After the header -/

/-- R101, R103 to R105: after the header a byte leaves the parser as it was, but that it counts. -/
theorem Device.byte_of_headerComplete (P : Params) {d : Device} (h : d.hdrCnt = 4) (m : Byte) :
    ∃ e : Device, e.SameParser d ∧ (d.byte P m).1 = e.bumpOffset := by
  rcases d.byte_cases P m with ⟨hlt, -⟩ | ⟨-, -, -, e⟩ | ⟨-, -, -, e⟩ | ⟨-, -, e⟩
  · omega
  · exact ⟨_, d.memRead_sameParser P _, congrArg Prod.fst e⟩
  · exact ⟨_, d.memWrite_sameParser P _ m, congrArg Prod.fst e⟩
  · exact ⟨d, .refl d, congrArg Prod.fst e⟩

/-- R105: past the declared length a byte only counts. -/
theorem Device.byte_of_past (P : Params) {d : Device} (hcnt : d.hdrCnt = 4)
    (hoff : d.len ≤ d.offset) (m : Byte) : d.byte P m = (d.bumpOffset, P.fillByte) := by
  simp [Device.byte, hcnt, Nat.not_lt.2 hoff, Device.pastByte]

/-- Settles O15: the fourth byte completes the header, and no later byte moves the decoded fields (R101). -/
theorem fourthHeaderByteDecodesTheHeader : Obligations.FourthHeaderByteDecodesTheHeader := by
  refine ⟨fun s m hsel hcnt => ?fourth, fun s t m hsel hcnt hx => ?later⟩
  case fourth =>
    have hrow := exec_decodeByte_of_selected hsel .hdr m
    exact ⟨_, hrow.trans (congrArg _ (Device.byte_of_hdrCnt_eq_three _ hcnt m))⟩
  case later =>
    rw [exec_decodeByte_of_selected hsel] at hx
    have hdev : t.dev = (s.dev.byte Config.hw m).1 := by
      rw [← Host.Outcome.next.inj hx]
      rfl
    obtain ⟨e, ⟨hsel', hhdr, hcnt', hdir, hlen, haddr, -⟩, he⟩ :=
      Device.byte_of_headerComplete Config.hw hcnt m
    rw [hdev, he]
    exact ⟨hdir, hlen, haddr, hhdr, hcnt'.trans hcnt, hsel'.trans hsel⟩

/-- Settles O21: the row is the device's BYTE, which past the length only counts (R105). -/
theorem bytePastTheLengthMakesNoAccess : Obligations.BytePastTheLengthMakesNoAccess := by
  intro s m hsel hcnt hoff
  have hrow := exec_decodeByte_of_selected hsel .past m
  exact hrow.trans (congrArg _ (Device.byte_of_past _ hcnt hoff m))

/-! ### A transaction without a complete header -/

/-- R100, R102: bytes that do not complete the header are stored, counted and answered FILL_BYTE. -/
theorem State.wireBytes_partialHeader (P : Params) (F : Draws) (bs : List Byte) {s : State}
    (hsel : s.dev.sel = true) (hcnt : s.dev.hdrCnt + bs.length < 4) :
    ∃ h, s.wireBytes P F bs =
      (s.setDev { s.dev with hdr := h, hdrCnt := s.dev.hdrCnt + bs.length },
        List.replicate bs.length P.fillByte) := by
  induction bs generalizing s with
  | nil => exact ⟨s.dev.hdr, rfl⟩
  | cons b bs ih =>
    rw [List.length_cons] at hcnt
    have hbyte : s.wireByte P F b = (s.setDev (s.dev.storeHeaderByte b), P.fillByte) := by
      rw [State.wireByte_of_selected P F hsel, Device.byte_of_hdrCnt_lt_three P (by omega)]
    have hcnt' : s.dev.hdrCnt + 1 + bs.length < 4 := by omega
    obtain ⟨h, hrest⟩ := ih (s := s.setDev (s.dev.storeHeaderByte b)) hsel hcnt'
    refine ⟨h, ?_⟩
    rw [State.wireBytes_cons, hbyte, hrest]
    simp [Device.storeHeaderByte, List.replicate_succ, Nat.add_assoc, Nat.add_comm 1]

/-- Settles O22: the bytes stay in the header phase, and CS_END clears their count (R98, R106). -/
theorem partialHeaderChangesNothingElse : Obligations.PartialHeaderChangesNothingElse := by
  intro s bs hbs
  obtain ⟨h, e⟩ := State.wireBytes_partialHeader Config.hw Config.draws bs (s := s.wireBegin) rfl
    (by simpa using hbs)
  rw [e]
  exact ⟨h, rfl, rfl⟩

end Sys2Proof.Machine
end

section
/-! What a call leaves, read off its two results (R179, R181): on a deselected bus (R183), and for a
transaction that two calls share (R107, R186). -/

namespace Sys2Proof.Machine

/-! ### A call without Begin on a deselected bus -/

/-- R99, R174: every byte sent to a deselected device is one MISO_IDLE draw, in order. -/
theorem State.wireBytes_of_unselected (P : Params) (F : Draws) (bs : List Byte) {s : State}
    (h : s.dev.sel = false) :
    s.wireBytes P F bs = ({ s with misoDraws := s.misoDraws + bs.length },
      (List.range bs.length).map fun x => F.misoIdle (s.misoDraws + x)) := by
  induction bs generalizing s with
  | nil => rfl
  | cons b bs ih =>
    rw [State.wireBytes_cons, State.wireByte_of_unselected P F h, ih (s := s.countMiso) h]
    simp [List.range_succ_eq_map, State.countMiso, Nat.add_assoc, Nat.add_comm 1,
      Function.comp_def]

/-- What a call leaves where no device is selected: the device as it was, and one draw for each of the
`j` bytes that it received. -/
def State.ReceivedDraws (F : Draws) (s : State) (inBuf : List Byte) (status : Status) (j : Nat)
    (t : State) : Prop :=
  t.dev = s.dev ∧ t.misoDraws = s.misoDraws + j ∧
    t.reply = .transfer status j
      ((List.range j).map (fun x => F.misoIdle (s.misoDraws + x)) ++ inBuf.drop j)

/-- R183: neither the Ok result nor the timeout result of such a call reaches the device. -/
theorem State.CallOutcome.receivedDraws {P : Params} {F : Draws} {s t : State} {e : Bool} {n : Nat}
    {out inBuf : List Byte} (h : s.CallOutcome P F false e n out inBuf t)
    (hinv : s.dev.Inv P) (hsel : s.dev.sel = false) (ho : n ≤ out.length) :
    ∃ status j, s.ReceivedDraws F inBuf status j t := by
  have hend : s.dev.csEnd = s.dev := Device.csEnd_of_unselected hinv hsel
  rcases h with h | ⟨k, -, hk, h⟩
  · refine ⟨.ok, n, ?_⟩
    rw [h]
    cases e <;>
      simp [State.ReceivedDraws, State.okResult, State.opened, State.engineEnd,
        State.wireBytes_of_unselected P F _ hsel, hend, ho]
  · refine ⟨.timeout, k, ?_⟩
    rw [h]
    simp [State.ReceivedDraws, State.timeoutResult, State.opened, State.engineEnd,
      State.wireBytes_of_unselected P F _ hsel, hend, hk.trans ho]

/-- R36, R182: with the invariants and no call running, the engine is at rest. -/
theorem State.Inv.atRest {P : Params} {s : State} (h : s.Inv P) (hcall : s.eng.call = none) :
    s.eng.AtRest := ⟨hcall, h.idle_queues hcall⟩

/-- Settles O58: both results of a call without Begin keep a deselected device (R183). -/
theorem callWithoutBeginReachesNoDevice : Obligations.CallWithoutBeginReachesNoDevice := by
  intro s n out inBuf hinv hcall hsel ho hi i hmem
  have call : ∀ e, ∃ t status j,
      s.transfer Config.hw Config.draws false e (8 * n) out inBuf = .next t ∧
        s.ReceivedDraws Config.draws inBuf status j t := by
    intro e
    obtain ⟨t, ht, hout, -⟩ :=
      s.transfer_returned Config.hw Config.draws false e n out inBuf (hinv.atRest hcall) ho hi
    obtain ⟨status, j, hrec⟩ := hout.receivedDraws hinv.dev hsel ho
    exact ⟨t, status, j, ht, hrec⟩
  rcases List.mem_pair.1 hmem with rfl | rfl
  · exact call false
  · exact call true

/-! ### The Ok result of a call -/

/-- R170: a call that answers Ok leaves the Ok result. -/
theorem State.CallOutcome.ok {P : Params} {F : Draws} {s t : State} {b e : Bool} {n : Nat}
    {out inBuf : List Byte} (h : s.CallOutcome P F b e n out inBuf t) (hok : t.CallOk) :
    t.SameButSched (s.okResult P F b e n out inBuf) := by
  rcases h with h | ⟨k, -, -, h⟩
  · exact h
  · obtain ⟨j, buf, hreply⟩ := hok
    rw [h] at hreply
    simp [State.timeoutResult] at hreply

/-- R179, R180: a call from rest that answers Ok leaves the Ok result. -/
theorem State.transfer_ok {P : Params} {F : Draws} {s t : State} {b e : Bool} {n : Nat}
    {out inBuf : List Byte} (hr : s.eng.AtRest)
    (h : s.transfer P F b e (8 * n) out inBuf = .next t) (hok : t.CallOk) :
    t.SameButSched (s.okResult P F b e n out inBuf) := by
  obtain ⟨-, -, ho, hi, -⟩ := State.transfer_next h
  obtain ⟨u, hu, hout, -⟩ :=
    s.transfer_returned P F b e n out inBuf hr (by omega) (by omega)
  obtain rfl : u = t := Host.Outcome.next.inj (hu.symm.trans h)
  exact hout.ok hok

/-! ### The block without the model's own counts -/

/-- Two states that agree in all but the last answer and the count of schedule draws. -/
structure State.SameBlock (s t : State) : Prop where
  dev : s.dev = t.dev
  eng : s.eng = t.eng
  host : s.host = t.host
  miso : s.misoDraws = t.misoDraws

theorem State.SameBlock.symm {s t : State} (h : s.SameBlock t) : t.SameBlock s :=
  ⟨h.dev.symm, h.eng.symm, h.host.symm, h.miso.symm⟩

theorem State.SameBlock.trans {s t u : State} (h : s.SameBlock t) (h' : t.SameBlock u) :
    s.SameBlock u :=
  ⟨h.dev.trans h'.dev, h.eng.trans h'.eng, h.host.trans h'.host, h.miso.trans h'.miso⟩

/-- The state after the call's End, where the call asks for it (R180). -/
def State.closed (s : State) (endFlag : Bool) : State := if endFlag then s.engineEnd else s

/-- R180: End drops chip-select, and nothing else does. -/
theorem State.closed_cs (s : State) (e : Bool) : (s.closed e).eng.cs = (s.eng.cs && !e) := by
  cases e <;> simp [State.closed, State.engineEnd]

/-- R180: End deselects the device. -/
theorem State.closed_sel (s : State) (e : Bool) : (s.closed e).dev.sel = (s.dev.sel && !e) := by
  cases e <;> simp [State.closed, State.engineEnd]

theorem State.SameBlock.closed {s t : State} (h : s.SameBlock t) (e : Bool) :
    (s.closed e).SameBlock (t.closed e) := by
  cases e
  · exact h
  · exact ⟨congrArg Device.csEnd h.dev, congrArg (fun x => { x with cs := false }) h.eng,
      h.host, h.miso⟩

/-- R61: BYTE events depend on the block alone. -/
theorem State.SameBlock.wireBytes {s t : State} (h : s.SameBlock t) (P : Params) (F : Draws)
    (bs : List Byte) :
    (s.wireBytes P F bs).1.SameBlock (t.wireBytes P F bs).1 ∧
      (s.wireBytes P F bs).2 = (t.wireBytes P F bs).2 := by
  obtain ⟨hdev, hmiso, hanswers⟩ := State.wireBytes_congr (P := P) (F := F) h.dev h.miso bs
  exact ⟨⟨hdev, by simpa using h.eng, by simpa using h.host, hmiso⟩, hanswers⟩

/-- R179, R180: a call from rest that answers Ok, its buffers full: Begin, the bytes in order, End, and the
bytes received are their answers. -/
theorem State.transfer_ok_full {P : Params} {F : Draws} {s t : State} {b e : Bool}
    {out inBuf : List Byte} (hr : s.eng.AtRest) (hlen : inBuf.length = out.length)
    (h : s.transfer P F b e (8 * out.length) out inBuf = .next t) (hok : t.CallOk) :
    t.SameBlock (((s.opened b).wireBytes P F out).1.closed e) ∧
      t.reply = .transfer .ok out.length ((s.opened b).wireBytes P F out).2 := by
  have hres : s.okResult P F b e out.length out inBuf =
      (((s.opened b).wireBytes P F out).1.closed e).setReply
        (.transfer .ok out.length ((s.opened b).wireBytes P F out).2) := by
    simp [State.okResult, State.closed, List.drop_of_length_le hlen.le]
  rw [State.transfer_ok hr h hok, hres]
  exact ⟨⟨rfl, rfl, rfl, rfl⟩, rfl⟩

/-! ### A transaction that two calls share -/

/-- Settles O59: the exchanges of the one call are those of the two, one run after the other (R107), and
only the last of the two has an End (R186). -/
theorem splitTransactionActsAsOneCall : Obligations.SplitTransactionActsAsOneCall := by
  intro P F s t1 t2 t3 e out1 out2 in1 in2 hr hlen1 hlen2 h1 ok1 h2 ok2 h3 ok3
  rw [← List.length_append] at h3
  obtain ⟨after1, reply1⟩ := State.transfer_ok_full hr hlen1 h1 ok1
  have rest1 : t1.eng.AtRest := by
    rw [after1.eng]
    simpa [State.closed] using State.opened_atRest hr true
  obtain ⟨after2, reply2⟩ := State.transfer_ok_full rest1 hlen2 h2 ok2
  obtain ⟨after3, reply3⟩ := State.transfer_ok_full hr (by simp [hlen1, hlen2]) h3 ok3
  rw [State.wireBytes_append] at after3 reply3
  obtain ⟨goesOn, answers⟩ := State.SameBlock.wireBytes (s := t1.opened false) after1 P F out2
  have agree : t2.SameBlock t3 := (after2.trans (goesOn.closed e)).trans after3.symm
  have cs1 : t1.eng.cs = true := by
    rw [after1.eng, State.closed_cs, State.wireBytes_eng]
    rfl
  have sel1 : t1.dev.sel = true := by
    rw [after1.dev, State.closed_sel, State.wireBytes_sel]
    rfl
  refine ⟨cs1, sel1, ?cs2, ?sel2, agree.dev, agree.eng, agree.host, agree.miso,
    _, _, reply1, reply2, ?reply⟩
  case cs2 =>
    rw [after2.eng, State.closed_cs, State.wireBytes_eng]
    exact congrArg (· && !e) cs1
  case sel2 =>
    rw [after2.dev, State.closed_sel, State.wireBytes_sel]
    exact congrArg (· && !e) sel1
  case reply =>
    rw [reply3, List.length_append, answers]
    rfl

end Sys2Proof.Machine
end

section
/-! Register accesses that have no effect (R122 to R127, R130 to R132), status writes (R122), the FIFO window
(R128, R129), and the independence of every other access from the access register (R133). -/

namespace Sys2Proof.Machine

/-! ### Rows that leave the device -/

/-- A read that leaves the device changes nothing but the answer. -/
theorem State.readAnswer_self (s : State) (b : Byte) :
    s.readAnswer (s.dev, b) = .next { s with reply := .bytes [b] } := rfl

/-- A write that leaves the device changes nothing but the answer. -/
theorem State.writeAnswer_self (s : State) :
    s.writeAnswer s.dev = .next { s with reply := .silent } := rfl

/-- Settles O26: the row is the region's (R115), and its meaning is MemRead of an address of no register
(R131). -/
theorem unknownReadReturnsAllOnes : Obligations.UnknownReadReturnsAllOnes := by
  intro s a v h
  have row : accessRow .read a v = .rdUnknown a := by rw [accessRow, readRow_eq, h, Region.readRow]
  refine ⟨row, ?_⟩
  rw [← row, exec_accessRow_read, Device.memRead_of_unmapped _ _ h]
  exact s.readAnswer_self sentinel

/-- Settles O28: the row is the region's (R115), and its meaning is MemWrite to an address of no register
(R132). -/
theorem unknownWriteHasNoEffect : Obligations.UnknownWriteHasNoEffect := by
  intro s a v h
  have row : accessRow .write a v = .wrUnknown a v := by
    rw [accessRow, writeRow_eq, h, Region.writeRow]
  refine ⟨row, .silent, ?_⟩
  rw [← row, exec_accessRow_write, Device.memWrite_of_unmapped _ _ _ h]
  exact s.writeAnswer_self

/-- Settles O29: each of these rows is a write that leaves the device. -/
theorem ignoredWritesChangeNothing : Obligations.IgnoredWritesChangeNothing := by
  intro s k v b7 b0 lo hi
  have quiet := s.writeAnswer_self
  exact ⟨quiet, quiet, quiet, quiet, quiet, quiet, quiet⟩

/-! ### Status writes -/

/-- R122: abort where bit 6 is set, then go where bit 5 is set. -/
theorem Device.stsWrite0_eq (P : Params) (d : Device) (v : Byte) :
    d.stsWrite0 P v =
      let e := if v.getLsbD 6 then d.abort P else d
      if v.getLsbD 5 then e.go P else e := by
  rw [← hasBit_abort, ← hasBit_go]
  rfl

theorem exec_wrSts0 (v : Byte) (s : State) :
    exec (.wrSts0 v) s =
      .next { s with dev := s.dev.stsWrite0 Config.hw v, reply := .silent } := rfl

/-- R122's corner case: with both bits set, the go finds the aborted device and does nothing. -/
theorem Device.stsWrite0_abort_go (P : Params) (d : Device) : d.stsWrite0 P 0x60 = d.abort P := by
  rw [Device.stsWrite0_eq]
  exact d.go_abort P

/-- Settles O31: the row is StsWrite0 of its value (R122). -/
theorem statusWriteAbortsThenGoes : Obligations.StatusWriteAbortsThenGoes := by
  intro s v
  refine ⟨⟨.silent, ?bits⟩, ⟨.silent, ?both⟩, ⟨.silent, ?neither⟩⟩
  case bits => rw [exec_wrSts0, Device.stsWrite0_eq]
  case both => rw [exec_wrSts0, Device.stsWrite0_abort_go]
  case neither =>
    rw [exec_wrSts0, Device.stsWrite0_eq]
    rfl

/-! ### The FIFO window -/

/-- RD_FIFO is FifoRead at every address (R128). -/
theorem exec_rdFifo (a : Nat) (s : State) : exec (.rdFifo a) s = s.readAnswer s.dev.fifoRead := rfl

/-- WR_FIFO is FifoWrite of its byte at every address (R129). -/
theorem exec_wrFifo (a : Nat) (v : Byte) (s : State) :
    exec (.wrFifo a v) s = s.writeAnswer (s.dev.fifoWrite Config.hw v) := rfl

/-- Settles O44: the window is the FIFO's region, and no FIFO row's meaning has the address in it. -/
theorem fifoAddressDoesNotMatter : Obligations.FifoAddressDoesNotMatter := by
  intro s a b v lo hi _ _
  have fifo : decodeAddr a = .fifo := (decodeAddr_eq_fifo_iff a).2 ⟨lo, hi⟩
  refine ⟨?readRow, ?writeRow, ?read, ?write⟩
  case readRow => rw [accessRow, readRow_eq, fifo, Region.readRow]
  case writeRow => rw [accessRow, writeRow_eq, fifo, Region.writeRow]
  case read => rw [exec_rdFifo, exec_rdFifo]
  case write => rw [exec_wrFifo, exec_wrFifo]

/-! ### Another value of the access register -/

/-- The device with `x` in the access register. -/
def Device.withAccess (d : Device) (x : Byte) : Device := { d with access := x }

/-- The state whose device has `x` in the access register. -/
def State.withAccess (s : State) (x : Byte) : State := s.setDev (s.dev.withAccess x)

@[simp] theorem Device.withAccess_state (d : Device) (x : Byte) :
    (d.withAccess x).state = d.state := rfl
@[simp] theorem Device.withAccess_rsp (d : Device) (x : Byte) : (d.withAccess x).rsp = d.rsp := rfl
@[simp] theorem Device.withAccess_rspCursor (d : Device) (x : Byte) :
    (d.withAccess x).rspCursor = d.rspCursor := rfl
@[simp] theorem Device.withAccess_access (d : Device) (x : Byte) :
    (d.withAccess x).access = x := rfl
@[simp] theorem State.withAccess_dev (s : State) (x : Byte) :
    (s.withAccess x).dev = s.dev.withAccess x := rfl

/-! ### No operation on the command state looks at the access register or changes it (R142 to R155) -/

theorem Device.checkComplete_withAccess (d : Device) (x : Byte) :
    (d.withAccess x).checkComplete = d.checkComplete.withAccess x := by
  unfold Device.checkComplete
  rw [apply_ite (Device.withAccess · x)]
  rfl

theorem Device.append_withAccess (P : Params) (d : Device) (x b : Byte) :
    (d.withAccess x).append P b = (d.append P b).withAccess x := by
  unfold Device.append
  rw [apply_ite (Device.withAccess · x), ← Device.checkComplete_withAccess]
  rfl

theorem Device.fifoWrite_withAccess (P : Params) (d : Device) (x b : Byte) :
    (d.withAccess x).fifoWrite P b = (d.fifoWrite P b).withAccess x := by
  simp only [Device.fifoWrite, Device.startReception_eq, Device.append_withAccess,
    Device.withAccess_state]
  cases d.state
  case reception => exact (apply_ite (Device.withAccess · x) (d.dataExpect = true) _ _).symm
  all_goals rfl

theorem Device.fifoRead_withAccess (d : Device) (x : Byte) :
    (d.withAccess x).fifoRead = (d.fifoRead.1.withAccess x, d.fifoRead.2) := by
  simp only [Device.fifoRead, Device.withAccess_state, Device.withAccess_rsp,
    Device.withAccess_rspCursor]
  split
  · by_cases last : d.rspCursor + 1 = d.rsp.length <;> simp only [last, ↓reduceIte] <;> rfl
  · rfl

theorem Device.probe_withAccess (d : Device) (x : Byte) :
    (d.withAccess x).probe = d.probe.withAccess x := by
  simp only [Device.probe, Device.withAccess_state]
  split <;> rfl

theorem Device.go_withAccess (P : Params) (d : Device) (x : Byte) :
    (d.withAccess x).go P = (d.go P).withAccess x := by
  unfold Device.go
  rw [apply_ite (Device.withAccess · x)]
  rfl

theorem Device.abort_withAccess (P : Params) (d : Device) (x : Byte) :
    (d.withAccess x).abort P = (d.abort P).withAccess x := rfl

theorem Device.stsWrite0_withAccess (P : Params) (d : Device) (x v : Byte) :
    (d.withAccess x).stsWrite0 P v = (d.stsWrite0 P v).withAccess x := by
  simp only [Device.stsWrite0_eq, Device.abort_withAccess]
  split_ifs <;> simp only [Device.go_withAccess]

/-! ### No access at another address does either (R133) -/

/-- R115: the access register is at 0x0000 alone. -/
theorem decodeAddr_ne_access {a : Nat} (h : a ≠ 0x0000) : decodeAddr a ≠ .access := by
  intro hr
  have covers := covers_decodeAddr a
  rw [hr] at covers
  exact h covers

theorem Device.memRead_withAccess (P : Params) (d : Device) (x : Byte) {a : Nat}
    (h : a ≠ 0x0000) :
    (d.withAccess x).memRead P a = ((d.memRead P a).1.withAccess x, (d.memRead P a).2) := by
  unfold Device.memRead
  cases hr : decodeAddr a
  case access => exact absurd hr (decodeAddr_ne_access h)
  case fifo => exact d.fifoRead_withAccess x
  all_goals rfl

theorem Device.memWrite_withAccess (P : Params) (d : Device) (x v : Byte) {a : Nat}
    (h : a ≠ 0x0000) :
    (d.withAccess x).memWrite P a v = (d.memWrite P a v).withAccess x := by
  unfold Device.memWrite
  cases hr : decodeAddr a
  case access => exact absurd hr (decodeAddr_ne_access h)
  case fifo => exact d.fifoWrite_withAccess P x v
  case sts k =>
    dsimp only
    split
    · exact d.stsWrite0_withAccess P x v
    · rfl
  all_goals rfl

/-- The instruction does the same whatever the access register holds, and keeps what it holds. -/
def Instr.IgnoresAccess (i : Instr) : Prop :=
  ∀ s t : State, exec i s = .next t → ∀ x, exec i (s.withAccess x) = .next (t.withAccess x)

/-- Run with the value that the register already holds, the instruction leaves that value in it. -/
theorem Instr.IgnoresAccess.access_eq {i : Instr} (hi : Instr.IgnoresAccess i) {s t : State}
    (h : exec i s = .next t) : t.dev.access = s.dev.access := by
  have same : exec i s = .next (t.withAccess s.dev.access) := hi s t h s.dev.access
  rw [h] at same
  injection same with ht
  rw [ht, State.withAccess_dev, Device.withAccess_access]

/-- A register write ignores the access register where its effect on the device commutes with another
value of it. -/
theorem Instr.IgnoresAccess.of_write {i : Instr} {f : Device → Device}
    (hi : ∀ s, exec i s = s.writeAnswer (f s.dev))
    (hf : ∀ d x, f (d.withAccess x) = (f d).withAccess x) : Instr.IgnoresAccess i := by
  intro s t h x
  rw [hi] at h ⊢
  injection h with ht
  rw [← ht, State.withAccess_dev, hf]
  rfl

/-- A register read ignores the access register where its effect on the device commutes with another
value of it and its byte stays the same. -/
theorem Instr.IgnoresAccess.of_read {i : Instr} {f : Device → Device × Byte}
    (hi : ∀ s, exec i s = s.readAnswer (f s.dev))
    (hf : ∀ d x, f (d.withAccess x) = ((f d).1.withAccess x, (f d).2)) :
    Instr.IgnoresAccess i := by
  intro s t h x
  rw [hi] at h ⊢
  injection h with ht
  rw [← ht, State.withAccess_dev, hf]
  rfl

theorem accessRow_ignoresAccess (dir : Dir) {a : Nat} (h : a ≠ 0x0000) (v : Byte) :
    Instr.IgnoresAccess (accessRow dir a v) := by
  cases dir with
  | read =>
    exact .of_read (f := (Device.memRead Config.hw · a)) (exec_accessRow_read · a v)
      fun d x => d.memRead_withAccess _ x h
  | write =>
    exact .of_write (f := (Device.memWrite Config.hw · a v)) (exec_accessRow_write · a v)
      fun d x => d.memWrite_withAccess _ x v h

/-- R83: a status value is the write of its byte to 0x0018. -/
theorem decodeStsw_ignoresAccess (v : Byte) : Instr.IgnoresAccess (decodeStsw v) := by
  intro s t h x
  rw [exec_decodeStsw] at h ⊢
  exact accessRow_ignoresAccess .write (by decide) v s t h x

/-- INIT is the probe (R142). -/
theorem exec_init (s : State) : exec .init s = s.writeAnswer s.dev.probe := rfl

theorem init_ignoresAccess : Instr.IgnoresAccess .init :=
  .of_write exec_init Device.probe_withAccess

/-- Settles O35: each of these instructions ignores the access register, and so keeps it. -/
theorem accessesNeedNoGrant : Obligations.AccessesNeedNoGrant := by
  intro s t i x hi h
  have ignores : Instr.IgnoresAccess i := by
    rcases hi with ⟨a, v, ha, rfl | rfl⟩ | ⟨v, rfl⟩ | rfl
    · exact accessRow_ignoresAccess .read ha v
    · exact accessRow_ignoresAccess .write ha v
    · exact decodeStsw_ignoresAccess v
    · exact init_ignoresAccess
  exact ⟨ignores.access_eq h, ignores s t h x⟩

end Sys2Proof.Machine
end

section
/-! The command state's transitions (R140): an event moves D.state along one row of the table or not at all,
an instruction of one event is at most one event, and no row enters Idle or Execution (R141, R151). -/

namespace Sys2Proof.Machine

/-- At most one row of the table from `x` to `y`. -/
abbrev CmdState.Moves : CmdState → CmdState → Prop := Relation.ReflGen CmdState.Listed

/-- Rows of the table, one after another, from `x` to `y`. -/
abbrev CmdState.Path : CmdState → CmdState → Prop := Relation.ReflTransGen CmdState.Listed

/-! ### The row of an operation -/

@[simp] theorem Device.append_state (P : Params) (d : Device) (b : Byte) :
    (d.append P b).state = d.state := by
  rcases d.append_cases P b with ⟨-, e⟩ | ⟨-, e⟩ <;> rw [e]

@[simp] theorem Device.headerByte_state (P : Params) (d : Device) (m : Byte) :
    (d.headerByte P m).1.state = d.state := by
  unfold Device.headerByte
  dsimp only
  split <;> rfl

/-- R143, R144: a FIFO write in Ready is the table's first-write row. -/
theorem Device.fifoWrite_moves (P : Params) (d : Device) (b : Byte) :
    CmdState.Moves d.state (d.fifoWrite P b).state := by
  rcases d.fifoWrite_cases P b with ⟨hs, e⟩ | ⟨-, -, e⟩ | ⟨-, -, e⟩ <;> rw [e]
  · rw [hs]; exact .single .firstWrite
  · rw [Device.append_state]

/-- R155: the FIFO read of the last byte is the table's drained row. -/
theorem Device.fifoRead_moves (d : Device) : CmdState.Moves d.state d.fifoRead.1.state := by
  rcases d.fifoRead_cases with ⟨-, -, e⟩ | ⟨hs, -, e⟩ | ⟨-, e⟩ <;> rw [e]
  rw [hs]; exact .single .drained

/-- R150: an accepted go is the table's go row. -/
theorem Device.go_moves (P : Params) (d : Device) : CmdState.Moves d.state (d.go P).state := by
  rcases d.go_cases P with ⟨hs, -, e⟩ | ⟨-, e⟩ <;> rw [e]
  rw [hs]; exact .single .accepted

/-- R142: INIT in Idle is the table's first row. -/
theorem Device.probe_moves (d : Device) : CmdState.Moves d.state d.probe.state := by
  rcases d.probe_cases with ⟨hs, e⟩ | ⟨-, e⟩ <;> rw [e]
  rw [hs]; exact .single .initProbe

theorem Device.stsWrite0_moves (P : Params) (d : Device) (v : Byte) :
    CmdState.Moves d.state (d.stsWrite0 P v).state := by
  rcases d.stsWrite0_cases P v with e | e | e <;> rw [e]
  · exact .single (.aborted d.state)
  · exact d.go_moves P

theorem Device.memRead_moves (P : Params) (d : Device) (a : Nat) :
    CmdState.Moves d.state (d.memRead P a).1.state := by
  rcases d.memRead_cases P a with e | e <;> rw [e]
  exact d.fifoRead_moves

theorem Device.memWrite_moves (P : Params) (d : Device) (a : Nat) (v : Byte) :
    CmdState.Moves d.state (d.memWrite P a v).state := by
  rcases d.memWrite_cases P a v with e | e | e | e <;> rw [e]
  · exact d.stsWrite0_moves P v
  · rw [Device.grant_state]
  · exact d.fifoWrite_moves P v

/-- A BYTE reaches the command state by the access of its data phase alone (R100, R103, R104). -/
theorem Device.byte_moves (P : Params) (d : Device) (m : Byte) :
    CmdState.Moves d.state (d.byte P m).1.state := by
  rcases d.byte_cases P m with ⟨-, e⟩ | ⟨-, -, -, e⟩ | ⟨-, -, -, e⟩ | ⟨-, -, e⟩ <;> rw [e]
  · rw [Device.headerByte_state]
  · exact d.memRead_moves P d.accessAddr
  · exact d.memWrite_moves P d.accessAddr m
  · exact .refl

theorem Device.event_moves {P : Params} {d e : Device} (h : Device.Event P d e) :
    CmdState.Moves d.state e.state := by
  cases h with
  | csBegin => exact .refl
  | csEnd => exact .refl
  | byte m _ => exact d.byte_moves P m
  | memRead a => exact d.memRead_moves P a
  | memWrite a v => exact d.memWrite_moves P a v
  | probe => exact d.probe_moves
  | count => exact .refl

/-! ### What no row enters -/

/-- R141, R151: no row of the table ends in Idle or in Execution. -/
theorem CmdState.Listed.target_ne {x y : CmdState} (h : CmdState.Listed x y) :
    y ≠ .idle ∧ y ≠ .execution := by
  cases h <;> simp

/-- A state that no row enters is at the end of a path only where the path is empty. -/
theorem CmdState.Path.eq_of_not_entered {x y : CmdState} (h : CmdState.Path x y)
    (hy : ∀ z, ¬ CmdState.Listed z y) : x = y := by
  rcases h.cases_tail with e | ⟨z, -, hz⟩
  · exact e.symm
  · exact absurd hz (hy z)

theorem Device.reach_path {P : Params} {d e : Device} (h : Device.Reach P d e) :
    CmdState.Path d.state e.state :=
  h.keeps (K := fun f => CmdState.Path d.state f.state)
    (fun _ _ he hd => hd.trans (Device.event_moves he).to_reflTransGen) .refl

/-- Settles O48: a step is a run of device events, each of them at most one row of the table, and no row
enters Idle or Execution. -/
theorem noStepEntersIdleOrExecution : Obligations.NoStepEntersIdleOrExecution := by
  intro s t h
  have path := Device.reach_path (step_reach h)
  constructor
  · intro idle
    exact (path.eq_of_not_entered fun _ hz => hz.target_ne.1 idle).trans idle
  · intro execution
    exact (path.eq_of_not_entered fun _ hz => hz.target_ne.2 execution).trans execution

/-! ### Instructions of one event -/

/-- A BYTE event is one event at a selected device and none at a deselected one (R99, R100). -/
theorem State.byteEvent_event {P : Params} {F : Draws} {s t : State} {m : Byte}
    (h : s.byteEvent P F m = .next t) : Relation.ReflGen (Device.Event P) s.dev t.dev := by
  rw [State.byteEvent_eq_wireByte] at h
  obtain rfl := Host.Outcome.next.inj h
  rw [State.setReply_dev]
  rcases s.wireByte_cases P F m with ⟨hsel, e⟩ | ⟨-, e⟩ <;> rw [e]
  · exact .single (.byte s.dev m hsel)
  · exact .refl

/-- The instructions that `oneEvent` names are at most one event at the device. -/
theorem exec_event {i : Instr} {s t : State} (hi : oneEvent i = true) (h : exec i s = .next t) :
    Relation.ReflGen (Device.Event Config.hw) s.dev t.dev := by
  cases i
  case hdrWrite | hdrRead | xferBE | xferB | xferC | xferE => simp [oneEvent] at hi
  case wireByteUnsel | wireByteHdr | wireByteDataRd | wireByteDataWr | wireBytePast =>
    exact State.byteEvent_event h
  all_goals (obtain rfl := Host.Outcome.next.inj h)
  case rdFifo => exact .single (Device.fifoRead_event _ _)
  case wrAccess v => exact .single (Device.accessWrite_event _ _ v)
  case wrSts0 v => exact .single (Device.stsWrite0_event _ _ v)
  case wrFifo _ v => exact .single (Device.fifoWrite_event _ _ v)
  case stsAbort => exact .single (Device.abort_event _ _)
  case stsGo => exact .single (Device.go_event _ _)
  case stsAbortGo => exact .single (.memWrite s.dev 0x18 0x60)
  case accRequestUse => exact .single (Device.grant_event _ _)
  case wireBegin => exact .single (.csBegin _)
  case wireEnd => exact .single (.csEnd _)
  case init => exact .single (.probe _)
  all_goals exact .refl

/-- Settles O47: the instruction is at most one event, and an event is at most one row of the table. -/
theorem oneEventFollowsTheTransitionTable : Obligations.OneEventFollowsTheTransitionTable := by
  intro s t i hi h
  rcases (Relation.reflGen_iff _ _ _).1 (exec_event hi h) with same | event
  · exact .inl (congrArg Device.state same)
  · exact (Relation.reflGen_iff _ _ _).1 (Device.event_moves event)

end Sys2Proof.Machine
end

section
/-! The operations of the command state machine, each by the state it finds (R142 to R155): INIT, abort and
go, and the FIFO's writes and reads. -/

namespace Sys2Proof.Machine

/-- A register write leaves the device it is given and answers nothing. -/
theorem State.writeAnswer_eq (s : State) (d : Device) :
    s.writeAnswer d = .next { s with dev := d, reply := .silent } := rfl

/-- A register read leaves the device it is given and answers its byte. -/
theorem State.readAnswer_eq (s : State) (r : Device × Byte) :
    s.readAnswer r = .next { s with dev := r.1, reply := .bytes [r.2] } := rfl

/-! ### Abort, go and INIT -/

theorem exec_stsAbort (b7 : BitVec 1) (lo : BitVec 5) (s : State) :
    exec (.stsAbort b7 lo) s = s.writeAnswer (s.dev.abort Config.hw) := rfl

theorem exec_stsGo (b7 : BitVec 1) (lo : BitVec 5) (s : State) :
    exec (.stsGo b7 lo) s = s.writeAnswer (s.dev.go Config.hw) := rfl

theorem exec_stsAbortGo (b7 : BitVec 1) (lo : BitVec 5) (s : State) :
    exec (.stsAbortGo b7 lo) s = s.writeAnswer ((s.dev.abort Config.hw).go Config.hw) := rfl

/-- Settles O36: the row is Abort() (R152). -/
theorem abortReturnsToReady : Obligations.AbortReturnsToReady := by
  intro s b7 lo
  rw [exec_stsAbort, State.writeAnswer_eq]
  rfl

/-- Settles O38: right after the abort the go does nothing (R153). -/
theorem abortAndGoIsAnAbort : Obligations.AbortAndGoIsAnAbort := by
  intro s b7 lo
  rw [exec_stsAbortGo, Device.go_abort, State.writeAnswer_eq]
  rfl

/-- R150: go with a complete command in Reception. -/
theorem Device.go_of_complete (P : Params) {d : Device} (hs : d.state = .reception)
    (hc : CommandComplete d.cmd) :
    d.go P = { d with
      rsp := P.respond d.cmd, rspCursor := 0, state := .completion
      dataAvail := true, dataExpect := false } := by
  rcases d.go_cases P with ⟨-, -, e⟩ | ⟨hn, -⟩
  · exact e
  · exact absurd ⟨hs, (commandComplete_iff _).2 hc⟩ hn

/-- R150: go in any other case. -/
theorem Device.go_of_not_complete (P : Params) {d : Device}
    (hn : ¬ (d.state = .reception ∧ CommandComplete d.cmd)) : d.go P = d := by
  rcases d.go_cases P with ⟨hs, hc, -⟩ | ⟨-, e⟩
  · exact absurd ⟨hs, (commandComplete_iff _).1 hc⟩ hn
  · exact e

/-- Settles O37: the row is Go(), whose answer has a legal length (R7, R150). -/
theorem goNeedsACompleteCommand : Obligations.GoNeedsACompleteCommand := by
  intro s b7 lo
  constructor
  · intro hs hc
    obtain ⟨pos, le⟩ := respond_length Config.hw s.dev.cmd
    exact ⟨pos, le, .silent, by rw [exec_stsGo, Device.go_of_complete _ hs hc, State.writeAnswer_eq]⟩
  · intro hn
    exact ⟨.silent, by rw [exec_stsGo, Device.go_of_not_complete _ hn, State.writeAnswer_eq]⟩

/-- Settles O39: the row is Init(), by whether the state is Idle (R142). -/
theorem initMovesIdleToReady : Obligations.InitMovesIdleToReady := by
  intro s
  rcases s.dev.probe_cases with ⟨hs, e⟩ | ⟨hs, e⟩ <;> rw [exec_init, e, State.writeAnswer_eq]
  · exact ⟨fun _ => rfl, fun hn => absurd hs hn⟩
  · exact ⟨fun hi => absurd hi hs, fun _ => rfl⟩

/-! ### FIFO writes -/

/-- R146: below capacity Append keeps the byte and re-evaluates completion. -/
theorem Device.append_of_room (P : Params) {d : Device} (b : Byte)
    (hl : d.cmd.length ≠ P.cmdCapacity) :
    d.append P b = { d with
      cmd := d.cmd ++ [b]
      dataExpect := d.dataExpect && !commandComplete (d.cmd ++ [b]) } := by
  rcases d.append_cases P b with ⟨hn, -⟩ | ⟨-, e⟩
  · exact absurd hn hl
  · exact e

/-- R146: at capacity Append drops the byte. -/
theorem Device.append_of_full (P : Params) {d : Device} (b : Byte)
    (hl : d.cmd.length = P.cmdCapacity) : d.append P b = d := by
  rcases d.append_cases P b with ⟨-, e⟩ | ⟨hn, -⟩
  · exact e
  · exact absurd hl hn

/-- R144: the first byte of a command. -/
theorem Device.fifoWrite_of_ready (P : Params) {d : Device} (b : Byte) (hs : d.state = .ready) :
    d.fifoWrite P b = { d with
      cmd := [b], dataExpect := true, cmdReady := false, state := .reception } := by
  rcases d.fifoWrite_cases P b with ⟨-, e⟩ | ⟨hn, -, -⟩ | ⟨hn, -, -⟩
  · exact e
  · simp [hs] at hn
  · exact absurd hs hn

/-- R145: a byte of an open reception. -/
theorem Device.fifoWrite_of_open (P : Params) {d : Device} (b : Byte) (hs : d.state = .reception)
    (he : d.dataExpect = true) : d.fifoWrite P b = d.append P b := by
  rcases d.fifoWrite_cases P b with ⟨hn, -⟩ | ⟨-, -, e⟩ | ⟨-, hn, -⟩
  · simp [hs] at hn
  · exact e
  · simp [hn hs] at he

/-- R149: a byte that no reception is open for. -/
theorem Device.fifoWrite_of_closed (P : Params) {d : Device} (b : Byte) (hs : d.state ≠ .ready)
    (he : d.state = .reception → d.dataExpect = false) : d.fifoWrite P b = d := by
  rcases d.fifoWrite_cases P b with ⟨hn, -⟩ | ⟨hr, hn, -⟩ | ⟨-, -, e⟩
  · exact absurd hn hs
  · simp [he hr] at hn
  · exact e

/-- Settles O40: in Ready FifoWrite is StartReception (R143, R144). -/
theorem fifoWriteInReadyStartsReception : Obligations.FifoWriteInReadyStartsReception := by
  intro s a v hs
  rw [exec_wrFifo, Device.fifoWrite_of_ready _ v hs, State.writeAnswer_eq]

/-- Settles O41: in an open reception FifoWrite is Append (R145, R146), by capacity and completion. -/
theorem fifoWriteInReceptionAppends : Obligations.FifoWriteInReceptionAppends := by
  intro s a v hs he
  rw [exec_wrFifo, Device.fifoWrite_of_open _ v hs he, State.writeAnswer_eq]
  refine ⟨fun hl hc => ?completes, fun hl hc => ?goesOn, fun hl => ?full⟩
  case completes =>
    rw [Device.append_of_room _ v hl, (commandComplete_iff _).2 hc, he]
    rfl
  case goesOn =>
    rw [← commandComplete_iff, Bool.not_eq_true] at hc
    rw [Device.append_of_room _ v hl, hc, Bool.not_false, Bool.and_true]
  case full => rw [Device.append_of_full _ v hl]

/-- Settles O42: in each of these states no reception is open (R149). -/
theorem otherFifoWritesAreIgnored : Obligations.OtherFifoWritesAreIgnored := by
  intro s a v h
  have notReady : s.dev.state ≠ .ready := by
    rcases h with hs | hs | hs | ⟨hs, -⟩ <;> simp [hs]
  have closed : s.dev.state = .reception → s.dev.dataExpect = false := by
    rcases h with hs | hs | hs | ⟨-, he⟩
    · simp [hs]
    · simp [hs]
    · simp [hs]
    · exact fun _ => he
  rw [exec_wrFifo, Device.fifoWrite_of_closed _ v notReady closed, State.writeAnswer_self]

/-! ### FIFO reads -/

/-- R154: a byte of the response that is not its last. -/
theorem Device.fifoRead_of_more {d : Device} (h : d.rspCursor < d.rsp.length)
    (hs : d.state = .completion) (hm : d.rspCursor + 1 ≠ d.rsp.length) :
    d.fifoRead = ({ d with rspCursor := d.rspCursor + 1 }, d.rsp[d.rspCursor]) := by
  rw [← List.getD_eq_getElem d.rsp 0 h]
  rcases d.fifoRead_cases with ⟨-, -, e⟩ | ⟨-, hn, -⟩ | ⟨hn, -⟩
  · exact e
  · exact absurd hn hm
  · exact absurd hn (by simp [hs, h])

/-- R155: the last byte of the response. -/
theorem Device.fifoRead_of_last {d : Device} (h : d.rspCursor < d.rsp.length)
    (hs : d.state = .completion) (hl : d.rspCursor + 1 = d.rsp.length) :
    d.fifoRead = (d.drained, d.rsp[d.rspCursor]) := by
  rw [← List.getD_eq_getElem d.rsp 0 h]
  rcases d.fifoRead_cases with ⟨-, hn, -⟩ | ⟨-, -, e⟩ | ⟨hn, -⟩
  · omega
  · exact e
  · exact absurd hn (by simp [hs, h])

/-- Settles O43: the row is FifoRead, by whether the byte is the last, there is another, or there is none
(R154, R155); the invariants leave a byte in Completion (R41.6). -/
theorem fifoReadDrainsTheResponse : Obligations.FifoReadDrainsTheResponse := by
  intro s a
  rw [exec_rdFifo, State.readAnswer_eq]
  refine ⟨fun h hs hm => ?more, fun h hs hl => ?last, fun hn => ?empty, fun inv => inv.dev.cursor_lt⟩
  case more => rw [Device.fifoRead_of_more h hs hm]
  case last => rw [Device.fifoRead_of_last h hs hl]; rfl
  case empty => rw [Device.fifoRead_of_empty hn]; rfl

end Sys2Proof.Machine
end

section
/-! Runs of operations: FIFO writes buffer a command (R145 to R148), FIFO reads drain a response (R154, R155),
and a command cycle is the one, a go and the other (R158). -/

namespace Sys2Proof.Machine

/-! ### Operations one after another -/

/-- A run of one operation that completes. -/
theorem execAll_singleton {i : Instr} {s t : State} (h : exec i s = .next t) :
    execAll [i] s = some (t, [t.reply]) := by
  simp [execAll, h]

/-- A run whose first operation completes goes on with the rest. -/
theorem execAll_cons {i : Instr} {is : List Instr} {s t u : State} {rs : List Reply}
    (h : exec i s = .next t) (hs : execAll is t = some (u, rs)) :
    execAll (i :: is) s = some (u, t.reply :: rs) := by
  simp [execAll, h, hs]

/-- Two runs one after the other. -/
theorem execAll_append {is js : List Instr} {s t u : State} {qs rs : List Reply}
    (h : execAll is s = some (t, qs)) (hs : execAll js t = some (u, rs)) :
    execAll (is ++ js) s = some (u, qs ++ rs) := by
  induction is generalizing s qs with
  | nil =>
    obtain ⟨rfl, rfl⟩ : s = t ∧ [] = qs := by simpa [execAll] using h
    exact hs
  | cons i is ih =>
    cases hi : exec i s with
    | next v =>
      simp only [execAll, hi, Option.map_eq_some_iff] at h
      obtain ⟨⟨w, ps⟩, hv, e⟩ := h
      obtain ⟨rfl, rfl⟩ := Prod.mk.inj e
      exact execAll_cons hi (ih hv)
    | fault f => simp [execAll, hi] at h
    | refused r => simp [execAll, hi] at h

/-! ### A run of FIFO writes -/

/-- The state in which the reception has buffered `cmd`, data-expect telling whether it is a complete
command (R148). -/
def State.received (s : State) (cmd : List Byte) : State :=
  { s with
    dev := { s.dev with
      state := .reception
      cmdReady := false
      cmd := cmd
      dataExpect := !commandComplete cmd }
    reply := .silent }

/-- The bytes do not outrun the length that they declare (R147). -/
def WithinDeclared (cmd : List Byte) : Prop :=
  6 ≤ cmd.length → cmd.length ≤ max 6 (declaredNat cmd)

/-- The declared length is in the first six bytes (R147). -/
theorem declaredNat_append {cmd : List Byte} (h : 6 ≤ cmd.length) (bs : List Byte) :
    declaredNat (cmd ++ bs) = declaredNat cmd := by
  simp only [declaredNat]
  rw [List.getD_append _ _ _ _ (by omega), List.getD_append _ _ _ _ (by omega),
    List.getD_append _ _ _ _ (by omega), List.getD_append _ _ _ _ (by omega)]

/-- A command of six bytes that another byte may follow is shorter than it declares. -/
theorem WithinDeclared.lt_declaredNat {cmd : List Byte} {b : Byte}
    (h : WithinDeclared (cmd ++ [b])) (h6 : 6 ≤ cmd.length) : cmd.length < declaredNat cmd := by
  simp only [WithinDeclared, declaredNat_append h6, List.length_append, List.length_singleton] at h
  omega

theorem WithinDeclared.of_append {cmd : List Byte} {b : Byte} (h : WithinDeclared (cmd ++ [b])) :
    WithinDeclared cmd := by
  intro h6
  have := h.lt_declaredNat h6
  omega

/-- A command that another byte may follow is not complete (R148). -/
theorem WithinDeclared.not_complete {cmd : List Byte} {b : Byte}
    (h : WithinDeclared (cmd ++ [b])) : commandComplete cmd = false := by
  rw [← Bool.not_eq_true, commandComplete_iff]
  rintro ⟨h6, hle⟩
  exact absurd hle (Nat.not_le_of_lt (h.lt_declaredNat h6))

/-- R144: the first byte of a command. -/
theorem exec_wrFifo_of_ready {s : State} (hs : s.dev.state = .ready) (a : Nat) (b : Byte) :
    exec (.wrFifo a b) s = .next (s.received [b]) := by
  rw [exec_wrFifo, Device.fifoWrite_of_ready _ b hs]
  rfl

/-- R145: a further byte of a command. -/
theorem exec_wrFifo_received {s : State} {cmd : List Byte}
    (hc : commandComplete cmd = false) (hl : cmd.length ≠ Config.hw.cmdCapacity) (a : Nat)
    (b : Byte) : exec (.wrFifo a b) (s.received cmd) = .next (s.received (cmd ++ [b])) := by
  have expect : (s.received cmd).dev.dataExpect = true := by simp [State.received, hc]
  rw [exec_wrFifo, Device.fifoWrite_of_open _ b rfl expect, Device.append_of_room _ b hl, expect]
  rfl

/-- R145 to R148: FIFO writes in Ready buffer their bytes. -/
theorem execAll_wrFifo {s : State} (hs : s.dev.state = .ready) (ps : List (Nat × Byte))
    (hne : ps ≠ []) (hcap : ps.length ≤ Config.hw.cmdCapacity)
    (hlen : WithinDeclared (ps.map Prod.snd)) :
    execAll (ps.map fun p => .wrFifo p.1 p.2) s =
      some (s.received (ps.map Prod.snd), ps.map fun _ => .silent) := by
  induction ps using List.reverseRecOn with
  | nil => exact absurd rfl hne
  | append_singleton ps p ih =>
    obtain rfl | hps := eq_or_ne ps []
    · exact execAll_singleton (exec_wrFifo_of_ready hs p.1 p.2)
    · simp only [List.map_append, List.map_cons, List.map_nil, List.length_append,
        List.length_singleton] at hlen hcap ⊢
      have before := ih hps (by omega) hlen.of_append
      have room : (ps.map Prod.snd).length ≠ Config.hw.cmdCapacity := by
        rw [List.length_map]
        omega
      exact execAll_append before
        (execAll_singleton (exec_wrFifo_received hlen.not_complete room p.1 p.2))

/-- Settles O45: the writes buffer their bytes, and data-expect is the negation of Complete() (R148). -/
theorem receptionBuffersTheCommand : Obligations.ReceptionBuffersTheCommand := by
  intro s ps hs hne hcap hlen
  have within : WithinDeclared (ps.map Prod.snd) := by simpa [WithinDeclared] using hlen
  refine ⟨!commandComplete (ps.map Prod.snd), execAll_wrFifo hs ps hne hcap within, ?_⟩
  rw [Bool.not_eq_false', commandComplete_iff]

/-! ### A run of FIFO reads -/

/-- R154: a FIFO read that leaves a byte of the response to give. -/
theorem exec_rdFifo_of_more {s : State} (h : s.dev.rspCursor < s.dev.rsp.length)
    (hs : s.dev.state = .completion) (hm : s.dev.rspCursor + 1 ≠ s.dev.rsp.length) (a : Nat) :
    exec (.rdFifo a) s = .next { s with
      dev := { s.dev with rspCursor := s.dev.rspCursor + 1 }
      reply := .bytes [s.dev.rsp[s.dev.rspCursor]] } := by
  rw [exec_rdFifo, Device.fifoRead_of_more h hs hm, State.readAnswer_eq]

/-- R155: the FIFO read of the last byte. -/
theorem exec_rdFifo_of_last {s : State} (h : s.dev.rspCursor < s.dev.rsp.length)
    (hs : s.dev.state = .completion) (hl : s.dev.rspCursor + 1 = s.dev.rsp.length) (a : Nat) :
    exec (.rdFifo a) s = .next { s with
      dev := s.dev.drained
      reply := .bytes [s.dev.rsp[s.dev.rspCursor]] } := by
  rw [exec_rdFifo, Device.fifoRead_of_last h hs hl, State.readAnswer_eq]

/-- R154, R155: as many FIFO reads as the response has bytes left answer them in order and drain it. -/
theorem execAll_rdFifo (reads : List Nat) {s : State} (hs : s.dev.state = .completion)
    (hne : s.dev.rsp ≠ []) (hreads : reads ≠ [])
    (hlen : s.dev.rspCursor + reads.length = s.dev.rsp.length) :
    execAll (reads.map .rdFifo) s = some
      ({ s with dev := s.dev.drained, reply := .bytes [s.dev.rsp.getLast hne] },
        (s.dev.rsp.drop s.dev.rspCursor).map fun b => .bytes [b]) := by
  induction reads generalizing s with
  | nil => exact absurd rfl hreads
  | cons a rest ih =>
    rw [List.length_cons] at hlen
    have h : s.dev.rspCursor < s.dev.rsp.length := by omega
    rw [List.drop_eq_getElem_cons h]
    obtain rfl | hrest := eq_or_ne rest []
    · have one : s.dev.rspCursor + 1 = s.dev.rsp.length := hlen
      have last : s.dev.rsp.getLast hne = s.dev.rsp[s.dev.rspCursor] := by
        simp only [List.getLast_eq_getElem, ← one, Nat.add_sub_cancel]
      rw [last, List.drop_eq_nil_of_le (Nat.le_of_eq one.symm)]
      exact execAll_singleton (exec_rdFifo_of_last h hs one a)
    · have pos := List.length_pos_of_ne_nil hrest
      refine execAll_cons (exec_rdFifo_of_more h hs (by omega) a) ?_
      apply ih
      case hs => exact hs
      case hreads => exact hrest
      case hlen => dsimp only; omega

/-! ### A command cycle -/

/-- The state in which go has been accepted for the command `cmd` (R150). -/
def State.responded (s : State) (cmd : List Byte) : State :=
  { s with
    dev := { s.dev with
      state := .completion
      cmdReady := false
      cmd := cmd
      rsp := Config.hw.respond cmd
      rspCursor := 0
      dataAvail := true
      dataExpect := false }
    reply := .silent }

/-- R150: go after a complete command. -/
theorem exec_stsGo_received {s : State} {cmd : List Byte} (hc : CommandComplete cmd)
    (b7 : BitVec 1) (lo : BitVec 5) :
    exec (.stsGo b7 lo) (s.received cmd) = .next (s.responded cmd) := by
  rw [exec_stsGo, Device.go_of_complete _ rfl hc]
  rfl

/-- Settles O46: the writes buffer the command, the go answers it, and the reads drain the answer. -/
theorem commandCycleReturnsTheResponse : Obligations.CommandCycleReturnsTheResponse := by
  intro s ps reads b7 lo hs hcap hc hlen hreads
  have six : 6 ≤ ps.length := by simpa using hc.1
  have within : WithinDeclared (ps.map Prod.snd) := fun _ => by simpa using hlen
  have written := execAll_wrFifo hs ps (by rintro rfl; simp at six) hcap within
  have going := execAll_singleton (exec_stsGo_received (s := s) hc b7 lo)
  have nonempty : reads ≠ [] := by
    rintro rfl
    simp [Params.respond] at hreads
  have drained := execAll_rdFifo reads (s := s.responded (ps.map Prod.snd)) rfl
    (List.cons_ne_nil _ _) nonempty ((Nat.zero_add _).trans hreads)
  exact execAll_append (execAll_append written going) drained

end Sys2Proof.Machine
end

section
/-! The transfer call (R170 to R188): the calls that are refused (R171, R185), and what is read off the results
of the others whatever the shifter does: their return (R188), the queues between calls (R179), in[] (R184),
chip-select after a timeout (R181), and the calls of no byte (R182). -/

namespace Sys2Proof.Machine

/-! ### The rows -/

/-- R85: an XFER row is the transfer call with the row's two flags. -/
theorem exec_xfer {i : Instr} {m : Nat} {out inBuf : List Byte}
    (hi : i ∈ [Instr.xferBE m out inBuf, Instr.xferB m out inBuf, Instr.xferC m out inBuf,
      Instr.xferE m out inBuf]) (s : State) :
    ∃ b e, exec i s = s.transfer Config.hw Config.draws b e m out inBuf := by
  simp only [List.mem_cons, List.not_mem_nil, or_false] at hi
  rcases hi with rfl | rfl | rfl | rfl
  · exact ⟨true, true, rfl⟩
  · exact ⟨true, false, rfl⟩
  · exact ⟨false, false, rfl⟩
  · exact ⟨false, true, rfl⟩

/-! ### Calls that are refused -/

section Refused

variable (P : Params) (F : Draws) {s : State} (b e : Bool) {m : Nat} {out inBuf : List Byte}

/-- R171, D33. -/
theorem State.transfer_of_not_bytes (h : m % 8 ≠ 0) :
    s.transfer P F b e m out inBuf = .refused (.badBitLength m) := by
  rw [State.transfer, if_pos h]

/-- R185, D39. -/
theorem State.transfer_of_running (h : m % 8 = 0) (hcall : s.eng.call ≠ none) :
    s.transfer P F b e m out inBuf = .refused .overlappingCall := by
  rw [State.transfer, if_neg (not_not_intro h), if_pos (Option.isSome_iff_ne_none.2 hcall)]

/-- R171, D35. -/
theorem State.transfer_of_short (h : m % 8 = 0) (hcall : s.eng.call = none)
    (hshort : out.length < m / 8 ∨ inBuf.length < m / 8) :
    s.transfer P F b e m out inBuf = .refused .shortBuffer := by
  rw [State.transfer, if_neg (not_not_intro h), if_neg (by simp [hcall]), if_pos hshort]

end Refused

/-- Settles O57: whatever its flags, the call is refused by the first of the three tests that it fails (R171,
R185). -/
theorem illegalCallsAreRefused : Obligations.IllegalCallsAreRefused := by
  intro s m out inBuf i hi
  obtain ⟨b, e, hexec⟩ := exec_xfer hi s
  rw [hexec]
  exact ⟨State.transfer_of_not_bytes _ _ b e, State.transfer_of_running _ _ b e,
    State.transfer_of_short _ _ b e⟩

/-! ### The two results as one -/

/-- What a call of either status leaves after `k` exchanges: Begin, the bytes in order, the end that
`endFlag` asks for, and in[] with their answers in front. -/
def State.callResult (P : Params) (F : Draws) (s : State) (beginFlag endFlag : Bool) (status : Status)
    (k : Nat) (out inBuf : List Byte) : State :=
  let r := (s.opened beginFlag).wireBytes P F (out.take k)
  (r.1.closed endFlag).setReply (.transfer status k (r.2 ++ inBuf.drop k))

section Result

variable {P : Params} {F : Draws} {s t : State} {b e : Bool} {n : Nat} {out inBuf : List Byte}

theorem State.opened_host (s : State) (b : Bool) : (s.opened b).host = s.host := by
  cases b <;> rfl

theorem State.closed_host (s : State) (e : Bool) : (s.closed e).host = s.host := by
  cases e <;> rfl

/-- R180: End leaves the queues as they are. -/
theorem State.closed_atRest (h : s.eng.AtRest) (e : Bool) : (s.closed e).eng.AtRest := by
  cases e <;> exact h

/-- R179, R180: the Ok result exchanges every byte and ends where end_flag says so. -/
theorem State.okResult_eq_callResult :
    s.okResult P F b e n out inBuf = s.callResult P F b e .ok n out inBuf := rfl

/-- R181: the timeout result ends the transaction whatever end_flag says. -/
theorem State.timeoutResult_eq_callResult {k : Nat} :
    s.timeoutResult P F b k out inBuf = s.callResult P F b true .timeout k out inBuf := rfl

/-- R179, R181: the status of a call tells how many bytes it exchanged and how it ended. -/
theorem State.CallOutcome.exists_callResult (h : s.CallOutcome P F b e n out inBuf t) :
    ∃ e' status k, t.SameButSched (s.callResult P F b e' status k out inBuf) ∧ k ≤ n ∧
      (status = .ok → k = n) ∧ (status = .timeout → 0 < n ∧ e' = true) := by
  rcases h with h | ⟨k, hn, hk, h⟩
  · exact ⟨e, .ok, n, State.okResult_eq_callResult ▸ h, le_rfl, fun _ => rfl, nofun⟩
  · exact ⟨true, .timeout, k, State.timeoutResult_eq_callResult ▸ h, hk, nofun,
      fun _ => ⟨hn, rfl⟩⟩

/-- R179, R182: both queues are empty again after the return. -/
theorem State.callResult_atRest (hr : s.eng.AtRest) (status : Status) (k : Nat) :
    (s.callResult P F b e status k out inBuf).eng.AtRest := by
  refine State.closed_atRest (s := ((s.opened b).wireBytes P F (out.take k)).1) ?_ e
  rw [State.wireBytes_eng]
  exact State.opened_atRest hr b

theorem State.callResult_host (status : Status) (k : Nat) :
    (s.callResult P F b e status k out inBuf).host = s.host := by
  simp [State.callResult, State.closed_host, State.opened_host]

end Result

/-- Settles O51: each row is one call, and a call leaves one of its two results (R179, R181). -/
theorem callLeavesOneOfItsTwoResults : Obligations.CallLeavesOneOfItsTwoResults := by
  intro s n out inBuf hr ho hi
  have call : ∀ b e, ∃ t, s.transfer Config.hw Config.draws b e (8 * n) out inBuf = .next t ∧
      s.CallOutcome Config.hw Config.draws b e n out inBuf t := by
    intro b e
    obtain ⟨t, ht, hout, -⟩ := s.transfer_returned Config.hw Config.draws b e n out inBuf hr ho hi
    exact ⟨t, ht, hout⟩
  exact ⟨call true true, call true false, call false false, call false true⟩

/-- Settles O50: the call returns within its steps, and either result leaves the engine at rest (R188). -/
theorem everyCallReturnsWithinItsPollBudget :
    Obligations.EveryCallReturnsWithinItsPollBudget := by
  intro s n out inBuf hr ho hi i hmem
  obtain ⟨b, e, hexec⟩ := exec_xfer hmem s
  obtain ⟨t, ht, hout, -, hge, hle⟩ :=
    s.transfer_returned Config.hw Config.draws b e n out inBuf hr ho hi
  obtain ⟨e', status, k, hres, -⟩ := hout.exists_callResult
  have atRest : t.eng.AtRest := by
    rw [hres]
    exact State.callResult_atRest (inBuf := inBuf) hr status k
  have host : t.host = s.host := by
    rw [hres]
    exact State.callResult_host (inBuf := inBuf) status k
  have reply := congrArg State.reply hres
  exact ⟨t, hexec.trans ht, atRest, host, ⟨_, _, _, reply⟩, hge, hle⟩

/-! ### An Ok call under two schedules -/

/-- Settles O52: the Ok result is made of exchanges alone, and of the draws these see MISO_IDLE alone (R174,
R179). -/
theorem scheduleDoesNotShowInAnOkCall : Obligations.ScheduleDoesNotShowInAnOkCall := by
  intro P F G s t u b e n out inBuf hidle hr ht hu htok huok
  have same : s.okResult P F b e n out inBuf = s.okResult P G b e n out inBuf := by
    simp only [State.okResult, State.wireBytes_idle hidle]
  rw [State.transfer_ok hr hu huok, State.transfer_ok hr ht htok, same]

/-! ### in[] and chip-select after the return -/

/-- R184: what a call answers is as long as in[], and is in[] from the received bytes on. -/
theorem State.callResult_inBuf (P : Params) (F : Draws) (s : State) {out inBuf : List Byte} {k : Nat}
    (ho : k ≤ out.length) (hi : k ≤ inBuf.length) :
    ((s.wireBytes P F (out.take k)).2 ++ inBuf.drop k).length = inBuf.length ∧
      ((s.wireBytes P F (out.take k)).2 ++ inBuf.drop k).drop k = inBuf.drop k := by
  have answers : (s.wireBytes P F (out.take k)).2.length = k := by simp [ho]
  exact ⟨by rw [List.length_append, List.length_drop, answers]; omega, List.drop_left' answers⟩

/-- Settles O55: both results have the answers in front of in[] (R184), and the timeout result ends the
transaction (R181). -/
theorem timeoutDeselectsAndKeepsTheRestOfIn : Obligations.TimeoutDeselectsAndKeepsTheRestOfIn := by
  intro P F s t b e n out inBuf status j buf hr ht hreply
  obtain ⟨-, -, ho, hi, -⟩ := State.transfer_next ht
  obtain ⟨u, hu, hout, -⟩ := s.transfer_returned P F b e n out inBuf hr (by omega) (by omega)
  obtain rfl : u = t := Host.Outcome.next.inj (hu.symm.trans ht)
  obtain ⟨e', status', k, hres, hk, hok, htimeout⟩ := hout.exists_callResult
  rw [hres] at hreply ⊢
  obtain ⟨rfl, rfl, rfl⟩ := Reply.transfer.inj hreply
  obtain ⟨hlen, hrest⟩ :=
    State.callResult_inBuf P F (s.opened b) (k := k) (out := out) (inBuf := inBuf) (by omega) (by omega)
  refine ⟨hk, hlen, hrest, hok, fun h => ?_⟩
  obtain ⟨hn, rfl⟩ := htimeout h
  exact ⟨hn, rfl, rfl, rfl⟩

/-! ### Calls of no byte -/

/-- R182: a call of no byte is its Begin and its End, and answers Ok. -/
theorem State.transfer_zero (P : Params) (F : Draws) {s : State} (hr : s.eng.AtRest) (b e : Bool)
    (out inBuf : List Byte) :
    ∃ k, s.transfer P F b e 0 out inBuf = .next
      { ((s.opened b).closed e).setReply (.transfer .ok 0 inBuf) with schedDraws := k } := by
  obtain ⟨t, ht, hout, -⟩ :=
    s.transfer_returned P F b e 0 out inBuf hr (Nat.zero_le _) (Nat.zero_le _)
  obtain h | ⟨k, hpos, -⟩ := hout
  · exact ⟨t.schedDraws, ht.trans (congrArg _ h)⟩
  · exact absurd hpos (lt_irrefl 0)

/-- R172: from rest, Begin only asserts chip-select and opens a transaction. -/
theorem State.opened_of_atRest {s : State} (hr : s.eng.AtRest) :
    s.opened true =
      { s with dev := { s.dev with sel := true, hdrCnt := 0 }, eng := { s.eng with cs := true } } := by
  obtain ⟨-, htx, hrx⟩ := hr
  simp only [htx, hrx]
  rfl

/-- Settles O56: the call is its Begin and its End (R182), and from rest Begin finds empty queues. -/
theorem zeroLengthCallsOnlyMoveChipSelect : Obligations.ZeroLengthCallsOnlyMoveChipSelect := by
  intro s out inBuf hr
  have call := fun b e => State.transfer_zero Config.hw Config.draws hr b e out inBuf
  have beginEnd := call true true
  have beginOnly := call true false
  rw [State.opened_of_atRest hr] at beginEnd beginOnly
  exact ⟨beginEnd, beginOnly, call false false, call false true⟩

end Sys2Proof.Machine
end

section
/-! The two schedules of 95_test_vectors.md: a shifter that never steps lets a call of at least one byte time out
with nothing exchanged, and one that runs whenever it can lets every call return Ok (R177, R178). -/

namespace Sys2Proof.Machine

variable {P : Params} {F : Draws} {s0 s : State} {in0 : List Byte} {c : Call}

/-! ### A call that keeps a property until it returns -/

/-- The call that runs in the state has `R`, or the call has returned with `Q`. -/
def State.RunsOrReturned (R : State → Call → Prop) (Q : State → Prop) (t : State) : Prop :=
  (∃ c, t.eng.call = some c ∧ R t c) ∨ (t.eng.call = none ∧ Q t)

/-- Every tick of a running call keeps `R` or returns with `Q`. -/
def State.TicksKeep (P : Params) (F : Draws) (R : State → Call → Prop) (Q : State → Prop) : Prop :=
  ∀ s c, s.eng.call = some c → R s c → (s.tick P F).RunsOrReturned R Q

/-- Where every tick keeps `R` or returns with `Q`, so does a run. -/
theorem State.runCall_keeps {R : State → Call → Prop} {Q : State → Prop}
    (step : State.TicksKeep P F R Q) (fuel : Nat) (hcall : s.eng.call = some c) (h : R s c) :
    (s.runCall P F fuel).RunsOrReturned R Q := by
  induction fuel generalizing s c with
  | zero => exact .inl ⟨c, hcall, h⟩
  | succ fuel ih =>
    have e : s.runCall P F (fuel + 1) = (s.tick P F).runCall P F fuel := by
      simp [State.runCall, hcall]
    rw [e]
    rcases step s c hcall h with ⟨c', hcall', h'⟩ | ⟨hnone, hQ⟩
    · exact ih hcall' h'
    · rw [State.runCall_none P F _ hnone]
      exact .inr ⟨hnone, hQ⟩

/-- A legal call that begins with `R` returns with `Q`, where every tick keeps `R` or returns with `Q`; and it
leaves one of its two results. -/
theorem State.transfer_keeps {R : State → Call → Prop} {Q : State → Prop}
    (step : State.TicksKeep P F R Q) {b e : Bool} {n : Nat} {out inBuf : List Byte}
    (hr : s.eng.AtRest) (ho : n ≤ out.length) (hi : n ≤ inBuf.length)
    (start : R ((s.opened b).begun e n out inBuf) (Call.initial false e n out inBuf)) :
    ∃ t, s.transfer P F b e (8 * n) out inBuf = .next t ∧
      s.CallOutcome P F b e n out inBuf t ∧ Q t := by
  obtain ⟨t, ht, hout, hnone, -⟩ := s.transfer_returned P F b e n out inBuf hr ho hi
  obtain ⟨fuel, -, hrun⟩ := s.transfer_run P F b e n out inBuf hr ho hi
  obtain rfl := Host.Outcome.next.inj (hrun.symm.trans ht)
  refine ⟨_, ht, hout, ?_⟩
  rcases State.runCall_keeps step fuel rfl start with ⟨d, hd, -⟩ | ⟨-, hQ⟩
  · simp [hnone] at hd
  · exact hQ

/-! ### A shifter that never steps -/

/-- The call `c` of at least one byte runs past Begin in `s`, and nothing has been exchanged. -/
structure Stalled (P : Params) (F : Draws) (s0 : State) (in0 : List Byte) (s : State) (c : Call) :
    Prop where
  pos : 0 < c.n
  begun : c.phase ≠ .start
  exchanged : Exchanged P F s0 in0 0 s c
  phaseOk : PhaseOk P s c

/-- R188: where the schedule has no steps, the shifter's turn is a draw and nothing else. -/
theorem State.shifterTurn_of_stopped (hF : ∀ k, F.shifterSteps k = 0) (s : State) :
    s.shifterTurn P F = s.countSched := by
  unfold State.shifterTurn
  cases s.eng.txq with
  | nil => rfl
  | cons b q => simp only [hF]; rfl

theorem Stalled.shifterTurn (hF : ∀ k, F.shifterSteps k = 0) (h : Stalled P F s0 in0 s c) :
    Stalled P F s0 in0 (s.shifterTurn P F) c where
  pos := h.pos
  begun := h.begun
  exchanged := by
    obtain ⟨dev, miso, host, cs, out_le, in_le, i_le, k_le, j_le, txq, rxq, inBuf⟩ := h.exchanged
    rw [State.shifterTurn_of_stopped hF]
    exact ⟨dev, miso, host, cs, out_le, in_le, i_le, k_le, j_le, txq, rxq, inBuf⟩
  phaseOk := h.phaseOk.shifterTurn

theorem Stalled.of_goesOn {t : State} {c' : Call} (hpos : 0 < c.n)
    (g : GoesOn P F s0 in0 0 c t c') : Stalled P F s0 in0 t c' :=
  ⟨g.n_eq ▸ hpos, g.begun, g.exchanged, g.phaseOk⟩

/-- R179: a call that is about to return Ok has exchanged its bytes, and so is not stalled. -/
theorem Stalled.phase_ne_finish (h : Stalled P F s0 in0 s c) : c.phase ≠ .finish := by
  intro hph
  obtain ⟨-, hj, -⟩ := h.phaseOk.in_finish hph
  have := h.exchanged.j_le
  have := h.pos
  omega

/-- R181: the return of a call that answers Timeout is the timeout result. -/
theorem Returned.of_timeout {k j : Nat} {t : State} {buf : List Byte}
    (h : Returned P F s0 in0 k c t) (hreply : t.reply = .transfer .timeout j buf) :
    t.SameButSched (s0.timeoutResult P F false k c.out in0) := by
  rcases h with h | ⟨-, -, h⟩
  · rw [h] at hreply
    simp [State.okResult] at hreply
  · exact h

/-- R177, R178: a sequencer step of a stalled call leaves it stalled, or is its TimeoutExit. -/
theorem Stalled.seqStep (h0 : s0.eng.AtRest) (h : Stalled P F s0 in0 s c) :
    (s.seqStep P c).RunsOrReturned (Stalled P F s0 in0)
      (·.SameButSched (s0.timeoutResult P F false 0 [] in0)) := by
  cases hph : c.phase with
  | start => exact absurd hph h.begun
  | finish => exact absurd hph h.phase_ne_finish
  | transmit =>
    obtain ⟨c', g, -⟩ := transmit_goesOn h.exchanged h.phaseOk hph
    exact .inl ⟨c', g.call, .of_goesOn h.pos g⟩
  | doneWait =>
    obtain ⟨c', g, -⟩ := doneWait_goesOn h.exchanged h.phaseOk hph
    exact .inl ⟨c', g.call, .of_goesOn h.pos g⟩
  | residual =>
    obtain ⟨c', g, -⟩ := residual_goesOn h.exchanged h.phaseOk hph
    exact .inl ⟨c', g.call, .of_goesOn h.pos g⟩
  | timeout =>
    obtain ⟨returned, none, -⟩ := timeout_returned h.exchanged h.phaseOk hph h0
    have reply : (s.seqStep P c).reply =
        .transfer .timeout (c.drain s.eng.rxq).j (c.drain s.eng.rxq).inBuf := by
      rw [State.seqStep, hph]
      rfl
    exact .inr ⟨none, returned.of_timeout reply⟩

/-- R188: with such a shifter a stalled call stays stalled until its TimeoutExit. -/
theorem Stalled.ticksKeep (hF : ∀ k, F.shifterSteps k = 0) (h0 : s0.eng.AtRest) :
    State.TicksKeep P F (Stalled P F s0 in0)
      (·.SameButSched (s0.timeoutResult P F false 0 [] in0)) := by
  intro s c hcall h
  rw [State.tick_eq hcall h.begun]
  exact (h.shifterTurn hF).seqStep h0

/-- Settles O53: the call is stalled from Begin to its TimeoutExit (R177, R178, R181). -/
theorem stoppedShifterTimesOut : Obligations.StoppedShifterTimesOut := by
  intro P F s b e n out inBuf hF hr hn ho hi
  have h0 := State.opened_atRest hr b
  obtain ⟨hx, hp, hbegun, -⟩ := (s.opened b).begun_exchanged P F e n out inBuf h0 ho hi
  obtain ⟨t, ht, -, hres⟩ :=
    State.transfer_keeps (Stalled.ticksKeep hF h0) hr ho hi ⟨hn, hbegun, hx, hp⟩
  refine ⟨t, ht, hres, ?_⟩
  rw [hres]
  exact ⟨rfl, rfl, rfl⟩

/-! ### A shifter that runs whenever it can -/

/-- The call `c` runs past Begin in `s` with no poll budget exhausted, its queues holding no more than one byte
that the shifter can exchange at once. -/
structure Flowing (P : Params) (F : Draws) (s0 : State) (in0 : List Byte) (s : State) (c : Call) :
    Prop where
  begun : c.phase ≠ .start
  inBudget : c.phase ≠ .timeout
  txq_le : s.eng.txq.length ≤ 1
  rxq : s.eng.rxq = []
  exchanged : ∃ k, Exchanged P F s0 in0 k s c
  phaseOk : PhaseOk P s c

/-- R174: with E.txq empty no number of shifter steps does anything. -/
theorem State.shifterSteps_of_txq_nil (h : s.eng.txq = []) (k : Nat) :
    s.shifterSteps P F k = s := by
  induction k with
  | zero => rfl
  | succ k ih => rw [State.shifterSteps, (s.shifterStep_frame P F).2.2 h, ih]

/-- R174: a shifter step exchanges a single byte where E.rxq is empty. -/
theorem State.shifterStep_txq_nil (htx : s.eng.txq.length ≤ 1) (hrx : s.eng.rxq = []) :
    (s.shifterStep P F).eng.txq = [] := by
  unfold State.shifterStep
  match htxq : s.eng.txq, htx with
  | [], _ => exact htxq
  | [b], _ =>
    have room : s.eng.rxq.length < P.fifoDepth := by simp [hrx, Params.fifoDepth]
    simp [room]

/-- R188: where the schedule always has steps enough for a full E.txq, the shifter's turn exchanges the byte. -/
theorem State.shifterTurn_txq_nil (hF : ∀ k, P.fifoDepth ≤ F.shifterSteps k)
    (htx : s.eng.txq.length ≤ 1) (hrx : s.eng.rxq = []) : (s.shifterTurn P F).eng.txq = [] := by
  unfold State.shifterTurn
  split
  · assumption
  · have enabled : F.shifterSteps s.schedDraws ≠ 0 := by
      have := hF s.schedDraws
      unfold Params.fifoDepth at this
      omega
    obtain ⟨k, hk⟩ := Nat.exists_eq_succ_of_ne_zero enabled
    have sent := State.shifterStep_txq_nil (P := P) (F := F) (s := s.countSched) htx hrx
    rw [hk, State.shifterSteps, State.shifterSteps_of_txq_nil sent]
    exact sent

/-- R176: a wait is entered with its whole budget. -/
theorem nextWait_ne_timeout (i n : Nat) : nextWait i n ≠ .timeout := by
  unfold nextWait
  split <;> simp

/-- R177 to R180: with E.txq empty every poll succeeds: a sequencer step pushes at most one byte and drains
E.rxq, and the call goes on within its budgets or returns Ok. -/
theorem State.seqStep_of_txq_nil (P : Params) (htx : s.eng.txq = []) (hbegun : c.phase ≠ .start)
    (hbudget : c.phase ≠ .timeout) :
    (s.seqStep P c).RunsOrReturned
      (fun t c' => c'.phase ≠ .timeout ∧ t.eng.txq.length ≤ 1 ∧
        t.eng.rxq = c.drainedQueue s.eng.rxq) State.CallOk := by
  have htx' : (s.drainRx c).eng.txq = [] := htx
  cases hph : c.phase with
  | start => exact absurd hph hbegun
  | timeout => exact absurd hph hbudget
  | transmit =>
    have ready : (s.drainRx c).eng.txReady P = true := by
      simp [Engine.txReady, htx', Params.fifoDepth]
    rw [State.seqStep, hph]
    simp only [State.transmitPoll, ready, if_true]
    exact .inl ⟨_, rfl, nextWait_ne_timeout _ _, by simp [htx'], rfl⟩
  | doneWait =>
    have done : (s.drainRx c).eng.done = true := by simp [Engine.done, htx']
    rw [State.seqStep, hph]
    simp only [State.donePoll, done, if_true]
    exact .inl ⟨_, rfl, by simp, by simp [htx'], rfl⟩
  | residual =>
    rw [State.seqStep, hph]
    exact .inl ⟨_, rfl, by simp, by simp [htx'], rfl⟩
  | finish =>
    rw [State.seqStep, hph]
    exact .inr ⟨rfl, c.j, c.inBuf, rfl⟩

/-- R188: with such a shifter a call keeps flowing until it returns Ok. -/
theorem Flowing.ticksKeep (hF : ∀ k, P.fifoDepth ≤ F.shifterSteps k) (h0 : s0.eng.AtRest) :
    State.TicksKeep P F (Flowing P F s0 in0) State.CallOk := by
  intro s c hcall h
  obtain ⟨k, hx⟩ := h.exchanged
  obtain ⟨k', hx'⟩ := hx.shifterTurn
  have hp' := h.phaseOk.shifterTurn (F := F)
  have sent := State.shifterTurn_txq_nil hF h.txq_le h.rxq
  rw [State.tick_eq hcall h.begun]
  rcases State.seqStep_of_txq_nil P sent h.begun h.inBudget with
    ⟨c', hcall', hbudget, htx, hrx⟩ | returned
  · obtain ⟨-, ⟨d, g⟩ | ⟨-, hnone⟩⟩ := seqStep_running hx' hp' h.begun h0
    · obtain rfl : d = c' := Option.some.inj (g.call.symm.trans hcall')
      obtain ⟨drained, -⟩ := hx'.drain
      exact .inl ⟨d, hcall', g.begun, hbudget, htx, hrx.trans drained, ⟨k', g.exchanged⟩,
        g.phaseOk⟩
    · simp [hnone] at hcall'
  · exact .inr returned

/-- Settles O54: no poll of the call fails, so that it returns Ok (R177, R178). -/
theorem eagerShifterReturnsOk : Obligations.EagerShifterReturnsOk := by
  intro P F s b e n out inBuf hF hr ho hi
  have h0 := State.opened_atRest hr b
  have ⟨_, htx, hrx⟩ := h0
  obtain ⟨hx, hp, hbegun, -⟩ := (s.opened b).begun_exchanged P F e n out inBuf h0 ho hi
  obtain ⟨t, ht, hout, hok⟩ := State.transfer_keeps (Flowing.ticksKeep hF h0) hr ho hi
    ⟨hbegun, nextWait_ne_timeout 0 n, by simp [State.begun, htx], hrx, ⟨0, hx⟩, hp⟩
  exact ⟨t, ht, hout.ok hok⟩

end Sys2Proof.Machine
end

section
/-! What reset gives a value (R225, R226). The five parser fields without one (log 4) are left out. -/

namespace Sys2Proof.Machine

/-- Settles O8: the eleven values DeviceReset assigns (R225), then the engine's four (R226). D.burst
takes the open parameter BURST_DEFAULT itself, whatever its value. -/
theorem resetLeavesTheStatedValues : Obligations.ResetLeavesTheStatedValues :=
  ⟨rfl, rfl, rfl, rfl, rfl, rfl, rfl, rfl, rfl, rfl, rfl,
    rfl, rfl, rfl, rfl⟩

end Sys2Proof.Machine
end

section
/-! A HDR word and its four BYTE events (log 10), and the five BYTE rows as one event (log 9). -/

namespace Sys2Proof.Machine

/-! ### The BYTE rows -/

/-- Settles O18: each of the five rows is the BYTE event, whatever the device's state (log 9). -/
theorem byteRowsAreOneEvent : Obligations.ByteRowsAreOneEvent :=
  fun s m bc => (exec_decodeByte bc m s).trans (exec_decodeByte s.dev.byteCase m s).symm

/-- A BYTE row goes on to the exchange's state, which answers the exchange's miso byte. -/
theorem exec_decodeByte_next (bc : ByteCase) (m : Byte) (s : State) :
    exec (decodeByte bc m) s =
      .next ((s.wireByte Config.hw Config.draws m).1.setReply
        (.bytes [(s.wireByte Config.hw Config.draws m).2])) :=
  (exec_decodeByte bc m s).trans (s.byteEvent_eq_wireByte _ _ m)

/-- A byte exchange neither reads nor changes the last answer (log 12). -/
theorem State.wireByte_setReply (P : Params) (F : Draws) (s : State) (r : Reply) (m : Byte) :
    (s.setReply r).wireByte P F m = ((s.wireByte P F m).1.setReply r, (s.wireByte P F m).2) := by
  rw [State.wireByte, State.wireByte, State.setReply_dev]
  split <;> rfl

/-! ### The HDR rows -/

/-- A HDR row exchanges the wire bytes of its word and answers all their miso bytes. -/
theorem exec_hdrRow (dir : Dir) (rsv : BitVec 1) (lenm1 : BitVec 6) (marker : Byte)
    (addr : BitVec 16) (s : State) :
    exec (hdrRow dir rsv lenm1 marker addr) s = State.answer
      (s.wireBytes Config.hw Config.draws (headerBytes (hdrWord dir rsv lenm1 marker addr))) := by
  cases dir <;> rfl

/-- The two HDR rows are those of a direction, whose bit weighs 128 in the first byte (R71). -/
theorem exists_hdrRow_eq {i : Instr} {rsv : BitVec 1} {lenm1 : BitVec 6} {marker : Byte}
    {addr : BitVec 16}
    (h : i = .hdrRead rsv lenm1 marker addr ∨ i = .hdrWrite rsv lenm1 marker addr) :
    ∃ dir, i = hdrRow dir rsv lenm1 marker addr ∧
      128 * dir.bit.toNat = if i = .hdrRead rsv lenm1 marker addr then 128 else 0 := by
  rcases h with rfl | rfl
  · exact ⟨.read, rfl, (if_pos rfl).symm⟩
  · exact ⟨.write, rfl, (if_neg Instr.noConfusion).symm⟩

/-- Settles O17: each BYTE event leaves an answer behind that the next one does not read, so the
four events are the row's own run of four exchanges (log 10). -/
theorem headerWordIsFourByteEvents : Obligations.HeaderWordIsFourByteEvents := by
  intro s i rsv lenm1 marker addr hi
  obtain ⟨dir, rfl, hdir⟩ := exists_hdrRow_eq hi
  refine ⟨dir.bit ++ rsv ++ lenm1, _, _, _, _, _, _, _, _, ?_,
    exec_decodeByte_next .., rfl, exec_decodeByte_next .., rfl,
    exec_decodeByte_next .., rfl, exec_decodeByte_next .., rfl, ?_⟩
  · rw [hdrByte0_toNat, hdir]
  · rw [exec_hdrRow, headerBytes_hdrWord]
    simp only [State.wireByte_setReply]
    rfl

end Sys2Proof.Machine
end

section
/-! The four cases of a step (log 5, 6, 7, 11, 14), each as an equation. -/

namespace Sys2Proof.Machine

/-! ### An equation per case -/

/-- A running call takes one tick (log 7). -/
theorem step_of_call {s : State} {c : Call} (hcall : s.eng.call = some c) :
    step s = .next (s.tick Config.hw Config.draws) := by
  simp only [step, hcall]

/-- With nothing to issue the block rests (log 6). -/
theorem step_of_nothing {s : State} (hcall : s.eng.call = none) (hhost : s.host = []) :
    step s = .next s := by
  simp only [step, hcall, State.fetch, hhost]

/-- A request that decodes runs on the state without it, an access in a data phase (log 5, 11). -/
theorem step_of_decode {s : State} {r : Request} {rest : List Request} {i : Instr}
    (hcall : s.eng.call = none) (hhost : s.host = r :: rest)
    (hd : decode s.dev.byteCase r = .ok i) :
    step s = (s.setHost rest).inDataPhase Config.hw Config.draws r.access (exec i) := by
  simp only [step, hcall, State.fetch, hhost, State.setHost_dev, hd]

/-- A request of no row is a fault (log 14). -/
theorem step_of_undecodable {s : State} {r : Request} {rest : List Request} {e : DecodeError}
    (hcall : s.eng.call = none) (hhost : s.host = r :: rest)
    (hd : decode s.dev.byteCase r = .error e) : step s = .fault (.undecodable e) := by
  simp only [step, hcall, State.fetch, hhost, State.setHost_dev, hd]

/-- Settles O7: a step's three cases other than a decoded request. -/
theorem stepRestsTicksOrFaults : Obligations.StepRestsTicksOrFaults :=
  ⟨fun _ => step_of_nothing, fun _ _ => step_of_call, fun _ _ _ _ => step_of_undecodable⟩

/-! ### An access in its data phase -/

/-- R98, R100: an access that left the parser of `s` alone is closed with the offset one further and
the device deselected. -/
theorem State.closeAccess_of_sameParser {s u : State} (h : u.dev.SameParser s.dev) :
    u.closeAccess =
      { u with dev := { u.dev with sel := false, hdrCnt := 0, offset := s.dev.offset + 1 } } := by
  rw [State.closeAccess, h.bumpOffset_eq]
  rfl

/-- Settles O6: an access leaves the parser of its open data phase alone, whose offset is 0, so
closing the transaction leaves 1 (log 11); any other operation runs as it is (log 5). -/
theorem stepRunsTheDecodedInstruction : Obligations.StepRunsTheDecodedInstruction := by
  intro s r rest i hcall hhost hd
  refine ⟨fun ha => ?_, fun dir a ha => ?_⟩
  · rw [step_of_decode hcall hhost hd, ha]
    rfl
  · obtain ⟨u, hx, hu⟩ :=
      exec_access_next hd ha ((s.setHost rest).openAccess Config.hw Config.draws dir a)
    have hstep := step_of_access hcall hhost hd ha hx
    rw [State.closeAccess_of_sameParser hu] at hstep
    rw [State.openAccess_eq] at hx hstep
    exact ⟨u, hx, hstep⟩

end Sys2Proof.Machine
end
